-- ==== Sys2Proof/Word.lean ====
section
/-!
DEFINITION. The machine's words: 32-bit registers, addresses and instructions, bytes of memory, and the 4-bit register
numbers of the encodings (spec/10_state.md R20, spec/20_memory.md R50, spec/30_encoding.md R80, R82).
-/

namespace Sys2Proof

/-- A general register, an address, an instruction or a word of memory: 32 bits (R9, R20, R80). -/
abbrev Word := BitVec 32

/-- One byte of memory (R50). -/
abbrev Byte := BitVec 8

/-- The number of a general register, R0 to R15, as the four-bit fields of the encodings hold it (R20, R82). -/
abbrev RegNum := BitVec 4

end Sys2Proof
end

