-- ==== Sys2Proof/Syntax.lean ====
section
/-!
DEFINITION. The fifteen instructions of spec/opcode_table.json as syntax, one constructor per row (spec/00_scope.md R4,
spec/30_encoding.md R82, R83), the condition field (R88), the operand forms of addressing modes 1, 2, 4 and 5
(R95 to R123) and the names under which a decoder refuses a word (R86, R126 to R132).
-/

namespace Sys2Proof

/-- R88: the fifteen conditions. The sixteenth code, 0b1111, is no condition (R90). -/
inductive Cond where
  | eq | ne | cs | cc | mi | pl | vs | vc | hi | ls | ge | lt | gt | le | al
  deriving DecidableEq, Repr

/-- R95: the four shift types, bits [6:5]. -/
inductive ShiftType where
  | lsl | lsr | asr | ror
  deriving DecidableEq, Repr

/-- Addressing mode 1 (R95). The shift amounts of `immShift` are the amounts shifted by, so that LSR and ASR go from 1 to
32 (the field holds 0 for 32, R100, R102), LSL from 0 to 31 (0 is the plain register, R97) and ROR from 1 to 31. -/
inductive Operand1 where
  /-- R96: an eight-bit immediate rotated right by twice `rotateImm`. -/
  | imm (rotateImm : BitVec 4) (immed8 : BitVec 8)
  /-- R97, R98, R100, R102, R104. -/
  | immShift (rm : RegNum) (ty : ShiftType) (amount : Nat)
  /-- R107. -/
  | rrx (rm : RegNum)
  /-- R99, R101, R103, R105. -/
  | regShift (rm : RegNum) (ty : ShiftType) (rs : RegNum)
  deriving DecidableEq, Repr

/-- The offsets of addressing mode 2 (R109 to R111). `scaled rm .lsl 0` is the plain register offset of R110; the amounts
are as in `Operand1`. -/
inductive Offset2 where
  | imm (offset12 : BitVec 12)
  | scaled (rm : RegNum) (ty : ShiftType) (amount : Nat)
  | rrx (rm : RegNum)
  deriving DecidableEq, Repr

/-- The index kinds of addressing mode 2 that STR and STRB have (R112). STRT has the fourth row of R112 alone. -/
inductive Index2 where
  | offset
  | preIndexed
  | postIndexed
  deriving DecidableEq, Repr

/-- The four modes of addressing mode 4 (R116). -/
inductive Mode4 where
  | ia | ib | da | db
  deriving DecidableEq, Repr

/-- The four forms of addressing mode 5 (R120 to R123); `up` is the U bit, which is 1 in the Unindexed form. -/
inductive Index5 where
  | offset (up : Bool)
  | preIndexed (up : Bool)
  | postIndexed (up : Bool)
  | unindexed
  deriving DecidableEq, Repr

/-- R4: the instructions in scope, one constructor per row of spec/opcode_table.json. -/
inductive Instr where
  /-- R140. -/
  | smull (cond : Cond) (setFlags : Bool) (rdHi rdLo rs rm : RegNum)
  /-- R150. `long` is the N bit, bit 22. -/
  | stc (cond : Cond) (index : Index5) (long : Bool) (rn : RegNum) (crd cpNum : BitVec 4) (offset8 : BitVec 8)
  /-- R151. -/
  | stc2 (index : Index5) (long : Bool) (rn : RegNum) (crd cpNum : BitVec 4) (offset8 : BitVec 8)
  /-- R160. -/
  | stm1 (cond : Cond) (mode : Mode4) (writeback : Bool) (rn : RegNum) (list : BitVec 16)
  /-- R161. The W bit is kept because setting it is a fault of the instruction's own (R167). -/
  | stm2 (cond : Cond) (mode : Mode4) (wBit : Bool) (rn : RegNum) (list : BitVec 16)
  /-- R170. -/
  | str (cond : Cond) (index : Index2) (up : Bool) (rn rd : RegNum) (offset : Offset2)
  /-- R171. -/
  | strb (cond : Cond) (index : Index2) (up : Bool) (rn rd : RegNum) (offset : Offset2)
  /-- R172. -/
  | strt (cond : Cond) (up : Bool) (rn rd : RegNum) (offset : Offset2)
  /-- R185. -/
  | sub (cond : Cond) (setFlags : Bool) (rn rd : RegNum) (operand : Operand1)
  /-- R200. -/
  | swi (cond : Cond) (immed24 : BitVec 24)
  /-- R205. The SBZ field is kept because a non-zero one is a fault of the instruction's own (R125). -/
  | swp (cond : Cond) (rn rd : RegNum) (sbz : BitVec 4) (rm : RegNum)
  /-- R206. -/
  | swpb (cond : Cond) (rn rd : RegNum) (sbz : BitVec 4) (rm : RegNum)
  /-- R186. -/
  | teq (cond : Cond) (rn : RegNum) (sbz : BitVec 4) (operand : Operand1)
  /-- R187. -/
  | tst (cond : Cond) (rn : RegNum) (sbz : BitVec 4) (operand : Operand1)
  /-- R141. -/
  | umlal (cond : Cond) (setFlags : Bool) (rdHi rdLo rs rm : RegNum)
  deriving DecidableEq, Repr

/-- Why the decoder refuses a word: the line of R86 that refuses it, by name. Each is `refuse(NotInSpec)` (R132). -/
inductive Reject where
  /-- Fewer than four bytes were given: there is one length, four bytes (R80). -/
  | truncated
  /-- R86 line 1, R90: bits [31:28] = 0b1111 and not STC2. -/
  | unconditionalSpace
  /-- R86 line 3: a coprocessor load. -/
  | coprocessorLoad
  /-- R86 line 3, R129: P = 0, U = 0, W = 0 is no form of addressing mode 5. -/
  | coprocessorExtension
  /-- R86 line 4: a load multiple. -/
  | loadMultiple
  /-- R86 line 5, R128: bits [27:25] = 0b011 with bit 4 = 1. -/
  | notAddressingMode2
  /-- R86 line 5: a load of a word or byte. -/
  | load
  /-- R86 line 5, R173: P = 0, W = 1, B = 1, the absent manual section 4.1.46. -/
  | section4146
  /-- R86 line 6, R126, R131: bits [27:25] = 0b000, bit 7 = 1, bit 4 = 1 and none of the four in scope. -/
  | extensionSpace
  /-- R86 line 7, R127: a data-processing opcode other than SUB, TEQ, TST. -/
  | otherDataProcessing
  /-- R86 line 8: bits [27:25] = 0b101, or 0b111 with bit 24 = 0. -/
  | branchOrCoprocessor
  /-- R2: the architecture version has no such instruction. -/
  | notInVersion
  deriving DecidableEq, Repr

end Sys2Proof
end

