-- ==== Sys2Proof/WellFormed.lean ====
section
/-!
DEFINITION. Which terms of the syntax stand for an encoding. A shift amount must be one that a five-bit field can encode
for its shift type (spec/30_encoding.md R98, R100, R102, R104, R111); every other operand of `Instr` has a type that holds
exactly the encodable values. What the manual calls UNPREDICTABLE is encodable, and is a matter of the meanings.
-/

namespace Sys2Proof

/-- R98: LSL by 0 to 31. R100, R102: LSR and ASR by 1 to 32. R104: ROR by 1 to 31, since the field 0 is RRX (R107). -/
def ShiftType.encodes (ty : ShiftType) (amount : Nat) : Bool :=
  match ty with
  | .lsl => decide (amount ≤ 31)
  | .lsr => decide (1 ≤ amount) && decide (amount ≤ 32)
  | .asr => decide (1 ≤ amount) && decide (amount ≤ 32)
  | .ror => decide (1 ≤ amount) && decide (amount ≤ 31)

/-- A shifter operand with an encoding (R95). -/
def Operand1.wellFormed : Operand1 → Bool
  | .imm _ _ => true
  | .immShift _ ty amount => ty.encodes amount
  | .rrx _ => true
  | .regShift _ _ _ => true

/-- An offset of addressing mode 2 with an encoding (R109 to R111). -/
def Offset2.wellFormed : Offset2 → Bool
  | .imm _ => true
  | .scaled _ ty amount => ty.encodes amount
  | .rrx _ => true

/-- An instruction with an encoding (R82, R83). -/
def WellFormed : Instr → Bool
  | .smull _ _ _ _ _ _ => true
  | .stc _ _ _ _ _ _ _ => true
  | .stc2 _ _ _ _ _ _ => true
  | .stm1 _ _ _ _ _ => true
  | .stm2 _ _ _ _ _ => true
  | .str _ _ _ _ _ offset => offset.wellFormed
  | .strb _ _ _ _ _ offset => offset.wellFormed
  | .strt _ _ _ _ offset => offset.wellFormed
  | .sub _ _ _ _ operand => operand.wellFormed
  | .swi _ _ => true
  | .swp _ _ _ _ _ => true
  | .swpb _ _ _ _ _ => true
  | .teq _ _ _ operand => operand.wellFormed
  | .tst _ _ _ operand => operand.wellFormed
  | .umlal _ _ _ _ _ _ => true

end Sys2Proof
end

