-- ==== Sys2Proof/Decode.lean ====
section
/-!
DEFINITION. Instruction words: how four bytes make a word (spec/20_memory.md R53), the decoder (spec/30_encoding.md R86),
total on any bytes and refusing by name, and after it the encoder, written from the formats of R83.
-/

namespace Sys2Proof

/-! ## Words and bytes -/

/-- R53: the word whose bytes stand at rising addresses as `b0`, `b1`, `b2`, `b3`. -/
def wordOfBytes (bigEndian : Bool) (b0 b1 b2 b3 : Byte) : Word :=
  if bigEndian then (b0 ++ b1 ++ b2 ++ b3).cast (by decide) else (b3 ++ b2 ++ b1 ++ b0).cast (by decide)

/-- R53: the byte of a word that stands `k` addresses after the word's own, `k` from 0 to 3. -/
def byteOfWord (bigEndian : Bool) (w : Word) (k : Nat) : Byte :=
  if bigEndian then w.extractLsb' (24 - 8 * k) 8 else w.extractLsb' (8 * k) 8

/-! ## Fields -/

/-- R10: the field of `width` bits whose least significant bit is bit `lo`. -/
def field (w : Word) (lo width : Nat) : BitVec width := w.extractLsb' lo width

/-- R88: the condition that four bits name; 0b1111 names none (R90). -/
def Cond.ofBits (b : BitVec 4) : Option Cond :=
  match b.toNat with
  | 0 => some .eq
  | 1 => some .ne
  | 2 => some .cs
  | 3 => some .cc
  | 4 => some .mi
  | 5 => some .pl
  | 6 => some .vs
  | 7 => some .vc
  | 8 => some .hi
  | 9 => some .ls
  | 10 => some .ge
  | 11 => some .lt
  | 12 => some .gt
  | 13 => some .le
  | 14 => some .al
  | _ => none

/-- R88: the four bits of a condition. -/
def Cond.bits : Cond → BitVec 4
  | .eq => 0b0000#4
  | .ne => 0b0001#4
  | .cs => 0b0010#4
  | .cc => 0b0011#4
  | .mi => 0b0100#4
  | .pl => 0b0101#4
  | .vs => 0b0110#4
  | .vc => 0b0111#4
  | .hi => 0b1000#4
  | .ls => 0b1001#4
  | .ge => 0b1010#4
  | .lt => 0b1011#4
  | .gt => 0b1100#4
  | .le => 0b1101#4
  | .al => 0b1110#4

/-- R95: bits [6:5] are the shift type. -/
def ShiftType.ofBits (b : BitVec 2) : ShiftType :=
  match b.toNat with
  | 0 => .lsl
  | 1 => .lsr
  | 2 => .asr
  | _ => .ror

/-- R95. -/
def ShiftType.bits : ShiftType → BitVec 2
  | .lsl => 0b00#2
  | .lsr => 0b01#2
  | .asr => 0b10#2
  | .ror => 0b11#2

/-- R100, R102: a zero shift_imm means a shift by 32 for LSR and ASR. -/
def ShiftType.amountOf (ty : ShiftType) (shiftImm : BitVec 5) : Nat :=
  match ty with
  | .lsl => shiftImm.toNat
  | .lsr => if shiftImm = 0#5 then 32 else shiftImm.toNat
  | .asr => if shiftImm = 0#5 then 32 else shiftImm.toNat
  | .ror => shiftImm.toNat

/-- R95 to R107: the shifter operand of a word. Bit 25 is I; the caller has excluded I = 0 with bits 7 and 4 both 1. -/
def decodeOperand1 (w : Word) : Operand1 :=
  if w.getLsbD 25 then .imm (field w 8 4) (field w 0 8)
  else if w.getLsbD 4 then .regShift (field w 0 4) (.ofBits (field w 5 2)) (field w 8 4)
  else if field w 5 2 = 0b11#2 ∧ field w 7 5 = 0#5 then .rrx (field w 0 4)
  else .immShift (field w 0 4) (.ofBits (field w 5 2)) ((ShiftType.ofBits (field w 5 2)).amountOf (field w 7 5))

/-- R109 to R111: the offset of a store. Bit 25 is 0 for an immediate; the caller has excluded bit 25 = 1 with bit 4 = 1. -/
def decodeOffset2 (w : Word) : Offset2 :=
  if !w.getLsbD 25 then .imm (field w 0 12)
  else if field w 5 2 = 0b11#2 ∧ field w 7 5 = 0#5 then .rrx (field w 0 4)
  else .scaled (field w 0 4) (.ofBits (field w 5 2)) ((ShiftType.ofBits (field w 5 2)).amountOf (field w 7 5))

/-- R116: the mode from P (bit 24) and U (bit 23). -/
def decodeMode4 (w : Word) : Mode4 :=
  match w.getLsbD 24, w.getLsbD 23 with
  | false, true => .ia
  | true, true => .ib
  | false, false => .da
  | true, false => .db

/-- R120 to R123: the form from P (bit 24), U (bit 23) and W (bit 21); P = U = W = 0 is none (R129). -/
def decodeIndex5 (w : Word) : Option Index5 :=
  match w.getLsbD 24, w.getLsbD 21 with
  | true, false => some (.offset (w.getLsbD 23))
  | true, true => some (.preIndexed (w.getLsbD 23))
  | false, true => some (.postIndexed (w.getLsbD 23))
  | false, false => if w.getLsbD 23 then some .unindexed else none

/-! ## The decoder -/

/-- What a decoder answers. -/
inductive Decoded where
  | instr (i : Instr)
  | rejected (why : Reject)
  deriving DecidableEq, Repr

/-- The instruction, or none where the decoder refuses. -/
def Decoded.instr? : Decoded → Option Instr
  | .instr i => some i
  | .rejected _ => none

/-- R86 lines 1 and 3: STC (with a condition) or STC2 (without one). -/
def decodeCoprocessor (cond : Option Cond) (w : Word) : Decoded :=
  if w.getLsbD 20 then .rejected .coprocessorLoad
  else
    match decodeIndex5 w, cond with
    | none, _ => .rejected .coprocessorExtension
    | some index, some c =>
      .instr (.stc c index (w.getLsbD 22) (field w 16 4) (field w 12 4) (field w 8 4) (field w 0 8))
    | some index, none =>
      .instr (.stc2 index (w.getLsbD 22) (field w 16 4) (field w 12 4) (field w 8 4) (field w 0 8))

/-- R86 line 4: STM (1) and STM (2). -/
def decodeMultiple (c : Cond) (w : Word) : Decoded :=
  if w.getLsbD 20 then .rejected .loadMultiple
  else if w.getLsbD 22 then .instr (.stm2 c (decodeMode4 w) (w.getLsbD 21) (field w 16 4) (field w 0 16))
  else .instr (.stm1 c (decodeMode4 w) (w.getLsbD 21) (field w 16 4) (field w 0 16))

/-- R86 line 5, R112: STR, STRB and STRT. -/
def decodeStore (c : Cond) (w : Word) : Decoded :=
  if w.getLsbD 25 && w.getLsbD 4 then .rejected .notAddressingMode2
  else if w.getLsbD 20 then .rejected .load
  else
    let up := w.getLsbD 23
    let rn := field w 16 4
    let rd := field w 12 4
    let offset := decodeOffset2 w
    match w.getLsbD 24, w.getLsbD 21, w.getLsbD 22 with
    | false, true, false => .instr (.strt c up rn rd offset)
    | false, true, true => .rejected .section4146
    | true, false, false => .instr (.str c .offset up rn rd offset)
    | true, true, false => .instr (.str c .preIndexed up rn rd offset)
    | false, false, false => .instr (.str c .postIndexed up rn rd offset)
    | true, false, true => .instr (.strb c .offset up rn rd offset)
    | true, true, true => .instr (.strb c .preIndexed up rn rd offset)
    | false, false, true => .instr (.strb c .postIndexed up rn rd offset)

/-- R86 line 6: bits [27:25] = 0b000 with bit 7 = 1 and bit 4 = 1. -/
def decodeExtension (c : Cond) (w : Word) : Decoded :=
  if field w 4 4 = 0b1001#4 then
    if field w 21 7 = 0b0000110#7 then
      .instr (.smull c (w.getLsbD 20) (field w 16 4) (field w 12 4) (field w 8 4) (field w 0 4))
    else if field w 21 7 = 0b0000101#7 then
      .instr (.umlal c (w.getLsbD 20) (field w 16 4) (field w 12 4) (field w 8 4) (field w 0 4))
    else if field w 20 8 = 0b00010000#8 then
      .instr (.swp c (field w 16 4) (field w 12 4) (field w 8 4) (field w 0 4))
    else if field w 20 8 = 0b00010100#8 then
      .instr (.swpb c (field w 16 4) (field w 12 4) (field w 8 4) (field w 0 4))
    else .rejected .extensionSpace
  else .rejected .extensionSpace

/-- R86 line 7: SUB, TST and TEQ. -/
def decodeDataProcessing (c : Cond) (w : Word) : Decoded :=
  if field w 21 4 = 0b0010#4 then
    .instr (.sub c (w.getLsbD 20) (field w 16 4) (field w 12 4) (decodeOperand1 w))
  else if field w 21 4 = 0b1000#4 ∧ w.getLsbD 20 = true then
    .instr (.tst c (field w 16 4) (field w 12 4) (decodeOperand1 w))
  else if field w 21 4 = 0b1001#4 ∧ w.getLsbD 20 = true then
    .instr (.teq c (field w 16 4) (field w 12 4) (decodeOperand1 w))
  else .rejected .otherDataProcessing

/-- R86 lines 2 to 8: a word whose condition field is a condition. -/
def decodeConditional (c : Cond) (w : Word) : Decoded :=
  if field w 24 4 = 0b1111#4 then .instr (.swi c (field w 0 24))
  else if field w 25 3 = 0b110#3 then decodeCoprocessor (some c) w
  else if field w 25 3 = 0b100#3 then decodeMultiple c w
  else if field w 26 2 = 0b01#2 then decodeStore c w
  else if field w 25 3 = 0b000#3 ∧ w.getLsbD 7 = true ∧ w.getLsbD 4 = true then decodeExtension c w
  else if field w 26 2 = 0b00#2 then decodeDataProcessing c w
  else .rejected .branchOrCoprocessor

/-- R86: the instruction a word stands for, in architecture version 5 and above (for the earlier versions see
`Sys2Proof.Machine.State.decodeWord`). -/
def decode (w : Word) : Decoded :=
  match Cond.ofBits (field w 28 4) with
  | some c => decodeConditional c w
  | none =>
    if field w 25 3 = 0b110#3 ∧ w.getLsbD 20 = false then decodeCoprocessor none w
    else .rejected .unconditionalSpace

/-- R80, R53: the instruction that bytes at rising addresses stand for; the first four count. -/
def decodeBytes (bigEndian : Bool) : List Byte → Decoded
  | b0 :: b1 :: b2 :: b3 :: _ => decode (wordOfBytes bigEndian b0 b1 b2 b3)
  | _ => .rejected .truncated

/-- The instruction read from an opcode-table word of `nbits` bits, laid out as the default little-endian memory holds it
(R52, R53). -/
def decodeTableWord (nbits w : Nat) : Option Instr :=
  let word := BitVec.ofNat 32 (w % 2 ^ nbits)
  (decodeBytes false [byteOfWord false word 0, byteOfWord false word 1, byteOfWord false word 2,
    byteOfWord false word 3]).instr?

/-! ## The encoder -/

/-- One bit of an encoding. -/
def bit (b : Bool) : BitVec 1 := BitVec.ofBool b

/-- R95 to R107: bit 25 and bits [11:0] of a shifter operand. -/
def Operand1.encode : Operand1 → BitVec 1 × BitVec 12
  | .imm rotateImm immed8 => (1#1, (rotateImm ++ immed8).cast (by decide))
  | .immShift rm ty amount => (0#1, (BitVec.ofNat 5 amount ++ ty.bits ++ 0#1 ++ rm).cast (by decide))
  | .rrx rm => (0#1, (0b00000#5 ++ 0b11#2 ++ 0#1 ++ rm).cast (by decide))
  | .regShift rm ty rs => (0#1, (rs ++ 0#1 ++ ty.bits ++ 1#1 ++ rm).cast (by decide))

/-- R109 to R111: bit 25 and bits [11:0] of an offset. -/
def Offset2.encode : Offset2 → BitVec 1 × BitVec 12
  | .imm offset12 => (0#1, offset12)
  | .scaled rm ty amount => (1#1, (BitVec.ofNat 5 amount ++ ty.bits ++ 0#1 ++ rm).cast (by decide))
  | .rrx rm => (1#1, (0b00000#5 ++ 0b11#2 ++ 0#1 ++ rm).cast (by decide))

/-- R112: the P and W bits of an index kind. -/
def Index2.pw : Index2 → BitVec 1 × BitVec 1
  | .offset => (1#1, 0#1)
  | .preIndexed => (1#1, 1#1)
  | .postIndexed => (0#1, 0#1)

/-- R116: the P and U bits of a mode. -/
def Mode4.pu : Mode4 → BitVec 2
  | .ia => 0b01#2
  | .ib => 0b11#2
  | .da => 0b00#2
  | .db => 0b10#2

/-- R120 to R123: the P, U and W bits of a form. -/
def Index5.puw : Index5 → BitVec 2 × BitVec 1
  | .offset up => ((1#1 ++ bit up).cast (by decide), 0#1)
  | .preIndexed up => ((1#1 ++ bit up).cast (by decide), 1#1)
  | .postIndexed up => ((0#1 ++ bit up).cast (by decide), 1#1)
  | .unindexed => (0b01#2, 0#1)

/-- R83, format ML: `op` is bits [27:21]. -/
def encodeLongMultiply (c : Cond) (op : BitVec 7) (setFlags : Bool) (rdHi rdLo rs rm : RegNum) : Word :=
  (c.bits ++ op ++ bit setFlags ++ rdHi ++ rdLo ++ rs ++ 0b1001#4 ++ rm).cast (by decide)

/-- R83, format CLS. -/
def encodeCoprocessor (condBits : BitVec 4) (index : Index5) (long : Bool) (rn : RegNum) (crd cpNum : BitVec 4)
    (offset8 : BitVec 8) : Word :=
  (condBits ++ 0b110#3 ++ index.puw.1 ++ bit long ++ index.puw.2 ++ 0#1 ++ rn ++ crd ++ cpNum ++ offset8).cast
    (by decide)

/-- R83, format LSM: `s` is bit 22. -/
def encodeMultiple (c : Cond) (mode : Mode4) (s : BitVec 1) (w : Bool) (rn : RegNum) (list : BitVec 16) : Word :=
  (c.bits ++ 0b100#3 ++ mode.pu ++ s ++ bit w ++ 0#1 ++ rn ++ list).cast (by decide)

/-- R83, format LS: `p`, `b` and `w` are bits 24, 22 and 21. -/
def encodeStore (c : Cond) (p : BitVec 1) (up : Bool) (b w : BitVec 1) (rn rd : RegNum) (offset : Offset2) : Word :=
  (c.bits ++ 0b01#2 ++ offset.encode.1 ++ p ++ bit up ++ b ++ w ++ 0#1 ++ rn ++ rd ++ offset.encode.2).cast (by decide)

/-- R83, format DP: `opcode` is bits [24:21], `s` is bit 20. -/
def encodeDataProcessing (c : Cond) (opcode : BitVec 4) (s : BitVec 1) (rn rd : RegNum) (operand : Operand1) : Word :=
  (c.bits ++ 0b00#2 ++ operand.encode.1 ++ opcode ++ s ++ rn ++ rd ++ operand.encode.2).cast (by decide)

/-- R83, format SW: `b` is bit 22. -/
def encodeSwap (c : Cond) (b : BitVec 1) (rn rd : RegNum) (sbz : BitVec 4) (rm : RegNum) : Word :=
  (c.bits ++ 0b00010#5 ++ b ++ 0b00#2 ++ rn ++ rd ++ sbz ++ 0b1001#4 ++ rm).cast (by decide)

/-- R83: the word of a well-formed instruction. -/
def encode : Instr → Word
  | .smull c setFlags rdHi rdLo rs rm => encodeLongMultiply c 0b0000110#7 setFlags rdHi rdLo rs rm
  | .stc c index long rn crd cpNum offset8 => encodeCoprocessor c.bits index long rn crd cpNum offset8
  | .stc2 index long rn crd cpNum offset8 => encodeCoprocessor 0b1111#4 index long rn crd cpNum offset8
  | .stm1 c mode writeback rn list => encodeMultiple c mode 0#1 writeback rn list
  | .stm2 c mode wBit rn list => encodeMultiple c mode 1#1 wBit rn list
  | .str c index up rn rd offset => encodeStore c index.pw.1 up 0#1 index.pw.2 rn rd offset
  | .strb c index up rn rd offset => encodeStore c index.pw.1 up 1#1 index.pw.2 rn rd offset
  | .strt c up rn rd offset => encodeStore c 0#1 up 0#1 1#1 rn rd offset
  | .sub c setFlags rn rd operand => encodeDataProcessing c 0b0010#4 (bit setFlags) rn rd operand
  | .swi c immed24 => (c.bits ++ 0b1111#4 ++ immed24).cast (by decide)
  | .swp c rn rd sbz rm => encodeSwap c 0#1 rn rd sbz rm
  | .swpb c rn rd sbz rm => encodeSwap c 1#1 rn rd sbz rm
  | .teq c rn sbz operand => encodeDataProcessing c 0b1001#4 1#1 rn sbz operand
  | .tst c rn sbz operand => encodeDataProcessing c 0b1000#4 1#1 rn sbz operand
  | .umlal c setFlags rdHi rdLo rs rm => encodeLongMultiply c 0b0000101#7 setFlags rdHi rdLo rs rm

end Sys2Proof
end

