-- ==== Sys2Proof/Config.lean ====
section
/-!
DEFINITION. What the spec leaves to the implementation, to a configuration or to the platform (spec/00_scope.md R7, R8).

Three kinds stand here.
* The parameters that the spec leaves OPEN or that the manual calls IMPLEMENTATION DEFINED are constants with no body:
  a claim holds for whichever value they have (`Config.pcStoreOffset`, `Config.abortModel`, `Config.coprocAfterAbort`,
  `Config.earlyTermination`).
* The values that the manual calls UNPREDICTABLE are constants with no body, applied to a counter that the state holds
  (`Config.freeWord`, `Config.freeFlag`).
* The parameters that have a default in R7 are plain data held by the state and never changed by a step
  (`MachineConfig`), so that a claim about every state is a claim about every configuration.
-/

namespace Sys2Proof

/-- R7, `PCStoreOffset`: what a store of R15 adds to the address of the instruction. -/
inductive PCStoreOffset where
  | eight
  | twelve
  deriving DecidableEq, Repr, Inhabited

/-- R232, `AbortModel`: what the base register holds after a data-aborted instruction with writeback. -/
inductive AbortModel where
  | baseRestored
  | baseUpdated
  deriving DecidableEq, Repr, Inhabited

/-- R234, `CoprocAfterAbort`: the coprocessor's state after an STC or STC2 one of whose stores aborted. -/
inductive CoprocAfterAbort where
  | old
  | new
  deriving DecidableEq, Repr, Inhabited

/-- R144, `EarlyTermination`: the multiplier's type of early termination. It is about time only. -/
inductive EarlyTermination where
  | none
  | signed
  | unsigned
  deriving DecidableEq, Repr, Inhabited

/-- R27, decision D6: OPEN. Log entry 6. -/
opaque Config.pcStoreOffset : PCStoreOffset

/-- R232, decision D9: OPEN. Log entry 7. -/
opaque Config.abortModel : AbortModel

/-- R234, decision D9: OPEN. Log entry 8. -/
opaque Config.coprocAfterAbort : CoprocAfterAbort

/-- R144, decision D28: named by the spec and read by nothing, because the model has no time. Log entry 9. -/
opaque Config.earlyTermination : EarlyTermination

/-- The word that the manual calls UNPREDICTABLE, one for each draw (R233). Log entry 11. -/
opaque Config.freeWord : Nat → Word

/-- The flag value that the manual calls UNPREDICTABLE, one for each draw (R145). Log entry 12. -/
opaque Config.freeFlag : Nat → Bool

/-- R2, R3, `ArchVersion`: the version number and whether the M variant (long multiplies) is present. -/
structure ArchVersion where
  version  : Nat
  mVariant : Bool
  deriving DecidableEq, Repr

/-- R3, decision D1: the default machine is ARMv5TE. The T and E variants add no in-scope instruction. -/
def ArchVersion.armv5TE : ArchVersion := { version := 5, mVariant := true }

/-- How many bytes an access moves (R61). -/
inductive AccessSize where
  | byte
  | word
  deriving DecidableEq, Repr

/-- Whether an access reads or writes; an instruction fetch is a read (R8, R225). -/
inductive AccessKind where
  | read
  | write
  deriving DecidableEq, Repr

/-- The privilege an access carries to the memory system (R57, R246). -/
inductive Privilege where
  | user
  | privileged
  deriving DecidableEq, Repr

/-- One row of the memory system's answers: the accesses to addresses `first` to `last` of the listed sizes, kinds and
privileges are refused (R8, R66). Log entry 13. -/
structure AbortRule where
  first      : Nat
  last       : Nat
  sizes      : List AccessSize
  kinds      : List AccessKind
  privileges : List Privilege
  deriving DecidableEq, Repr

/-- The parameters of a run that have a default in R7. The three Booleans are the A, B and V bits of the System Control
coprocessor (R36). -/
structure MachineConfig where
  arch        : ArchVersion
  alignCheck  : Bool
  bigEndian   : Bool
  highVectors : Bool
  memSys      : List AbortRule
  deriving DecidableEq, Repr

/-- R7: the defaults (decisions D1, D3, D4, D5, D8). The memory system never aborts. -/
def MachineConfig.default : MachineConfig :=
  { arch := ArchVersion.armv5TE, alignCheck := false, bigEndian := false, highVectors := false, memSys := [] }

end Sys2Proof
end

