-- ==== Sys2Proof/Machine/State.lean ====
section
/-!
DEFINITION. The state of the machine, the reasons a step can stop, and the state after reset (spec/10_state.md,
spec/60_exceptions.md R221, R245, spec/70_reset_and_hazards.md R260).
-/

namespace Sys2Proof.Machine

/-- R245: the seven processor modes. -/
inductive Mode where
  | user | fiq | irq | supervisor | abort | undefined | system
  deriving DecidableEq, Repr

/-- R220, R221: the exceptions that are entered by the shared sequence of R222, which is all of them but Reset. -/
inductive Exc where
  | undefinedInstruction | softwareInterrupt | prefetchAbort | dataAbort | irq | fiq
  deriving DecidableEq, Repr

/-- R220: the two kinds of Data Abort that the spec labels. No register receives the label. -/
inductive AbortKind where
  | alignment | external
  deriving DecidableEq, Repr

/-- R8: one row of a coprocessor's behaviour. In state `state`, an instruction word `i` with `i AND mask = match` is
accepted: the words `first :: rest` are stored and the coprocessor's state becomes `next`. -/
structure CoprocRow where
  state : Nat
  mask  : Word
  value : Word
  first : Word
  rest  : List Word
  next  : Nat
  deriving DecidableEq, Repr

/-- R8, R37: a coprocessor that is present, as plain data: its own opaque state and the rows of its behaviour. The first
row that fits decides; where none fits, it rejects the instruction. Log entry 14. -/
structure Coprocessor where
  state : Nat
  rows  : List CoprocRow
  deriving DecidableEq, Repr

/-- R227, R230, R238, R260: what the platform's reset, FIQ and IRQ inputs say before one step. -/
structure InputSample where
  reset : Bool
  fiq   : Bool
  irq   : Bool
  deriving DecidableEq, Repr

/-- R38, R50: memory, as the bytes that hold a value, addresses strictly rising. An address that is not listed holds no
value (R41). -/
abbrev Memory := List Host.Cell

/-- The machine's state. -/
structure State where
  /-- R21: the thirty physical general registers other than R15. 0 to 14 are R0 to R14 of User and System mode, 15 to 21
  are R8_fiq to R14_fiq, 22 and 23 R13_svc and R14_svc, 24 and 25 R13_abt and R14_abt, 26 and 27 R13_und and R14_und,
  28 and 29 R13_irq and R14_irq. -/
  regs : Vector Word 30
  /-- R24: R15, the address of the instruction being executed. -/
  pc : Word
  /-- R30, R31. -/
  cpsr : Word
  /-- R34: SPSR_svc, SPSR_abt, SPSR_und, SPSR_irq, SPSR_fiq, in this order. -/
  spsrs : Vector Word 5
  /-- R38. -/
  mem : Memory
  /-- R71: the word-aligned addresses that the run has stored to, strictly rising. -/
  stored : List Nat
  /-- R39 (a), R268: the instruction executed last was an STM (2) whose condition passed. -/
  afterStm2 : Bool
  /-- R37: the coprocessors p0 to p15; `none` is absent. -/
  coprocs : Vector (Option Coprocessor) 16
  /-- R238: the samples of the platform's inputs for the coming steps, the next one first; after the last one, nothing is
  asserted. Log entry 15. -/
  inputs : List InputSample
  /-- R7, R36: the parameters of the run. No step changes them. -/
  config : MachineConfig
  /-- The model's own: how many free values have been drawn. Log entry 16. -/
  freeCount : Nat
  deriving DecidableEq, Repr

/-- Why the machine stops where the manual calls the behaviour UNPREDICTABLE and gives it no effect (R15, decision D10),
or where a byte is read that holds no value. All of them are safe: the hardware goes on in some way that no claim can then
be about. -/
inductive Fault where
  /-- R15 in a register field that may not hold it: R143 (SMULL, UMLAL), R106 (SUB, TEQ, TST), R113 (Rm of a store), R175
  (Rd of STRB), R207 (SWP, SWPB). Safe. -/
  | r15Operand
  /-- R15 as a base register where it may not be: R113, R121, R122, R163. Safe. -/
  | r15Base
  /-- Two fields name one register where they may not: R143, R208, R113. Safe. -/
  | operandRestriction
  /-- STM with an empty register list: R160, R161. Safe. -/
  | emptyRegisterList
  /-- STM (1) with W = 1 and its base register in the list but not lowest: R160, R162. Safe. -/
  | baseInListNotLowest
  /-- STM (2) with W = 1: R167. Safe. -/
  | stm2Writeback
  /-- STM (2) in User or System mode: R167. Safe. -/
  | stmUserRegsInUserOrSystem
  /-- STR or STRB with writeback and Rd = Rn: R174, R178. Safe. -/
  | rdEqualsRnWriteback
  /-- STRT with Rd = Rn: R174. Safe. -/
  | rdEqualsRn
  /-- SUBS to R15 in User or System mode: R185. Safe. -/
  | noSPSR
  /-- A non-zero SBZ field, of SWP, SWPB, TEQ or TST: R125. Safe. -/
  | sbz
  /-- A write to R15 of an address that is not word aligned: R28; a step at such an address: R60. Safe. -/
  | unalignedPC
  /-- An exception return that would load a mode number that is no mode of the version: R35, R245; a step in such a state.
  Safe. -/
  | badMode
  /-- A multi-word store or sequential execution that crosses 0xFFFFFFFF: R29. Safe. -/
  | addressWrap
  /-- Condition field 0b1111 before architecture version 5: R90. Safe. -/
  | condNV
  /-- An instruction that accesses banked registers directly after an STM (2): R268. Safe. -/
  | bankedAfterStm2
  /-- A read or fetch of a byte of memory that holds no value: R41. Safe. -/
  | unwrittenRead
  deriving DecidableEq, Repr

/-- Why the model gives a case no meaning (R6). All of them are safe. -/
inductive Refusal where
  /-- An instruction of the opcode table that has no meaning yet; only `exec` raises it. Safe. -/
  | notModelled (mnemonic : String)
  /-- A word outside the fifteen encodings: R132; or an instruction that the architecture version lacks: R2. Safe. -/
  | notInSpec (why : Reject)
  /-- A state with CPSR[5] = 1: R35, decision D12. Safe. -/
  | thumbState
  /-- A fetch of a word that the run has stored to: R71, decision D16. Safe. -/
  | fetchAfterStore
  deriving DecidableEq, Repr

/-- The outcome of a step or of a meaning. -/
abbrev Result := Host.Outcome State Fault Refusal

/-- R40, R260: the machine after reset under given parameters and coprocessors: Supervisor mode, ARM state, FIQ and IRQ
disabled, R15 at the Reset vector. The registers, flags and SPSRs that the spec leaves unspecified are zero (log entries 2
to 4) and no byte of memory holds a value (log entry 5). -/
def State.resetWith (config : MachineConfig) (coprocs : Vector (Option Coprocessor) 16) : State :=
  { regs := Vector.replicate 30 0#32
    pc := if config.highVectors then 0xFFFF0000#32 else 0x00000000#32
    cpsr := 0x000000D3#32
    spsrs := Vector.replicate 5 0#32
    mem := []
    stored := []
    afterStm2 := false
    coprocs := coprocs
    inputs := []
    config := config
    freeCount := 0 }

/-- The machine right after reset, with the defaults of R7: every coprocessor absent, no input ever asserted. -/
def State.reset : State := State.resetWith MachineConfig.default (Vector.replicate 16 none)

end Sys2Proof.Machine
end

