-- ==== Sys2Proof/Machine/Flags.lean ====
section
/-!
DEFINITION. Status register words and flags: the fields of the CPSR (spec/10_state.md R31), the arithmetic helpers of
spec/00_scope.md R13, the flag results of R33, and the conditions (spec/30_encoding.md R88, R89).
-/

namespace Sys2Proof.Machine

/-! ## Arithmetic helpers -/

/-- R13: `CarryFrom(a + b)`. -/
def carryFrom (a b : Word) : Bool := decide (a.toNat + b.toNat > 2 ^ 32 - 1)

/-- R13: `BorrowFrom(a - b)`. -/
def borrowFrom (a b : Word) : Bool := decide (a.toNat < b.toNat)

/-- R13: `OverflowFrom(a - b)`. -/
def overflowFromSub (a b : Word) : Bool :=
  decide (a.toInt - b.toInt < -2 ^ 31 ∨ a.toInt - b.toInt > 2 ^ 31 - 1)

/-- R13: `OverflowFrom(a + b)`. No in-scope instruction uses it. -/
def overflowFromAdd (a b : Word) : Bool :=
  decide (a.toInt + b.toInt < -2 ^ 31 ∨ a.toInt + b.toInt > 2 ^ 31 - 1)

/-! ## Fields of a status register word (R31) -/

/-- R31: bit 31. -/
def psrN (p : Word) : Bool := p.getLsbD 31

/-- R31: bit 30. -/
def psrZ (p : Word) : Bool := p.getLsbD 30

/-- R31: bit 29. -/
def psrC (p : Word) : Bool := p.getLsbD 29

/-- R31: bit 28. -/
def psrV (p : Word) : Bool := p.getLsbD 28

/-- R31: bit 7, 1 disables IRQ. -/
def psrI (p : Word) : Bool := p.getLsbD 7

/-- R31: bit 6, 1 disables FIQ. -/
def psrF (p : Word) : Bool := p.getLsbD 6

/-- R31: bit 5, 1 is Thumb state. -/
def psrT (p : Word) : Bool := p.getLsbD 5

/-- R31: bits [4:0], the mode number. -/
def psrM (p : Word) : BitVec 5 := p.extractLsb' 0 5

/-- R31, R33: a status word with its four flags replaced and every other bit as it was. -/
def psrWithFlags (p : Word) (n z c v : Bool) : Word :=
  (BitVec.ofBool n ++ BitVec.ofBool z ++ BitVec.ofBool c ++ BitVec.ofBool v ++ p.extractLsb' 0 28).cast (by decide)

/-- R222: the CPSR that an exception entry makes: the mode number, ARM state, bit 6 set for FIQ alone, bit 7 set, and
every other bit as it was. -/
def psrOnEntry (p : Word) (mode : BitVec 5) (setsF : Bool) : Word :=
  (p.extractLsb' 8 24 ++ 1#1 ++ BitVec.ofBool (setsF || psrF p) ++ 0#1 ++ mode).cast (by decide)

/-! ## Flag results -/

/-- R185, R189: the flags of SUBS on operands `a` and `b`: C is NOT borrow. -/
def subFlags (p a b : Word) : Word :=
  psrWithFlags p (a - b).msb (decide (a - b = 0#32)) (!borrowFrom a b) (overflowFromSub a b)

/-- R186, R187: the flags of TEQ and TST: C is the shifter's carry, V stays. -/
def logicFlags (p aluOut : Word) (shifterCarry : Bool) : Word :=
  psrWithFlags p aluOut.msb (decide (aluOut = 0#32)) shifterCarry (psrV p)

/-- R140, R141, R145: the flags of a long multiply with S = 1: N and Z from the 64-bit result; C and V as given, which is
their old values from version 5 on. -/
def longFlags (p : Word) (r : BitVec 64) (c v : Bool) : Word :=
  psrWithFlags p r.msb (decide (r = 0#64)) c v

/-! ## Conditions -/

/-- R88: when a condition passes on the flags of a status word. -/
def condHolds (cond : Cond) (p : Word) : Bool :=
  match cond with
  | .eq => psrZ p
  | .ne => !psrZ p
  | .cs => psrC p
  | .cc => !psrC p
  | .mi => psrN p
  | .pl => !psrN p
  | .vs => psrV p
  | .vc => !psrV p
  | .hi => psrC p && !psrZ p
  | .ls => !psrC p || psrZ p
  | .ge => psrN p == psrV p
  | .lt => psrN p != psrV p
  | .gt => !psrZ p && (psrN p == psrV p)
  | .le => psrZ p || (psrN p != psrV p)
  | .al => true

/-- R89: `CondPassed`, on the flags as they are when the instruction starts. -/
def State.condPassed (s : State) (cond : Cond) : Bool := condHolds cond s.cpsr

end Sys2Proof.Machine
end

