-- ==== Sys2Proof/Machine/Ops.lean ====
section
/-!
DEFINITION. The operations that the meanings share: modes and banked registers (spec/10_state.md R20 to R28), taking an
exception and returning from one (spec/60_exceptions.md R221, R222, R235), bytes and words of memory with their aborts
(spec/20_memory.md R50 to R58), and the stores of one and of several words (R61, spec/60_exceptions.md R232, R233).
-/

namespace Sys2Proof.Machine

/-! ## Modes -/

/-- R245: the mode that a mode number names in the newest architecture version. -/
def Mode.ofBits (b : BitVec 5) : Option Mode :=
  if b = 0b10000#5 then some .user
  else if b = 0b10001#5 then some .fiq
  else if b = 0b10010#5 then some .irq
  else if b = 0b10011#5 then some .supervisor
  else if b = 0b10111#5 then some .abort
  else if b = 0b11011#5 then some .undefined
  else if b = 0b11111#5 then some .system
  else none

/-- R245: the number of a mode. -/
def Mode.bits : Mode → BitVec 5
  | .user => 0b10000#5
  | .fiq => 0b10001#5
  | .irq => 0b10010#5
  | .supervisor => 0b10011#5
  | .abort => 0b10111#5
  | .undefined => 0b11011#5
  | .system => 0b11111#5

/-- R245: the mode that a mode number names in an architecture version: System mode is one from version 4 on. -/
def Mode.ofBitsIn (v : ArchVersion) (b : BitVec 5) : Option Mode :=
  if b = 0b11111#5 ∧ v.version < 4 then none else Mode.ofBits b

/-- R21: the current mode, from `cpsr[4:0]`; none where the number is no mode, which no step leads to. -/
def State.mode (s : State) : Option Mode := Mode.ofBitsIn s.config.arch (psrM s.cpsr)

/-- R246, R18: User mode is the one that is not privileged. -/
def State.privilege (s : State) : Privilege :=
  if s.mode = some .user then .user else .privileged

/-! ## General registers -/

/-- R21: the physical register that a number below 15 names in a mode. A number that is no mode has the User bank. -/
def physIndex (mode : Option Mode) (r : RegNum) : Fin 30 :=
  let n := r.toNat
  Fin.ofNat 30 <|
    match mode with
    | some .fiq => if n < 8 then n else n + 7
    | some .supervisor => if n < 13 then n else n + 9
    | some .abort => if n < 13 then n else n + 11
    | some .undefined => if n < 13 then n else n + 13
    | some .irq => if n < 13 then n else n + 15
    | some .user => n
    | some .system => n
    | none => n

/-- R11: `x[r]`, the general register of the current mode, raw; R15 is the program counter. -/
def State.reg (s : State) (r : RegNum) : Word :=
  if r = 15#4 then s.pc else s.regs[(physIndex s.mode r).val]

/-- R11: `x[r] <- v` in the current mode. Where R15 may be the destination the meanings branch instead (R28). -/
def State.setReg (s : State) (r : RegNum) (v : Word) : State :=
  if r = 15#4 then { s with pc := v } else { s with regs := s.regs.set (physIndex s.mode r).val v }

/-- R11: `x_usr[r]`, the User mode copy of a register. -/
def State.userReg (s : State) (r : RegNum) : Word :=
  if r = 15#4 then s.pc else s.regs[(physIndex (some .user) r).val]

/-- R26: a register read as an operand; R15 reads as the address of the instruction plus 8. -/
def State.opnd (s : State) (r : RegNum) : Word :=
  if r = 15#4 then s.pc + 8#32 else s.reg r

/-- R27: the two values that the offset of a stored R15 may have. -/
def pcStoreOffsetWord : Word :=
  match Config.pcStoreOffset with
  | .eight => 8#32
  | .twelve => 12#32

/-- R27: a register read as store data. -/
def State.stval (s : State) (r : RegNum) : Word :=
  if r = 15#4 then s.pc + pcStoreOffsetWord else s.reg r

/-- R161: a User mode register read as store data; R15 is not banked (R163). -/
def State.userStval (s : State) (r : RegNum) : Word :=
  if r = 15#4 then s.pc + pcStoreOffsetWord else s.userReg r

/-! ## The program counter -/

/-- R28, R54, R58: the low two bits of an address are not 0b00. -/
def misaligned (a : Word) : Bool := !decide (a.extractLsb' 0 2 = 0b00#2)

/-- R25: go on at the next instruction. R29: running past 0xFFFFFFFF is UNPREDICTABLE. -/
def State.advance (s : State) : Result :=
  if s.pc.toNat + 4 < 2 ^ 32 then .next { s with pc := s.pc + 4#32 } else .fault .addressWrap

/-- R12: every instruction with a condition runs inside this. -/
def whenPassed (cond : Cond) (s : State) (body : Result) : Result :=
  if s.condPassed cond then body else s.advance

/-- R28, R193 (decision D25): a branch to `v`, a fault where `v` is not word aligned, in every version (log entry 22). -/
def State.branchTo (s : State) (v : Word) : Result :=
  if misaligned v then .fault .unalignedPC else .next { s with pc := v }

/-! ## Exceptions -/

/-- R221: the vector's offset. -/
def Exc.vectorOffset : Exc → Word
  | .undefinedInstruction => 0x04#32
  | .softwareInterrupt => 0x08#32
  | .prefetchAbort => 0x0C#32
  | .dataAbort => 0x10#32
  | .irq => 0x18#32
  | .fiq => 0x1C#32

/-- R221: the mode entered. -/
def Exc.mode : Exc → Mode
  | .undefinedInstruction => .undefined
  | .softwareInterrupt => .supervisor
  | .prefetchAbort => .abort
  | .dataAbort => .abort
  | .irq => .irq
  | .fiq => .fiq

/-- R221: what R14 of that mode receives, as an offset from the address of the instruction concerned. -/
def Exc.linkOffset : Exc → Word
  | .undefinedInstruction => 4#32
  | .softwareInterrupt => 4#32
  | .prefetchAbort => 4#32
  | .dataAbort => 8#32
  | .irq => 4#32
  | .fiq => 4#32

/-- R221: only FIQ (and Reset) sets the F bit. -/
def Exc.setsF : Exc → Bool
  | .fiq => true
  | _ => false

/-- R34, R245: the place of a mode's SPSR among the five; User and System mode have none. -/
def Mode.spsrIndex : Mode → Option (Fin 5)
  | .supervisor => some 0
  | .abort => some 1
  | .undefined => some 2
  | .irq => some 3
  | .fiq => some 4
  | .user => none
  | .system => none

/-- R34: `spsr`, the SPSR of the current mode. -/
def State.spsr (s : State) : Option Word :=
  match s.mode.bind Mode.spsrIndex with
  | some i => some s.spsrs[i.val]
  | none => none

/-- R34: write the SPSR of a mode; a mode that has none is left as it is. -/
def State.setSpsrOf (s : State) (m : Mode) (v : Word) : State :=
  match m.spsrIndex with
  | some i => { s with spsrs := s.spsrs.set i.val v }
  | none => s

/-- R221: the base of the vector table. -/
def State.vectorBase (s : State) : Word :=
  if s.config.highVectors then 0xFFFF0000#32 else 0x00000000#32

/-- R222: take an exception, as one step: R14 and the SPSR of the mode entered receive the link value and the old CPSR,
the CPSR changes its mode, T, F and I bits, and R15 goes to the vector. An exception between an STM (2) and the next
instruction ends the restriction of R268 (log entry 23). -/
def State.raise (s : State) (e : Exc) : State :=
  { s.setSpsrOf e.mode s.cpsr with
    regs := s.regs.set (physIndex (some e.mode) 14#4).val (s.pc + e.linkOffset)
    cpsr := psrOnEntry s.cpsr e.mode.bits e.setsF
    pc := s.vectorBase + e.vectorOffset
    afterStm2 := false }

/-- R185, R188, R235: return from an exception to `target`: R15 and the CPSR are written in one step, the CPSR from the
SPSR of the current mode. The tests stand in the order of R185. -/
def State.exceptionReturn (s : State) (target : Word) : Result :=
  match s.spsr with
  | none => .fault .noSPSR
  | some saved =>
    if psrT saved then .refused .thumbState
    else if Mode.ofBitsIn s.config.arch (psrM saved) = none then .fault .badMode
    else if misaligned target then .fault .unalignedPC
    else .next { s with cpsr := saved, pc := target }

/-! ## Bytes and words of memory -/

/-- R38, R41: the byte at an address, or none where it holds no value. -/
def Memory.read : Memory → Nat → Option Byte
  | [], _ => none
  | (k, b) :: rest, a => if k = a then some b else Memory.read rest a

/-- R38: memory with one byte written, in the same canonical form. -/
def Memory.write : Memory → Nat → Byte → Memory
  | [], a, b => [(a, b)]
  | (k, c) :: rest, a, b =>
    if a < k then (a, b) :: (k, c) :: rest
    else if a = k then (a, b) :: rest
    else (k, c) :: Memory.write rest a b

/-- The addresses rise strictly from `low` on and stay inside the address space (R50). -/
def Memory.risingFrom : Nat → Memory → Bool
  | _, [] => true
  | low, (k, _) :: rest => decide (low ≤ k) && decide (k < 2 ^ 32) && Memory.risingFrom (k + 1) rest

/-- The canonical form: strictly rising addresses inside the address space. An unlisted address holds no value, so that no
entry can be equal to what it would read as. -/
def Memory.wf (m : Memory) : Bool := Memory.risingFrom 0 m

/-- R53: the word whose first byte stands at `a`, or none where one of its bytes holds no value. -/
def Memory.readWord (m : Memory) (bigEndian : Bool) (a : Nat) : Option Word :=
  match m.read a, m.read (a + 1), m.read (a + 2), m.read (a + 3) with
  | some b0, some b1, some b2, some b3 => some (wordOfBytes bigEndian b0 b1 b2 b3)
  | _, _, _, _ => none

/-- R53: memory with the four bytes of a word written, the first at `a`. -/
def Memory.writeWord (m : Memory) (bigEndian : Bool) (a : Nat) (w : Word) : Memory :=
  (((m.write a (byteOfWord bigEndian w 0)).write (a + 1) (byteOfWord bigEndian w 1)).write (a + 2)
    (byteOfWord bigEndian w 2)).write (a + 3) (byteOfWord bigEndian w 3)

/-- R54: an address with its low two bits ignored. -/
def alignWord (a : Word) : Word := a &&& 0xFFFFFFFC#32

/-- A number put into a strictly rising list, once. -/
def insertRising (n : Nat) : List Nat → List Nat
  | [] => [n]
  | k :: rest => if n < k then n :: k :: rest else if n = k then k :: rest else k :: insertRising n rest

/-- R56, R71: one byte stored at `a`; the word it lies in counts as stored to. -/
def State.putByte (s : State) (a : Word) (b : Byte) : State :=
  { s with mem := s.mem.write a.toNat b, stored := insertRising (alignWord a).toNat s.stored }

/-- R54, R56, R71: one word stored at the word-aligned part of `a`. -/
def State.putWord (s : State) (a : Word) (w : Word) : State :=
  { s with
    mem := s.mem.writeWord s.config.bigEndian (alignWord a).toNat w
    stored := insertRising (alignWord a).toNat s.stored }

/-! ## Accesses and their aborts -/

/-- R8, R66: a row of the memory system's answers refuses this access. -/
def abortRuleCovers (rule : AbortRule) (pr : Privilege) (sz : AccessSize) (kind : AccessKind) (a : Nat) : Bool :=
  decide (rule.first ≤ a) && decide (a ≤ rule.last) && rule.sizes.contains sz && rule.kinds.contains kind &&
    rule.privileges.contains pr

/-- R55 (3): the memory system answers `abort`. -/
def State.memSysAborts (s : State) (pr : Privilege) (sz : AccessSize) (kind : AccessKind) (a : Word) : Bool :=
  s.config.memSys.any fun rule => abortRuleCovers rule pr sz kind a.toNat

/-- R55 (1) to (3), R58: whether a data access aborts, and why: the alignment check for a word access first, then the
memory system, which is asked with the low two bits of a word's address at zero. -/
def State.accessAbort (s : State) (pr : Privilege) (sz : AccessSize) (kind : AccessKind) (addr : Word) :
    Option AbortKind :=
  match sz with
  | .word =>
    if s.config.alignCheck && misaligned addr then some .alignment
    else if s.memSysAborts pr .word kind (alignWord addr) then some .external
    else none
  | .byte => if s.memSysAborts pr .byte kind addr then some .external else none

/-- What a data read answers. -/
inductive ReadResult where
  | value (v : Word)
  | aborted (kind : AbortKind)
  | unwritten
  deriving DecidableEq, Repr

/-- R55: `MemRead`. A byte is given with zeros above it. -/
def State.memRead (s : State) (pr : Privilege) (sz : AccessSize) (addr : Word) : ReadResult :=
  match s.accessAbort pr sz .read addr with
  | some kind => .aborted kind
  | none =>
    match sz with
    | .word =>
      match s.mem.readWord s.config.bigEndian (alignWord addr).toNat with
      | some w => .value w
      | none => .unwritten
    | .byte =>
      match s.mem.read addr.toNat with
      | some b => .value (b.setWidth 32)
      | none => .unwritten

/-- What a data write answers. -/
inductive WriteResult where
  | done (s : State)
  | aborted (kind : AbortKind)
  deriving DecidableEq, Repr

/-- R56, R57: `MemWrite` and `MemWriteUser`, told apart by the privilege. A byte write stores the low byte of `v`. -/
def State.memWrite (s : State) (pr : Privilege) (sz : AccessSize) (addr v : Word) : WriteResult :=
  match s.accessAbort pr sz .write addr with
  | some kind => .aborted kind
  | none =>
    match sz with
    | .word => .done (s.putWord addr v)
    | .byte => .done (s.putByte addr (v.extractLsb' 0 8))

/-! ## Stores with base register writeback -/

/-- R112, R117: the base register written back, or left alone. -/
def State.writeback (s : State) : Option (RegNum × Word) → State
  | some (rn, v) => s.setReg rn v
  | none => s

/-- R232: the base register after a data-aborted instruction. -/
def State.baseAfterAbort (s : State) (wb : Option (RegNum × Word)) : State :=
  match Config.abortModel with
  | .baseRestored => s
  | .baseUpdated => s.writeback wb

/-- R170 to R172, R177, R267: store one word or byte, then write the base register back and go on; or take a Data Abort. -/
def State.storeOne (s : State) (pr : Privilege) (sz : AccessSize) (addr v : Word) (wb : Option (RegNum × Word)) :
    Result :=
  match s.memWrite pr sz addr v with
  | .aborted _ => .next ((s.baseAfterAbort wb).raise .dataAbort)
  | .done s' => (s'.writeback wb).advance

/-- The words of a block at rising addresses from `a` on. -/
def State.putBlock (s : State) (a : Word) : List Word → State
  | [] => s
  | w :: ws => (s.putWord a w).putBlock (a + 4#32) ws

/-- R55 (3): the memory system refuses the write of one of `n` words from `a` on. -/
def State.blockAborts (s : State) (a : Word) (n : Nat) : Bool :=
  (List.range n).any fun k => s.memSysAborts s.privilege .word .write (a + BitVec.ofNat 32 (4 * k))

/-- R233: what one word of an aborted block holds afterwards: itself where the memory system refuses it, else a free
value. -/
def State.putFreeWord (s : State) (a : Word) : State :=
  if s.memSysAborts s.privilege .word .write a then s
  else { s.putWord a (Config.freeWord s.freeCount) with freeCount := s.freeCount + 1 }

/-- R233: memory after a data-aborted store of `n` words from `a` on. -/
def State.putFreeBlock (s : State) (a : Word) : Nat → State
  | 0 => s
  | n + 1 => (s.putFreeWord a).putFreeBlock (a + 4#32) n

/-- What a store of several words answers. -/
inductive BlockResult where
  | wraps
  | aborted (kind : AbortKind) (s : State)
  | done (s : State)
  deriving DecidableEq, Repr

/-- R150, R160, R161: store the words of an STM or STC from `start` on, with the tests in the order of these rules: the
alignment check (R58) before any byte, the top of the address space (R29), then the memory system. -/
def State.storeBlock (s : State) (start : Word) (ws : List Word) : BlockResult :=
  if s.config.alignCheck && misaligned start then .aborted .alignment s
  else if (alignWord start).toNat + 4 * ws.length > 2 ^ 32 then .wraps
  else if s.blockAborts (alignWord start) ws.length then
    .aborted .external (s.putFreeBlock (alignWord start) ws.length)
  else .done (s.putBlock (alignWord start) ws)

/-! ## Free values of flags -/

/-- R145: the C and V flags after a long multiply with S = 1: their old values from version 5 on, before it two free
values. -/
def State.longMultiplyCV (s : State) : (Bool × Bool) × State :=
  if 5 ≤ s.config.arch.version then ((psrC s.cpsr, psrV s.cpsr), s)
  else ((Config.freeFlag s.freeCount, Config.freeFlag (s.freeCount + 1)), { s with freeCount := s.freeCount + 2 })

end Sys2Proof.Machine
end

