-- ==== Sys2Proof/Machine/Operands.lean ====
section
/-!
DEFINITION. Operand forms: addressing modes 1, 2, 4 and 5 (spec/30_encoding.md R95 to R123), whole: values, carries,
addresses, written-back values, and the register restrictions of each mode.
-/

namespace Sys2Proof.Machine

/-! ## Addressing mode 1: data-processing operands -/

/-- R98 to R105: a value shifted by an amount, and the shifter's carry; `c` is the C flag. The immediate forms are the
register forms at the amount that the encoding stands for (R98, R100, R102, R104). -/
def shiftWithCarry (ty : ShiftType) (v : Word) (amount : Nat) (c : Bool) : Word × Bool :=
  match ty with
  | .lsl =>
    if amount = 0 then (v, c)
    else if amount < 32 then (v <<< amount, v.getLsbD (32 - amount))
    else if amount = 32 then (0#32, v.getLsbD 0)
    else (0#32, false)
  | .lsr =>
    if amount = 0 then (v, c)
    else if amount < 32 then (v >>> amount, v.getLsbD (amount - 1))
    else if amount = 32 then (0#32, v.getLsbD 31)
    else (0#32, false)
  | .asr =>
    if amount = 0 then (v, c)
    else if amount < 32 then (v.sshiftRight amount, v.getLsbD (amount - 1))
    else (if v.getLsbD 31 then 0xFFFFFFFF#32 else 0#32, v.getLsbD 31)
  | .ror =>
    if amount = 0 then (v, c)
    else if amount % 32 = 0 then (v, v.getLsbD 31)
    else (v.rotateRight (amount % 32), v.getLsbD (amount % 32 - 1))

/-- R107: rotate right with extend. -/
def rotateWithExtend (v : Word) (c : Bool) : Word × Bool :=
  ((BitVec.ofBool c ++ v.extractLsb' 1 31).cast (by decide), v.getLsbD 0)

/-- R96: the immediate and its carry. -/
def rotatedImmediate (rotateImm : BitVec 4) (immed8 : BitVec 8) (c : Bool) : Word × Bool :=
  let v := (immed8.setWidth 32).rotateRight (2 * rotateImm.toNat)
  (v, if rotateImm = 0#4 then c else v.getLsbD 31)

/-- R95: `shifter_operand` and `shifter_carry_out`. In the register-shift forms only bits [7:0] of Rs count (R106). -/
def State.shifterOperand (s : State) : Operand1 → Word × Bool
  | .imm rotateImm immed8 => rotatedImmediate rotateImm immed8 (psrC s.cpsr)
  | .immShift rm ty amount => shiftWithCarry ty (s.opnd rm) amount (psrC s.cpsr)
  | .rrx rm => rotateWithExtend (s.opnd rm) (psrC s.cpsr)
  | .regShift rm ty rs => shiftWithCarry ty (s.reg rm) ((s.reg rs).extractLsb' 0 8).toNat (psrC s.cpsr)

/-- R106: a register-shift form may name R15 neither itself nor in the other register fields of its instruction. -/
def operand1NamesR15 (operand : Operand1) (others : List RegNum) : Bool :=
  match operand with
  | .regShift rm _ rs => (rm :: rs :: others).contains 15#4
  | .imm _ _ => false
  | .immShift _ _ _ => false
  | .rrx _ => false

/-- The general registers that a shifter operand names. -/
def operand1Regs : Operand1 → List RegNum
  | .imm _ _ => []
  | .immShift rm _ _ => [rm]
  | .rrx rm => [rm]
  | .regShift rm _ rs => [rm, rs]

/-! ## Addressing mode 2: store word or byte -/

/-- R109 to R111: the offset. No carry comes of it. -/
def State.offset2 (s : State) : Offset2 → Word
  | .imm offset12 => offset12.setWidth 32
  | .scaled rm ty amount => (shiftWithCarry ty (s.reg rm) amount (psrC s.cpsr)).1
  | .rrx rm => (rotateWithExtend (s.reg rm) (psrC s.cpsr)).1

/-- The index register of an offset, if it has one. -/
def offset2Rm : Offset2 → Option RegNum
  | .imm _ => none
  | .scaled rm _ _ => some rm
  | .rrx rm => some rm

/-- R112, R119: a base moved up or down by an offset, modulo 2^32. -/
def moveBase (up : Bool) (base offset : Word) : Word := if up then base + offset else base - offset

/-- R112: `idx`. -/
def State.idx2 (s : State) (up : Bool) (rn : RegNum) (offset : Offset2) : Word :=
  moveBase up (s.opnd rn) (s.offset2 offset)

/-- R112: whether an index kind writes the base register back. -/
def writesBack2 : Index2 → Bool
  | .offset => false
  | .preIndexed => true
  | .postIndexed => true

/-- R112: the address of the store. -/
def State.address2 (s : State) (index : Index2) (up : Bool) (rn : RegNum) (offset : Offset2) : Word :=
  match index with
  | .offset => s.idx2 up rn offset
  | .preIndexed => s.idx2 up rn offset
  | .postIndexed => s.opnd rn

/-- R112: the base register's new value, if it is written back. -/
def State.writeback2 (s : State) (index : Index2) (up : Bool) (rn : RegNum) (offset : Offset2) :
    Option (RegNum × Word) :=
  if writesBack2 index then some (rn, s.idx2 up rn offset) else none

/-- R113: the register restrictions of addressing mode 2, in the order of that rule. -/
def fault2 (writesBack : Bool) (rn : RegNum) (offset : Offset2) : Option Fault :=
  if writesBack && rn == 15#4 then some .r15Base
  else if offset2Rm offset == some 15#4 then some .r15Operand
  else if writesBack && offset2Rm offset == some rn then some .operandRestriction
  else none

/-! ## Addressing mode 4: store multiple -/

/-- R115: the registers of a register list, lowest number first. -/
def listRegs (list : BitVec 16) : List RegNum :=
  ((List.range 16).filter fun i => list.getLsbD i).map (BitVec.ofNat 4)

/-- R115: `4n` for a list of `n` registers. -/
def listBytes (list : BitVec 16) : Word := BitVec.ofNat 32 (4 * (listRegs list).length)

/-- R116: `start_address`. -/
def start4 (mode : Mode4) (base : Word) (list : BitVec 16) : Word :=
  match mode with
  | .ia => base
  | .ib => base + 4#32
  | .da => base - listBytes list + 4#32
  | .db => base - listBytes list

/-- R116, R117: the value that is written back. -/
def final4 (mode : Mode4) (base : Word) (list : BitVec 16) : Word :=
  match mode with
  | .ia => base + listBytes list
  | .ib => base + listBytes list
  | .da => base - listBytes list
  | .db => base - listBytes list

/-- R162: the base register is in the list and is not its lowest-numbered register. -/
def baseNotLowest (rn : RegNum) (list : BitVec 16) : Bool :=
  list.getLsbD rn.toNat && (List.range rn.toNat).any fun j => list.getLsbD j

/-! ## Addressing mode 5: store coprocessor -/

/-- R119, R87: the offset field in bytes. -/
def offset5 (offset8 : BitVec 8) : Word := offset8.setWidth 32 * 4#32

/-- R120 to R123: `start_address` and the base register's new value, if it is written back. -/
def State.mode5 (s : State) (index : Index5) (rn : RegNum) (offset8 : BitVec 8) : Word × Option (RegNum × Word) :=
  match index with
  | .offset up => (moveBase up (s.opnd rn) (offset5 offset8), none)
  | .preIndexed up =>
    (moveBase up (s.opnd rn) (offset5 offset8), some (rn, moveBase up (s.opnd rn) (offset5 offset8)))
  | .postIndexed up => (s.opnd rn, some (rn, moveBase up (s.opnd rn) (offset5 offset8)))
  | .unindexed => (s.opnd rn, none)

/-- R121, R122: whether a form writes the base register back. -/
def writesBack5 : Index5 → Bool
  | .offset _ => false
  | .preIndexed _ => true
  | .postIndexed _ => true
  | .unindexed => false

end Sys2Proof.Machine
end

