-- ==== Sys2Proof/Machine/CoprocessorStore.lean ====
section
/-!
DEFINITION. STC and STC2 (spec/41_coprocessor_store.md R150 to R157): the coprocessor is asked first, then the words it
supplies are stored.
-/

namespace Sys2Proof.Machine

/-- R8: the row of a coprocessor's behaviour that fits an instruction word in the coprocessor's state. -/
def Coprocessor.rowFor (device : Coprocessor) (word : Word) : Option CoprocRow :=
  device.rows.find? fun row => row.state == device.state && (word &&& row.mask) == row.value

/-- R150, R152, R153: ask the coprocessor that cp_num names; none where it is absent or rejects the instruction, else the
words it supplies, at least one, and its next state. -/
def State.askCoprocessor (s : State) (cpNum : BitVec 4) (word : Word) : Option (List Word × Nat) :=
  match s.coprocs[cpNum.toNat] with
  | none => none
  | some device => (device.rowFor word).map fun row => (row.first :: row.rest, row.next)

/-- R150: the coprocessor's own state becomes `next`. -/
def State.setCoprocState (s : State) (cpNum : BitVec 4) (next : Nat) : State :=
  match s.coprocs[cpNum.toNat] with
  | none => s
  | some device => { s with coprocs := s.coprocs.set cpNum.toNat (some { device with state := next }) }

/-- R234: the coprocessor's state after a data-aborted STC or STC2. -/
def State.coprocAfterAbort (s : State) (cpNum : BitVec 4) (next : Nat) : State :=
  match Config.coprocAfterAbort with
  | .old => s
  | .new => s.setCoprocState cpNum next

/-- R150, R156, R157: the operation of STC and STC2 on the instruction word that the coprocessor is handed (R154), with the
tests in the order of R150: the coprocessor is asked first. -/
def State.storeCoprocessor (s : State) (word : Word) (index : Index5) (rn : RegNum) (cpNum : BitVec 4)
    (offset8 : BitVec 8) : Result :=
  match s.askCoprocessor cpNum word with
  | none => .next (s.raise .undefinedInstruction)
  | some (words, next) =>
    if writesBack5 index && rn == 15#4 then .fault .r15Base
    else
      let (start, wb) := s.mode5 index rn offset8
      match s.storeBlock start words with
      | .wraps => .fault .addressWrap
      | .aborted _ s' => .next (((s'.coprocAfterAbort cpNum next).baseAfterAbort wb).raise .dataAbort)
      | .done s' => ((s'.setCoprocState cpNum next).writeback wb).advance

/-- STC (R150). -/
def execStc (cond : Cond) (index : Index5) (long : Bool) (rn : RegNum) (crd cpNum : BitVec 4) (offset8 : BitVec 8)
    (s : State) : Result :=
  whenPassed cond s <|
    s.storeCoprocessor (encode (.stc cond index long rn crd cpNum offset8)) index rn cpNum offset8

/-- STC2 (R151): always executes; before version 5 the word is not STC2 (R90). -/
def execStc2 (index : Index5) (long : Bool) (rn : RegNum) (crd cpNum : BitVec 4) (offset8 : BitVec 8) (s : State) :
    Result :=
  if s.config.arch.version < 5 then .fault .condNV
  else s.storeCoprocessor (encode (.stc2 index long rn crd cpNum offset8)) index rn cpNum offset8

end Sys2Proof.Machine
end

