-- ==== Sys2Proof/Machine/DataProcessing.lean ====
section
/-!
DEFINITION. SUB, TEQ and TST (spec/44_data_processing.md R185 to R193).
-/

namespace Sys2Proof.Machine

/-- SUB (R185): with Rd = R15 a branch (S = 0) or a return from an exception (S = 1, R188). -/
def execSub (cond : Cond) (setFlags : Bool) (rn rd : RegNum) (operand : Operand1) (s : State) : Result :=
  whenPassed cond s <|
    if operand1NamesR15 operand [rn, rd] then .fault .r15Operand
    else
      let a := s.opnd rn
      let b := (s.shifterOperand operand).1
      if rd = 15#4 then
        if setFlags then s.exceptionReturn (a - b) else s.branchTo (a - b)
      else
        let written := s.setReg rd (a - b)
        if setFlags then { written with cpsr := subFlags s.cpsr a b }.advance else written.advance

/-- R186, R187: TEQ and TST differ in how they combine the two values. -/
def State.logicTest (s : State) (cond : Cond) (rn : RegNum) (sbz : BitVec 4) (operand : Operand1) (aluOut : Word) :
    Result :=
  whenPassed cond s <|
    if sbz ≠ 0#4 then .fault .sbz
    else if operand1NamesR15 operand [rn] then .fault .r15Operand
    else { s with cpsr := logicFlags s.cpsr aluOut (s.shifterOperand operand).2 }.advance

/-- TEQ (R186). -/
def execTeq (cond : Cond) (rn : RegNum) (sbz : BitVec 4) (operand : Operand1) (s : State) : Result :=
  s.logicTest cond rn sbz operand (s.opnd rn ^^^ (s.shifterOperand operand).1)

/-- TST (R187). -/
def execTst (cond : Cond) (rn : RegNum) (sbz : BitVec 4) (operand : Operand1) (s : State) : Result :=
  s.logicTest cond rn sbz operand (s.opnd rn &&& (s.shifterOperand operand).1)

end Sys2Proof.Machine
end

