-- ==== Sys2Proof/Machine/Multiply.lean ====
section
/-!
DEFINITION. SMULL and UMLAL (spec/40_multiply_long.md R140 to R146).
-/

namespace Sys2Proof.Machine

/-- R143: R15 in one of the four register fields. -/
def longMultiplyNamesR15 (rdHi rdLo rs rm : RegNum) : Bool := [rdHi, rdLo, rm, rs].contains 15#4

/-- R143: RdHi, RdLo and Rm are not three distinct registers. -/
def longMultiplyOverlaps (rdHi rdLo rm : RegNum) : Bool := rdHi == rdLo || rdHi == rm || rdLo == rm

/-- R140, R141, R142: write a 64-bit result, all operands having been read, and with S = 1 the flags (R145). -/
def State.finishLongMultiply (s : State) (setFlags : Bool) (rdHi rdLo : RegNum) (r : BitVec 64) : Result :=
  let written := (s.setReg rdHi (r.extractLsb' 32 32)).setReg rdLo (r.extractLsb' 0 32)
  if setFlags then
    let ((c, v), drawn) := written.longMultiplyCV
    { drawn with cpsr := longFlags s.cpsr r c v }.advance
  else written.advance

/-- The tests of R143 around a long multiply whose result is `r`. -/
def State.longMultiply (s : State) (cond : Cond) (setFlags : Bool) (rdHi rdLo rs rm : RegNum) (r : BitVec 64) :
    Result :=
  whenPassed cond s <|
    if longMultiplyNamesR15 rdHi rdLo rs rm then .fault .r15Operand
    else if longMultiplyOverlaps rdHi rdLo rm then .fault .operandRestriction
    else s.finishLongMultiply setFlags rdHi rdLo r

/-- R140: the exact signed product of Rm and Rs. -/
def State.signedProduct (s : State) (rm rs : RegNum) : BitVec 64 :=
  (s.reg rm).signExtend 64 * (s.reg rs).signExtend 64

/-- R141, R146: the unsigned product of Rm and Rs added to the 64 bits that RdHi and RdLo hold, modulo 2^64. -/
def State.unsignedAccumulate (s : State) (rdHi rdLo rs rm : RegNum) : BitVec 64 :=
  (s.reg rm).setWidth 64 * (s.reg rs).setWidth 64 + (s.reg rdHi ++ s.reg rdLo).cast (by decide)

/-- SMULL (R140). -/
def execSmull (cond : Cond) (setFlags : Bool) (rdHi rdLo rs rm : RegNum) (s : State) : Result :=
  s.longMultiply cond setFlags rdHi rdLo rs rm (s.signedProduct rm rs)

/-- UMLAL (R141). -/
def execUmlal (cond : Cond) (setFlags : Bool) (rdHi rdLo rs rm : RegNum) (s : State) : Result :=
  s.longMultiply cond setFlags rdHi rdLo rs rm (s.unsignedAccumulate rdHi rdLo rs rm)

end Sys2Proof.Machine
end

