-- ==== Sys2Proof/Machine/SoftwareInterrupt.lean ====
section
/-!
DEFINITION. SWI (spec/45_software_interrupt.md R200 to R204).
-/

namespace Sys2Proof.Machine

/-- SWI (R200): take the Software Interrupt exception. The processor ignores the immediate (R201). -/
def execSwi (cond : Cond) (_immed24 : BitVec 24) (s : State) : Result :=
  whenPassed cond s <| .next (s.raise .softwareInterrupt)

end Sys2Proof.Machine
end

