-- ==== Sys2Proof/Machine/StoreMultiple.lean ====
section
/-!
DEFINITION. STM (1) and STM (2) (spec/42_store_multiple.md R160 to R168).
-/

namespace Sys2Proof.Machine

/-- R160, R162, R163: the words of STM (1), lowest register first; the base register's is its original value. -/
def State.multipleWords (s : State) (list : BitVec 16) : List Word := (listRegs list).map s.stval

/-- R161: the words of STM (2), lowest register first. -/
def State.userWords (s : State) (list : BitVec 16) : List Word := (listRegs list).map s.userStval

/-- R160: STM (1) after its register tests. -/
def State.storeMultiple (s : State) (mode : Mode4) (writeback : Bool) (rn : RegNum) (list : BitVec 16) : Result :=
  let wb := if writeback then some (rn, final4 mode (s.reg rn) list) else none
  match s.storeBlock (start4 mode (s.reg rn) list) (s.multipleWords list) with
  | .wraps => .fault .addressWrap
  | .aborted _ s' => .next ((s'.baseAfterAbort wb).raise .dataAbort)
  | .done s' => (s'.writeback wb).advance

/-- STM (1) (R160, R162). -/
def execStm1 (cond : Cond) (mode : Mode4) (writeback : Bool) (rn : RegNum) (list : BitVec 16) (s : State) : Result :=
  whenPassed cond s <|
    if rn = 15#4 then .fault .r15Base
    else if list = 0#16 then .fault .emptyRegisterList
    else if writeback && baseNotLowest rn list then .fault .baseInListNotLowest
    else s.storeMultiple mode writeback rn list

/-- R161, R168: STM (2) after its tests: the base is the current mode's register, the words are the User mode ones, and
the next instruction may not access banked registers (R268). -/
def State.storeUserMultiple (s : State) (mode : Mode4) (rn : RegNum) (list : BitVec 16) : Result :=
  match s.storeBlock (start4 mode (s.reg rn) list) (s.userWords list) with
  | .wraps => .fault .addressWrap
  | .aborted _ s' => .next (s'.raise .dataAbort)
  | .done s' => { s' with afterStm2 := true }.advance

/-- STM (2) (R161). -/
def execStm2 (cond : Cond) (mode : Mode4) (wBit : Bool) (rn : RegNum) (list : BitVec 16) (s : State) : Result :=
  whenPassed cond s <|
    if s.mode = some .user ∨ s.mode = some .system then .fault .stmUserRegsInUserOrSystem
    else if wBit then .fault .stm2Writeback
    else if rn = 15#4 then .fault .r15Base
    else if list = 0#16 then .fault .emptyRegisterList
    else s.storeUserMultiple mode rn list

end Sys2Proof.Machine
end

