-- ==== Sys2Proof/Machine/StoreRegister.lean ====
section
/-!
DEFINITION. STR, STRB and STRT (spec/43_store_register.md R170 to R178).
-/

namespace Sys2Proof.Machine

/-- STR (R170, R174, R175). -/
def execStr (cond : Cond) (index : Index2) (up : Bool) (rn rd : RegNum) (offset : Offset2) (s : State) : Result :=
  whenPassed cond s <|
    match fault2 (writesBack2 index) rn offset with
    | some f => .fault f
    | none =>
      if writesBack2 index && rd == rn then .fault .rdEqualsRnWriteback
      else
        s.storeOne s.privilege .word (s.address2 index up rn offset) (s.stval rd) (s.writeback2 index up rn offset)

/-- STRB (R171, R175, R178). -/
def execStrb (cond : Cond) (index : Index2) (up : Bool) (rn rd : RegNum) (offset : Offset2) (s : State) : Result :=
  whenPassed cond s <|
    if rd = 15#4 then .fault .r15Operand
    else
      match fault2 (writesBack2 index) rn offset with
      | some f => .fault f
      | none =>
        if writesBack2 index && rd == rn then .fault .rdEqualsRnWriteback
        else
          s.storeOne s.privilege .byte (s.address2 index up rn offset) (s.reg rd) (s.writeback2 index up rn offset)

/-- STRT (R172, R57, R174): post-indexed, with User privilege from any mode. -/
def execStrt (cond : Cond) (up : Bool) (rn rd : RegNum) (offset : Offset2) (s : State) : Result :=
  whenPassed cond s <|
    match fault2 true rn offset with
    | some f => .fault f
    | none =>
      if rd = rn then .fault .rdEqualsRn
      else
        s.storeOne .user .word (s.address2 .postIndexed up rn offset) (s.stval rd)
          (s.writeback2 .postIndexed up rn offset)

end Sys2Proof.Machine
end

