-- ==== Sys2Proof/Machine/Swap.lean ====
section
/-!
DEFINITION. SWP and SWPB (spec/46_swap.md R205 to R210).
-/

namespace Sys2Proof.Machine

/-- R59, R205, R206: what the loaded value is in Rd: a word from a misaligned address is rotated right by 8 times the
address's low two bits, a byte has zeros above it. -/
def swapLoaded (sz : AccessSize) (addr w : Word) : Word :=
  match sz with
  | .word => w.rotateRight (8 * (addr.extractLsb' 0 2).toNat)
  | .byte => w

/-- R205, R206, R209: read, write, then write Rd; an abort of either access leaves Rd alone, an abort of the read
prevents the write. -/
def State.swapMemory (s : State) (sz : AccessSize) (rd : RegNum) (addr v : Word) : Result :=
  match s.memRead s.privilege sz addr with
  | .aborted _ => .next (s.raise .dataAbort)
  | .unwritten => .fault .unwrittenRead
  | .value w =>
    match s.memWrite s.privilege sz addr v with
    | .aborted _ => .next (s.raise .dataAbort)
    | .done s' => (s'.setReg rd (swapLoaded sz addr w)).advance

/-- R205 to R208: the tests of a swap, then its accesses. -/
def State.swap (s : State) (cond : Cond) (sz : AccessSize) (rn rd : RegNum) (sbz : BitVec 4) (rm : RegNum) : Result :=
  whenPassed cond s <|
    if [rd, rm, rn].contains 15#4 then .fault .r15Operand
    else if rn = rm ∨ rn = rd then .fault .operandRestriction
    else if sbz ≠ 0#4 then .fault .sbz
    else s.swapMemory sz rd (s.reg rn) (s.reg rm)

/-- SWP (R205). -/
def execSwp (cond : Cond) (rn rd : RegNum) (sbz : BitVec 4) (rm : RegNum) (s : State) : Result :=
  s.swap cond .word rn rd sbz rm

/-- SWPB (R206). -/
def execSwpb (cond : Cond) (rn rd : RegNum) (sbz : BitVec 4) (rm : RegNum) (s : State) : Result :=
  s.swap cond .byte rn rd sbz rm

end Sys2Proof.Machine
end

