-- ==== Sys2Proof/Machine/Dispatch.lean ====
section
/-!
DEFINITION. The meaning of every instruction, one arm per row of spec/opcode_table.json.
-/

namespace Sys2Proof.Machine

/-- R4: the meaning of an instruction in a state. -/
def exec (i : Instr) (s : State) : Host.Outcome State Fault Refusal :=
  match i with
  | .smull cond setFlags rdHi rdLo rs rm => Sys2Proof.Machine.execSmull cond setFlags rdHi rdLo rs rm s
  | .stc cond index long rn crd cpNum offset8 => Sys2Proof.Machine.execStc cond index long rn crd cpNum offset8 s
  | .stc2 index long rn crd cpNum offset8 => Sys2Proof.Machine.execStc2 index long rn crd cpNum offset8 s
  | .stm1 cond mode writeback rn list => Sys2Proof.Machine.execStm1 cond mode writeback rn list s
  | .stm2 cond mode wBit rn list => Sys2Proof.Machine.execStm2 cond mode wBit rn list s
  | .str cond index up rn rd offset => Sys2Proof.Machine.execStr cond index up rn rd offset s
  | .strb cond index up rn rd offset => Sys2Proof.Machine.execStrb cond index up rn rd offset s
  | .strt cond up rn rd offset => Sys2Proof.Machine.execStrt cond up rn rd offset s
  | .sub cond setFlags rn rd operand => Sys2Proof.Machine.execSub cond setFlags rn rd operand s
  | .swi cond immed24 => Sys2Proof.Machine.execSwi cond immed24 s
  | .swp cond rn rd sbz rm => Sys2Proof.Machine.execSwp cond rn rd sbz rm s
  | .swpb cond rn rd sbz rm => Sys2Proof.Machine.execSwpb cond rn rd sbz rm s
  | .teq cond rn sbz operand => Sys2Proof.Machine.execTeq cond rn sbz operand s
  | .tst cond rn sbz operand => Sys2Proof.Machine.execTst cond rn sbz operand s
  | .umlal cond setFlags rdHi rdLo rs rm => Sys2Proof.Machine.execUmlal cond setFlags rdHi rdLo rs rm s

end Sys2Proof.Machine
end

