-- ==== Sys2Proof/Machine/Hazard.lean ====
section
/-!
DEFINITION. The restriction on the instruction that follows an STM (2) (spec/70_reset_and_hazards.md R268,
spec/90_conflicts.md C5).
-/

namespace Sys2Proof.Machine

/-- R268, R82: the general registers that the register fields of an instruction's encoding name. -/
def fieldRegs : Instr → List RegNum
  | .smull _ _ rdHi rdLo rs rm => [rdHi, rdLo, rs, rm]
  | .stc _ _ _ rn _ _ _ => [rn]
  | .stc2 _ _ rn _ _ _ => [rn]
  | .stm1 _ _ _ rn list => rn :: listRegs list
  | .stm2 _ _ _ rn list => rn :: listRegs list
  | .str _ _ _ rn rd offset => rn :: rd :: (offset2Rm offset).toList
  | .strb _ _ _ rn rd offset => rn :: rd :: (offset2Rm offset).toList
  | .strt _ _ rn rd offset => rn :: rd :: (offset2Rm offset).toList
  | .sub _ _ rn rd operand => rn :: rd :: operand1Regs operand
  | .swi _ _ => []
  | .swp _ rn rd _ rm => [rn, rd, rm]
  | .swpb _ rn rd _ rm => [rn, rd, rm]
  | .teq _ rn _ operand => rn :: operand1Regs operand
  | .tst _ rn _ operand => rn :: operand1Regs operand
  | .umlal _ _ rdHi rdLo rs rm => [rdHi, rdLo, rs, rm]

/-- R268: the instruction accesses banked state without naming it by number: SWI, and SUB with S = 1 and Rd = R15. -/
def accessesBankedState : Instr → Bool
  | .swi _ _ => true
  | .sub _ setFlags _ rd _ => setFlags && rd == 15#4
  | .smull _ _ _ _ _ _ => false
  | .stc _ _ _ _ _ _ _ => false
  | .stc2 _ _ _ _ _ _ => false
  | .stm1 _ _ _ _ _ => false
  | .stm2 _ _ _ _ _ => false
  | .str _ _ _ _ _ _ => false
  | .strb _ _ _ _ _ _ => false
  | .strt _ _ _ _ _ => false
  | .swp _ _ _ _ _ => false
  | .swpb _ _ _ _ _ => false
  | .teq _ _ _ _ => false
  | .tst _ _ _ _ => false
  | .umlal _ _ _ _ _ _ => false

/-- R268: the register numbers that are banked in a mode: 13 and 14, and in FIQ mode 8 to 12 as well. -/
def bankedNumber (mode : Option Mode) (r : RegNum) : Bool :=
  r == 13#4 || r == 14#4 || (decide (mode = some .fiq) && decide (8 ≤ r.toNat) && decide (r.toNat ≤ 12))

/-- R268: an instruction that may not directly follow an STM (2). The test is on the encoding, whatever the condition. -/
def accessesBanked (i : Instr) (mode : Option Mode) : Bool :=
  accessesBankedState i || (fieldRegs i).any (bankedNumber mode)

end Sys2Proof.Machine
end

