-- ==== Sys2Proof/Machine/Fetch.lean ====
section
/-!
DEFINITION. What happens before an instruction is executed: the platform's inputs (spec/60_exceptions.md R227, R230, R238),
the fetch (spec/20_memory.md R55, R60, R71, spec/60_exceptions.md R225), decoding under an architecture version
(spec/30_encoding.md R90, spec/00_scope.md R2), and the hazard check (spec/70_reset_and_hazards.md R268).
-/

namespace Sys2Proof.Machine

/-- R238: the inputs for the coming step; nothing is asserted when no sample is left. -/
def State.inputNow (s : State) : InputSample :=
  match s.inputs with
  | [] => { reset := false, fiq := false, irq := false }
  | sample :: _ => sample

/-- R238: the state in which the sample for the coming step has been taken. -/
def State.takeInput (s : State) : State := { s with inputs := s.inputs.tail }

/-- R260: the platform's reset input: the processor is as after reset; memory, the coprocessors, the platform's inputs and
the parameters of the run are not the processor's and stay (log entry 24). -/
def State.resetInput (s : State) : State :=
  { State.resetWith s.config s.coprocs with
    mem := s.mem, stored := s.stored, inputs := s.inputs, freeCount := s.freeCount }

/-- R227, R230: what an asserted input does before an instruction: Reset first, then FIQ if its mask bit is clear, then
IRQ if its mask bit is clear; none where nothing is taken. -/
def State.interrupt (s : State) (sample : InputSample) : Option State :=
  if sample.reset then some s.resetInput
  else if sample.fiq && !psrF s.cpsr then some (s.raise .fiq)
  else if sample.irq && !psrI s.cpsr then some (s.raise .irq)
  else none

/-- What a fetch answers. -/
inductive FetchResult where
  | word (w : Word)
  | aborted
  | stored
  | unwritten
  deriving DecidableEq, Repr

/-- R51, R225, R71, R41: fetch the word at the program counter with the current mode's privilege. A refused fetch is a
Prefetch Abort; a word that the run has stored to is refused; a byte that holds no value is a fault. Where both of the last
two hold the refusal comes first (DESIGN CHOICE, log entry 35). -/
def State.fetch (s : State) : FetchResult :=
  if s.memSysAborts s.privilege .word .read s.pc then .aborted
  else if s.stored.contains s.pc.toNat then .stored
  else
    match s.mem.readWord s.config.bigEndian s.pc.toNat with
    | some w => .word w
    | none => .unwritten

/-- R2: whether an architecture version has an instruction. The 26-bit versions are out of scope (R6). -/
def availableIn (v : ArchVersion) : Instr → Bool
  | .smull _ _ _ _ _ _ => v.mVariant
  | .stc _ _ _ _ _ _ _ => decide (2 ≤ v.version)
  | .stc2 _ _ _ _ _ _ => decide (5 ≤ v.version)
  | .stm1 _ _ _ _ _ => true
  | .stm2 _ _ _ _ _ => true
  | .str _ _ _ _ _ _ => true
  | .strb _ _ _ _ _ _ => true
  | .strt _ _ _ _ _ => true
  | .sub _ _ _ _ _ => true
  | .swi _ _ => true
  | .swp _ _ _ _ _ => decide (3 ≤ v.version)
  | .swpb _ _ _ _ _ => decide (3 ≤ v.version)
  | .teq _ _ _ _ => true
  | .tst _ _ _ _ => true
  | .umlal _ _ _ _ _ _ => v.mVariant

/-- What decoding under an architecture version answers. -/
inductive VersionDecoded where
  | instr (i : Instr)
  | condNV
  | rejected (why : Reject)
  deriving DecidableEq, Repr

/-- R86, R90, R2: a fetched word under the run's architecture version. Before version 5 a condition field of 0b1111 is
UNPREDICTABLE; a word of an instruction that the version lacks is refused. -/
def State.decodeWord (s : State) (w : Word) : VersionDecoded :=
  if field w 28 4 = 0b1111#4 ∧ s.config.arch.version < 5 then .condNV
  else
    match decode w with
    | .rejected why => .rejected why
    | .instr i => if availableIn s.config.arch i then .instr i else .rejected .notInVersion

/-- R268: the restriction after an STM (2) is broken by this instruction. -/
def State.hazard (s : State) (i : Instr) : Bool := s.afterStm2 && accessesBanked i s.mode

/-- R268: the restriction of an STM (2) is about one instruction only. -/
def State.clearAfterStm2 (s : State) : State := { s with afterStm2 := false }

/-- R35, R28, R60: a state that no instruction is executed in: Thumb state, a mode number that is no mode, or a program
counter that is not word aligned. No step leads to one; a launch state may be one, and is stopped before its inputs are
looked at (log entry 19). -/
def State.notExecutable (s : State) : Option Result :=
  if psrT s.cpsr then some (.refused .thumbState)
  else if s.mode = none then some (.fault .badMode)
  else if misaligned s.pc then some (.fault .unalignedPC)
  else none

/-- A word placed at the program counter from outside the machine, as a loader would: its bytes hold it and it does not
count as stored to by the run. -/
def State.placeWordAtPC (s : State) (w : Word) : State :=
  { s with
    mem := s.mem.writeWord s.config.bigEndian s.pc.toNat w
    stored := s.stored.filter fun a => a != s.pc.toNat }

end Sys2Proof.Machine
end

