-- ==== Sys2Proof/Machine/Step.lean ====
section
/-!
DEFINITION. One step of the machine, in the order that spec/INDEX.md gives: the inputs, the fetch, decoding, the hazard
check, and the instruction's meaning.
-/

namespace Sys2Proof.Machine

/-- Fetch, decode and execute one instruction (R60, R86, R268, R12), or take a Prefetch Abort (R225). -/
def State.runInstruction (s : State) : Host.Outcome State Fault Refusal :=
  match s.fetch with
  | .aborted => .next (s.raise .prefetchAbort)
  | .stored => .refused .fetchAfterStore
  | .unwritten => .fault .unwrittenRead
  | .word w =>
    match s.decodeWord w with
    | .condNV => .fault .condNV
    | .rejected why => .refused (.notInSpec why)
    | .instr i => if s.hazard i then .fault .bankedAfterStm2 else exec i s.clearAfterStm2

/-- One step: an interrupt or reset where the platform asserts one that is not masked (R227), else one instruction. -/
def step (s : State) : Host.Outcome State Fault Refusal :=
  match s.notExecutable with
  | some stop => stop
  | none =>
    match s.takeInput.interrupt s.inputNow with
    | some s' => .next s'
    | none => s.takeInput.runInstruction

/-- The state in which the word of an opcode-table row stands at the program counter, so that the next step fetches it. -/
def State.withFetchWord (s : State) (nbits w : Nat) : State := s.placeWordAtPC (BitVec.ofNat 32 (w % 2 ^ nbits))

end Sys2Proof.Machine
end

