-- ==== Sys2Proof/Safety.lean ====
section
/-!
DEFINITION. The terms that claims use: the states the machine is meant to be in, the end of a run
(spec/70_reset_and_hazards.md R276), and what an instruction leaves unchanged.
-/

namespace Sys2Proof.Machine

/-! ## The states that steps lead to -/

/-- Strictly rising word-aligned addresses from `low` on, inside the address space. -/
def storedRisingFrom : Nat → List Nat → Bool
  | _, [] => true
  | low, a :: rest =>
    decide (low ≤ a) && decide (a % 4 = 0) && decide (a < 2 ^ 32) && storedRisingFrom (a + 1) rest

/-- The invariant of every run: ARM state (R35), one of the seven modes (R245), a word-aligned program counter (R24), and
memory and the record of stores in canonical form. -/
structure State.Inv (s : State) : Prop where
  armState     : psrT s.cpsr = false
  legalMode    : s.mode ≠ none
  alignedPC    : misaligned s.pc = false
  memoryWf     : s.mem.wf = true
  storedWf     : storedRisingFrom 0 s.stored = true

/-! ## The end of a run -/

/-- R276: a run is finished when the program counter is at the halt address before a fetch. -/
def State.finishedAt (halt : Word) (s : State) : Prop := s.pc = halt

/-- R276: at most `n` steps, stopping where the run is finished or at the first fault or refusal. -/
def runUntil (halt : Word) : Nat → State → Result
  | 0, s => .next s
  | n + 1, s =>
    if s.pc = halt then .next s
    else
      match step s with
      | .next s' => runUntil halt n s'
      | .fault f => .fault f
      | .refused r => .refused r

/-! ## Frames -/

/-- Every physical general register is unchanged but those that the numbers in `written` name in the mode of `s`. -/
def regsKeptBut (s t : State) (written : List RegNum) : Prop :=
  ∀ i : Fin 30, (∀ r ∈ written, physIndex s.mode r ≠ i) → t.regs[i.val] = s.regs[i.val]

/-- Every byte of memory reads as before. -/
def memKept (s t : State) : Prop := ∀ a, t.mem.read a = s.mem.read a

/-- Every byte of memory outside the `n` bytes from `first` on reads as before. -/
def memKeptOutside (s t : State) (first n : Nat) : Prop :=
  ∀ a, a < first ∨ first + n ≤ a → t.mem.read a = s.mem.read a

/-- The SPSRs, the coprocessors, the platform's inputs, the parameters of the run and the count of free values are
unchanged. -/
def specialKept (s t : State) : Prop :=
  t.spsrs = s.spsrs ∧ t.coprocs = s.coprocs ∧ t.inputs = s.inputs ∧ t.config = s.config ∧ t.freeCount = s.freeCount

/-- The CPSR is unchanged below its four flags. -/
def psrKeptBelowFlags (s t : State) : Prop := t.cpsr.extractLsb' 0 28 = s.cpsr.extractLsb' 0 28

/-- The addresses of the words that the run has stored to are the old ones and those of `n` words from `first` on. -/
def storedGrows (s t : State) (first n : Nat) : Prop :=
  ∀ a, a ∈ t.stored ↔ a ∈ s.stored ∨ ∃ k < n, a = first + 4 * k

/-- The instruction stores nothing: memory and the record of stores are unchanged. -/
def storesNothing (s t : State) : Prop := memKept s t ∧ t.stored = s.stored

/-- The instruction went on at the next one, and no STM (2) was executed (R25, R268). -/
def wentOn (s t : State) : Prop := t.pc = s.pc + 4#32 ∧ t.afterStm2 = s.afterStm2

/-! ## Accesses that are let through -/

/-- R55, R58: the memory system and the alignment check let a word access at `addr` through. -/
def State.wordAllowed (s : State) (pr : Privilege) (kind : AccessKind) (addr : Word) : Prop :=
  ¬ (s.config.alignCheck = true ∧ misaligned addr = true) ∧ s.memSysAborts pr .word kind (alignWord addr) = false

/-- R55: the memory system lets a byte access at `addr` through. -/
def State.byteAllowed (s : State) (pr : Privilege) (kind : AccessKind) (addr : Word) : Prop :=
  s.memSysAborts pr .byte kind addr = false

/-- R29, R55, R58: the writes of `n` words from `start` on are let through and do not cross the top of the address
space. -/
def State.blockAllowed (s : State) (start : Word) (n : Nat) : Prop :=
  ¬ (s.config.alignCheck = true ∧ misaligned start = true) ∧ (alignWord start).toNat + 4 * n ≤ 2 ^ 32 ∧
    ∀ k < n, s.memSysAborts s.privilege .word .write (alignWord start + BitVec.ofNat 32 (4 * k)) = false

/-! ## Blocks of words -/

/-- R160: how many registers with a lower number than `j` a register list names, which is the place of `j`'s word in the
block. -/
def listRank (list : BitVec 16) (j : Nat) : Nat := ((List.range j).filter fun i => list.getLsbD i).length

/-- R115: how many registers a register list names. -/
def listCount (list : BitVec 16) : Nat := listRank list 16

/-- The words of memory that an STM or STC has written: from the word-aligned part of `start` on, `ws` and nothing else
(R54, R150, R160). -/
def blockStored (s t : State) (start : Word) (ws : List Word) : Prop :=
  (∀ k (h : k < ws.length), t.mem.readWord s.config.bigEndian ((alignWord start).toNat + 4 * k) = some ws[k]) ∧
    memKeptOutside s t (alignWord start).toNat (4 * ws.length) ∧
    storedGrows s t (alignWord start).toNat ws.length

/-! ## Blocks of words that abort -/

/-- R58, R73: the alignment check or the memory system turns the writes of `n` words from `start` on away. -/
def State.blockRefused (s : State) (start : Word) (n : Nat) : Prop :=
  (s.config.alignCheck = true ∧ misaligned start = true) ∨
    ((alignWord start).toNat + 4 * n ≤ 2 ^ 32 ∧
      ∃ k < n, s.memSysAborts s.privilege .word .write (alignWord start + BitVec.ofNat 32 (4 * k)) = true)

/-- R226: a Data Abort has been taken by the instruction at the program counter of `s`. -/
def tookDataAbort (s t : State) : Prop :=
  t.cpsr = psrOnEntry s.cpsr Mode.abort.bits false ∧ t.spsr = some s.cpsr ∧ t.reg 14#4 = s.pc + 8#32 ∧
    t.pc = s.vectorBase + 0x10#32

/-- R232: every general register but the link register of Abort mode is unchanged, or, where the abort model is Base
Updated, is what the writeback `wb` makes it. -/
def regsAfterAbort (s t : State) (wb : Option (RegNum × Word)) : Prop :=
  ∃ base : State,
    (Config.abortModel = .baseRestored ∧ base = s ∨ Config.abortModel = .baseUpdated ∧ base = s.writeback wb) ∧
      ∀ i : Fin 30, i ≠ physIndex (some .abort) 14#4 → t.regs[i.val] = base.regs[i.val]

/-- R73, R233: memory after a store of `n` words from `start` on has been turned away: bytes outside the block and bytes of
refused words are unchanged, and after a failed alignment check all bytes are. Nothing is said of the other words. -/
def memAfterAbort (s t : State) (start : Word) (n : Nat) : Prop :=
  memKeptOutside s t (alignWord start).toNat (4 * n) ∧
    (∀ k < n, s.memSysAborts s.privilege .word .write (alignWord start + BitVec.ofNat 32 (4 * k)) = true →
      ∀ b < 4, t.mem.read ((alignWord start).toNat + 4 * k + b) = s.mem.read ((alignWord start).toNat + 4 * k + b)) ∧
    (s.config.alignCheck = true ∧ misaligned start = true → memKept s t)

/-! ## Coprocessors -/

/-- R8, R150: the coprocessor that `cp` names is present, and of its rows the first that fits the instruction word and the
coprocessor's state gives the words `ws`, one at least, and the next state `next` (log entry 14). -/
def State.accepts (s : State) (cp : BitVec 4) (word : Word) (ws : List Word) (next : Nat) : Prop :=
  ∃ (device : Coprocessor) (before after : List CoprocRow) (row : CoprocRow),
    s.coprocs[cp.toNat] = some device ∧ device.rows = before ++ row :: after ∧
      (∀ r ∈ before, ¬ (r.state = device.state ∧ word &&& r.mask = r.value)) ∧
      row.state = device.state ∧ word &&& row.mask = row.value ∧ ws = row.first :: row.rest ∧ next = row.next

/-! ## Conditions on states and instructions -/

/-- R245, R35: the mode numbers of an architecture version; System mode's is one from version 4 on. -/
def isModeNumber (v : ArchVersion) (b : BitVec 5) : Prop :=
  b ∈ [0b10000#5, 0b10001#5, 0b10010#5, 0b10011#5, 0b10111#5, 0b11011#5] ∨ (b = 0b11111#5 ∧ 4 ≤ v.version)

/-- R82, R268: bits [19:16], [15:12], [11:8] and [3:0] of the word of an instruction, where they are a register field of its
format, and bits [15:0] where they are a register list, name the general register `r`. -/
def namesRegister (i : Instr) (w : Word) (r : RegNum) : Prop :=
  match i with
  | .smull _ _ _ _ _ _ => r = field w 16 4 ∨ r = field w 12 4 ∨ r = field w 8 4 ∨ r = field w 0 4
  | .umlal _ _ _ _ _ _ => r = field w 16 4 ∨ r = field w 12 4 ∨ r = field w 8 4 ∨ r = field w 0 4
  | .stc _ _ _ _ _ _ _ => r = field w 16 4
  | .stc2 _ _ _ _ _ _ => r = field w 16 4
  | .stm1 _ _ _ _ _ => r = field w 16 4 ∨ w.getLsbD r.toNat = true
  | .stm2 _ _ _ _ _ => r = field w 16 4 ∨ w.getLsbD r.toNat = true
  | .str _ _ _ _ _ _ => r = field w 16 4 ∨ r = field w 12 4 ∨ (w.getLsbD 25 = true ∧ r = field w 0 4)
  | .strb _ _ _ _ _ _ => r = field w 16 4 ∨ r = field w 12 4 ∨ (w.getLsbD 25 = true ∧ r = field w 0 4)
  | .strt _ _ _ _ _ => r = field w 16 4 ∨ r = field w 12 4 ∨ (w.getLsbD 25 = true ∧ r = field w 0 4)
  | .sub _ _ _ _ _ => r = field w 16 4 ∨ r = field w 12 4 ∨
      (w.getLsbD 25 = false ∧ (r = field w 0 4 ∨ (w.getLsbD 4 = true ∧ r = field w 8 4)))
  | .swi _ _ => False
  | .swp _ _ _ _ _ => r = field w 16 4 ∨ r = field w 12 4 ∨ r = field w 0 4
  | .swpb _ _ _ _ _ => r = field w 16 4 ∨ r = field w 12 4 ∨ r = field w 0 4
  | .teq _ _ _ _ => r = field w 16 4 ∨
      (w.getLsbD 25 = false ∧ (r = field w 0 4 ∨ (w.getLsbD 4 = true ∧ r = field w 8 4)))
  | .tst _ _ _ _ => r = field w 16 4 ∨
      (w.getLsbD 25 = false ∧ (r = field w 0 4 ∨ (w.getLsbD 4 = true ∧ r = field w 8 4)))

/-- R88: the condition of an instruction; STC2 has none. -/
def condOf : Instr → Option Cond
  | .smull c _ _ _ _ _ => some c
  | .stc c _ _ _ _ _ _ => some c
  | .stc2 _ _ _ _ _ _ => none
  | .stm1 c _ _ _ _ => some c
  | .stm2 c _ _ _ _ => some c
  | .str c _ _ _ _ _ => some c
  | .strb c _ _ _ _ _ => some c
  | .strt c _ _ _ _ => some c
  | .sub c _ _ _ _ => some c
  | .swi c _ => some c
  | .swp c _ _ _ _ => some c
  | .swpb c _ _ _ _ => some c
  | .teq c _ _ _ => some c
  | .tst c _ _ _ => some c
  | .umlal c _ _ _ _ _ => some c

/-- R35, R60, R245: ARM state, one of the seven modes and a word-aligned program counter. -/
def State.executable (s : State) : Prop :=
  psrT s.cpsr = false ∧ s.mode ≠ none ∧ misaligned s.pc = false

/-- R227: the platform asserts no input that would be taken before the instruction. -/
def State.undisturbed (s : State) : Prop :=
  s.inputNow.reset = false ∧ ¬ (s.inputNow.fiq = true ∧ psrF s.cpsr = false) ∧
    ¬ (s.inputNow.irq = true ∧ psrI s.cpsr = false)

/-- R51, R71, R225: the word `w` is fetched at the program counter. -/
def State.fetches (s : State) (w : Word) : Prop :=
  s.memSysAborts s.privilege .word .read s.pc = false ∧ s.pc.toNat ∉ s.stored ∧
    s.mem.readWord s.config.bigEndian s.pc.toNat = some w

/-- The program counter is not at the last word of the address space, so that execution can go on at the next one. -/
def State.hasNext (s : State) : Prop := s.pc.toNat + 4 < 2 ^ 32

end Sys2Proof.Machine
end

