-- ==== Sys2Proof/Certificates/Slice0/Obligations.lean ====
section
/-!
DEFINITION. The statements for the provers. Each docstring names the rules of spec/ it formalises; where a clause is a
choice of the model or of the spec, it says so and names the log entry or the decision.
-/

section

open Sys2Proof Sys2Proof.Machine

/-! ## Encoding -/

/-- R86, R95 to R123: words written out from the encodings of R83, one or two for every row of the opcode table, decode to
the instructions that the spec's examples name. The STC2 word is written out from the fields of `STC2L p5, c0, [R1], #-4`;
the word that R151 prints for it has p0 and c5 in them (log entry 28). -/
def Obligations.SampleWordsDecode : Prop :=
  decode 0xE0D10392#32 = .instr (.smull .al true 1#4 0#4 3#4 2#4) ∧
  decode 0xE0A54796#32 = .instr (.umlal .al false 5#4 4#4 7#4 6#4) ∧
  decode 0xED832102#32 = .instr (.stc .al (.offset true) false 3#4 2#4 1#4 2#8) ∧
  decode 0xFC610501#32 = .instr (.stc2 (.postIndexed false) true 1#4 0#4 5#4 1#8) ∧
  decode 0xE92D4010#32 = .instr (.stm1 .al .db true 13#4 0x4010#16) ∧
  decode 0xE8C06000#32 = .instr (.stm2 .al .ia false 0#4 0x6000#16) ∧
  decode 0xE5821004#32 = .instr (.str .al .offset true 2#4 1#4 (.imm 4#12)) ∧
  decode 0xE7210102#32 = .instr (.str .al .preIndexed false 1#4 0#4 (.scaled 2#4 .lsl 2)) ∧
  decode 0xE4C10001#32 = .instr (.strb .al .postIndexed true 1#4 0#4 (.imm 1#12)) ∧
  decode 0xE4A43004#32 = .instr (.strt .al true 4#4 3#4 (.imm 4#12)) ∧
  decode 0xE2500001#32 = .instr (.sub .al true 0#4 0#4 (.imm 0#4 1#8)) ∧
  decode 0xE0443635#32 = .instr (.sub .al false 4#4 3#4 (.regShift 5#4 .lsr 6#4)) ∧
  decode 0xEF123456#32 = .instr (.swi .al 0x123456#24) ∧
  decode 0xE1020091#32 = .instr (.swp .al 2#4 0#4 0#4 1#4) ∧
  decode 0xE1453094#32 = .instr (.swpb .al 5#4 3#4 0#4 4#4) ∧
  decode 0xE1310002#32 = .instr (.teq .al 1#4 0#4 (.immShift 2#4 .lsl 0)) ∧
  decode 0xE3100102#32 = .instr (.tst .al 0#4 0#4 (.imm 1#4 2#8))

/-- R83, R86: decoding the word of a well-formed instruction gives the instruction back, with every operand at every value
that its encoding admits. -/
def Obligations.DecodeOfEncode : Prop :=
  ∀ i : Instr, WellFormed i = true → decode (encode i) = .instr i

/-- R83, R86: an instruction that a word decodes to is well formed, and its word is that word; so no two words stand for one
instruction, and no bit of a word is dropped. -/
def Obligations.EncodeOfDecode : Prop :=
  ∀ (w : Word) (i : Instr), decode w = .instr i → WellFormed i = true ∧ encode i = w

/-- R83, R86, R140 to R206: a word decodes to an instruction exactly where the match and mask of the instruction's row of the
opcode table, with the row's exclusions, say so. -/
def Obligations.DecodeFollowsMasks : Prop :=
  ∀ w : Word,
    ((∃ c sf hi lo rs rm, decode w = .instr (.smull c sf hi lo rs rm)) ↔
      field w 28 4 ≠ 15#4 ∧ w &&& 0x0FE000F0#32 = 0x00C00090#32) ∧
    ((∃ c sf hi lo rs rm, decode w = .instr (.umlal c sf hi lo rs rm)) ↔
      field w 28 4 ≠ 15#4 ∧ w &&& 0x0FE000F0#32 = 0x00A00090#32) ∧
    ((∃ c x n rn crd cp off, decode w = .instr (.stc c x n rn crd cp off)) ↔
      field w 28 4 ≠ 15#4 ∧ w &&& 0x0E100000#32 = 0x0C000000#32 ∧ w &&& 0x01A00000#32 ≠ 0#32) ∧
    ((∃ x n rn crd cp off, decode w = .instr (.stc2 x n rn crd cp off)) ↔
      w &&& 0xFE100000#32 = 0xFC000000#32 ∧ w &&& 0x01A00000#32 ≠ 0#32) ∧
    ((∃ c m wb rn l, decode w = .instr (.stm1 c m wb rn l)) ↔
      field w 28 4 ≠ 15#4 ∧ w &&& 0x0E500000#32 = 0x08000000#32) ∧
    ((∃ c m wb rn l, decode w = .instr (.stm2 c m wb rn l)) ↔
      field w 28 4 ≠ 15#4 ∧ w &&& 0x0E500000#32 = 0x08400000#32) ∧
    ((∃ c x u rn rd o, decode w = .instr (.str c x u rn rd o)) ↔
      field w 28 4 ≠ 15#4 ∧ w &&& 0x0C500000#32 = 0x04000000#32 ∧ w &&& 0x01200000#32 ≠ 0x00200000#32 ∧
        w &&& 0x02000010#32 ≠ 0x02000010#32) ∧
    ((∃ c x u rn rd o, decode w = .instr (.strb c x u rn rd o)) ↔
      field w 28 4 ≠ 15#4 ∧ w &&& 0x0C500000#32 = 0x04400000#32 ∧ w &&& 0x01200000#32 ≠ 0x00200000#32 ∧
        w &&& 0x02000010#32 ≠ 0x02000010#32) ∧
    ((∃ c u rn rd o, decode w = .instr (.strt c u rn rd o)) ↔
      field w 28 4 ≠ 15#4 ∧ w &&& 0x0D700000#32 = 0x04200000#32 ∧ w &&& 0x02000010#32 ≠ 0x02000010#32) ∧
    ((∃ c sf rn rd o, decode w = .instr (.sub c sf rn rd o)) ↔
      field w 28 4 ≠ 15#4 ∧ w &&& 0x0DE00000#32 = 0x00400000#32 ∧ w &&& 0x02000090#32 ≠ 0x00000090#32) ∧
    ((∃ c n, decode w = .instr (.swi c n)) ↔
      field w 28 4 ≠ 15#4 ∧ w &&& 0x0F000000#32 = 0x0F000000#32) ∧
    ((∃ c rn rd z rm, decode w = .instr (.swp c rn rd z rm)) ↔
      field w 28 4 ≠ 15#4 ∧ w &&& 0x0FF000F0#32 = 0x01000090#32) ∧
    ((∃ c rn rd z rm, decode w = .instr (.swpb c rn rd z rm)) ↔
      field w 28 4 ≠ 15#4 ∧ w &&& 0x0FF000F0#32 = 0x01400090#32) ∧
    ((∃ c rn z o, decode w = .instr (.teq c rn z o)) ↔
      field w 28 4 ≠ 15#4 ∧ w &&& 0x0DF00000#32 = 0x01300000#32 ∧ w &&& 0x02000090#32 ≠ 0x00000090#32) ∧
    ((∃ c rn z o, decode w = .instr (.tst c rn z o)) ↔
      field w 28 4 ≠ 15#4 ∧ w &&& 0x0DF00000#32 = 0x01100000#32 ∧ w &&& 0x02000090#32 ≠ 0x00000090#32)

/-! ## Long multiplies -/

/-- R140, R142: SMULL leaves in RdHi:RdLo the exact signed product of Rm and Rs as they were, with S = 1 sets N and Z from it
and keeps C and V (R145), and changes nothing else. -/
def Obligations.SmullResult : Prop :=
  ∀ (cond : Cond) (setFlags : Bool) (rdHi rdLo rs rm : RegNum) (s : State),
    s.condPassed cond = true → s.hasNext →
    rdHi ≠ 15#4 → rdLo ≠ 15#4 → rs ≠ 15#4 → rm ≠ 15#4 → rdHi ≠ rdLo → rdHi ≠ rm → rdLo ≠ rm →
    (setFlags = true → 5 ≤ s.config.arch.version) →
    ∃ t, exec (.smull cond setFlags rdHi rdLo rs rm) s = .next t ∧
      (t.reg rdHi ++ t.reg rdLo).toInt = (s.reg rm).toInt * (s.reg rs).toInt ∧
      t.cpsr = (if setFlags then
        psrWithFlags s.cpsr (decide ((s.reg rm).toInt * (s.reg rs).toInt < 0))
          (decide ((s.reg rm).toInt * (s.reg rs).toInt = 0)) (psrC s.cpsr) (psrV s.cpsr)
        else s.cpsr) ∧
      regsKeptBut s t [rdHi, rdLo] ∧ storesNothing s t ∧ specialKept s t ∧ wentOn s t

/-- R141, R142, R146: UMLAL leaves in RdHi:RdLo the unsigned product of Rm and Rs plus the old RdHi:RdLo, modulo 2^64, with
S = 1 sets N and Z from it and keeps C and V (R145), and changes nothing else. -/
def Obligations.UmlalResult : Prop :=
  ∀ (cond : Cond) (setFlags : Bool) (rdHi rdLo rs rm : RegNum) (s : State) (r : Nat),
    s.condPassed cond = true → s.hasNext →
    rdHi ≠ 15#4 → rdLo ≠ 15#4 → rs ≠ 15#4 → rm ≠ 15#4 → rdHi ≠ rdLo → rdHi ≠ rm → rdLo ≠ rm →
    (setFlags = true → 5 ≤ s.config.arch.version) →
    r = ((s.reg rm).toNat * (s.reg rs).toNat + ((s.reg rdHi).toNat * 2 ^ 32 + (s.reg rdLo).toNat)) % 2 ^ 64 →
    ∃ t, exec (.umlal cond setFlags rdHi rdLo rs rm) s = .next t ∧
      (t.reg rdHi).toNat = r / 2 ^ 32 ∧ (t.reg rdLo).toNat = r % 2 ^ 32 ∧
      t.cpsr = (if setFlags then
        psrWithFlags s.cpsr (decide (2 ^ 63 ≤ r)) (decide (r = 0)) (psrC s.cpsr) (psrV s.cpsr)
        else s.cpsr) ∧
      regsKeptBut s t [rdHi, rdLo] ∧ storesNothing s t ∧ specialKept s t ∧ wentOn s t

/-- R145, before architecture version 5: SMULLS and UMLALS go on with N and Z set from the result; nothing is said of C and V,
which are free values (log entry 12), nor of how many free values have been drawn. -/
def Obligations.LongMultiplyBeforeVersion5 : Prop :=
  ∀ (cond : Cond) (rdHi rdLo rs rm : RegNum) (s : State),
    s.condPassed cond = true → s.hasNext →
    rdHi ≠ 15#4 → rdLo ≠ 15#4 → rs ≠ 15#4 → rm ≠ 15#4 → rdHi ≠ rdLo → rdHi ≠ rm → rdLo ≠ rm →
    s.config.arch.version < 5 →
    ∀ i ∈ [Instr.smull cond true rdHi rdLo rs rm, Instr.umlal cond true rdHi rdLo rs rm],
      ∃ t, exec i s = .next t ∧
        (t.reg rdHi ++ t.reg rdLo) =
          (if i = .smull cond true rdHi rdLo rs rm then
            (s.reg rm).signExtend 64 * (s.reg rs).signExtend 64
          else (s.reg rm).setWidth 64 * (s.reg rs).setWidth 64 + (s.reg rdHi ++ s.reg rdLo)) ∧
        psrN t.cpsr = (t.reg rdHi).msb ∧
        psrZ t.cpsr = decide (t.reg rdHi = 0#32 ∧ t.reg rdLo = 0#32) ∧
        psrKeptBelowFlags s t ∧ regsKeptBut s t [rdHi, rdLo] ∧ storesNothing s t ∧ wentOn s t ∧
        t.spsrs = s.spsrs ∧ t.coprocs = s.coprocs ∧ t.inputs = s.inputs ∧ t.config = s.config

/-- R143 (UNPREDICTABLE, a fault by decision D10): R15 in a register field of SMULL or UMLAL, or RdHi, RdLo and Rm not three
distinct registers. -/
def Obligations.LongMultiplyStops : Prop :=
  ∀ (cond : Cond) (setFlags : Bool) (rdHi rdLo rs rm : RegNum) (s : State),
    s.condPassed cond = true →
    ∀ i ∈ [Instr.smull cond setFlags rdHi rdLo rs rm, Instr.umlal cond setFlags rdHi rdLo rs rm],
      ((rdHi = 15#4 ∨ rdLo = 15#4 ∨ rs = 15#4 ∨ rm = 15#4) → exec i s = .fault .r15Operand) ∧
      (rdHi ≠ 15#4 → rdLo ≠ 15#4 → rs ≠ 15#4 → rm ≠ 15#4 → (rdHi = rdLo ∨ rdHi = rm ∨ rdLo = rm) →
        exec i s = .fault .operandRestriction)

/-! ## Data processing -/

/-- R185: SUB to a register other than R15: the difference, with S = 1 the four flags of R33 and the rest of the CPSR as it
was, and nothing else. -/
def Obligations.SubResult : Prop :=
  ∀ (cond : Cond) (setFlags : Bool) (rn rd : RegNum) (operand : Operand1) (s : State) (a b : Word),
    s.condPassed cond = true → s.hasNext → rd ≠ 15#4 → operand1NamesR15 operand [rn, rd] = false →
    a = s.opnd rn → b = (s.shifterOperand operand).1 →
    ∃ t, exec (.sub cond setFlags rn rd operand) s = .next t ∧
      (t.reg rd).toNat = (2 ^ 32 + a.toNat - b.toNat) % 2 ^ 32 ∧
      t.cpsr = (if setFlags then
        psrWithFlags s.cpsr (t.reg rd).msb (decide (a = b)) (decide (b.toNat ≤ a.toNat))
          (a.msb != b.msb && (t.reg rd).msb != a.msb)
        else s.cpsr) ∧
      regsKeptBut s t [rd] ∧ storesNothing s t ∧ specialKept s t ∧ wentOn s t

/-- R185, R28, R193: SUB with Rd = R15 and S = 0 branches and changes nothing but the program counter. A target that is not
word aligned is a fault (decision D25), in every version (log entry 22). -/
def Obligations.SubBranch : Prop :=
  ∀ (cond : Cond) (rn : RegNum) (operand : Operand1) (s : State) (v : Word),
    s.condPassed cond = true → operand1NamesR15 operand [rn, 15#4] = false →
    v = s.opnd rn - (s.shifterOperand operand).1 →
    (misaligned v = false → exec (.sub cond false rn 15#4 operand) s = .next { s with pc := v }) ∧
    (misaligned v = true → exec (.sub cond false rn 15#4 operand) s = .fault .unalignedPC)

/-- R185, R188, R235: SUBS with Rd = R15 goes to the difference and loads the CPSR from the SPSR of the current mode, in one
step, and changes nothing else. -/
def Obligations.ExceptionReturn : Prop :=
  ∀ (cond : Cond) (rn : RegNum) (operand : Operand1) (s : State) (m : Mode) (k : Fin 5) (v : Word),
    s.condPassed cond = true → operand1NamesR15 operand [rn, 15#4] = false →
    s.mode = some m → m.spsrIndex = some k →
    psrT s.spsrs[k.val] = false → isModeNumber s.config.arch (psrM s.spsrs[k.val]) →
    v = s.opnd rn - (s.shifterOperand operand).1 → misaligned v = false →
    exec (.sub cond true rn 15#4 operand) s = .next { s with cpsr := s.spsrs[k.val], pc := v }

/-- R185, R35 (decisions D10, D12, D25, D26): where SUBS with Rd = R15 stops, in the order of the tests: no SPSR in User and
System mode, an SPSR with T = 1, an SPSR whose mode number is no mode of the version (R245; log entry 26), and a target that
is not word aligned, in every version (log entry 22). -/
def Obligations.ExceptionReturnStops : Prop :=
  ∀ (cond : Cond) (rn : RegNum) (operand : Operand1) (s : State),
    s.condPassed cond = true → operand1NamesR15 operand [rn, 15#4] = false →
    ((s.mode = some .user ∨ s.mode = some .system) →
      exec (.sub cond true rn 15#4 operand) s = .fault .noSPSR) ∧
    (∀ (m : Mode) (k : Fin 5), s.mode = some m → m.spsrIndex = some k →
      (psrT s.spsrs[k.val] = true → exec (.sub cond true rn 15#4 operand) s = .refused .thumbState) ∧
      (psrT s.spsrs[k.val] = false → ¬ isModeNumber s.config.arch (psrM s.spsrs[k.val]) →
        exec (.sub cond true rn 15#4 operand) s = .fault .badMode) ∧
      (psrT s.spsrs[k.val] = false → isModeNumber s.config.arch (psrM s.spsrs[k.val]) →
        misaligned (s.opnd rn - (s.shifterOperand operand).1) = true →
        exec (.sub cond true rn 15#4 operand) s = .fault .unalignedPC))

/-- R189, R192 (b): after SUBS the conditions compare the two operands: HS (CS), LO (CC), HI and LS as unsigned numbers, GE,
LT, GT and LE as signed ones, EQ and NE for equality. -/
def Obligations.ComparisonAfterSubs : Prop :=
  ∀ (cond : Cond) (rn rd : RegNum) (operand : Operand1) (s : State) (a b : Word),
    s.condPassed cond = true → s.hasNext → rd ≠ 15#4 → operand1NamesR15 operand [rn, rd] = false →
    a = s.opnd rn → b = (s.shifterOperand operand).1 →
    ∃ t, exec (.sub cond true rn rd operand) s = .next t ∧
      t.condPassed .eq = decide (a = b) ∧ t.condPassed .ne = decide (a ≠ b) ∧
      t.condPassed .cs = decide (b.toNat ≤ a.toNat) ∧ t.condPassed .cc = decide (a.toNat < b.toNat) ∧
      t.condPassed .hi = decide (b.toNat < a.toNat) ∧ t.condPassed .ls = decide (a.toNat ≤ b.toNat) ∧
      t.condPassed .ge = decide (b.toInt ≤ a.toInt) ∧ t.condPassed .lt = decide (a.toInt < b.toInt) ∧
      t.condPassed .gt = decide (b.toInt < a.toInt) ∧ t.condPassed .le = decide (a.toInt ≤ b.toInt)

/-- R186, R187: TEQ and TST set N, Z and C, leave V and the rest of the CPSR, and change nothing else. For TEQ, N is the
exclusive OR of the two sign bits and Z says whether the values are equal. -/
def Obligations.TeqTstResult : Prop :=
  ∀ (cond : Cond) (rn : RegNum) (operand : Operand1) (s : State) (a b : Word) (carry : Bool),
    s.condPassed cond = true → s.hasNext → operand1NamesR15 operand [rn] = false →
    a = s.opnd rn → (b, carry) = s.shifterOperand operand →
    (∃ t, exec (.teq cond rn 0#4 operand) s = .next t ∧
      psrN t.cpsr = (a.msb ^^ b.msb) ∧ psrZ t.cpsr = decide (a = b) ∧ psrC t.cpsr = carry ∧
      psrV t.cpsr = psrV s.cpsr ∧ psrKeptBelowFlags s t ∧
      t.regs = s.regs ∧ storesNothing s t ∧ specialKept s t ∧ wentOn s t) ∧
    (∃ t, exec (.tst cond rn 0#4 operand) s = .next t ∧
      psrN t.cpsr = (a.msb && b.msb) ∧ psrZ t.cpsr = decide (a &&& b = 0#32) ∧
      psrC t.cpsr = carry ∧ psrV t.cpsr = psrV s.cpsr ∧ psrKeptBelowFlags s t ∧
      t.regs = s.regs ∧ storesNothing s t ∧ specialKept s t ∧ wentOn s t)

/-- R125 (decision D20) and R106: a non-zero SBZ field of TEQ or TST, and R15 in a register field of SUB, TEQ or TST with a
register-shift operand, are faults. -/
def Obligations.DataProcessingStops : Prop :=
  ∀ (cond : Cond) (setFlags : Bool) (rn rd : RegNum) (sbz : BitVec 4) (operand : Operand1) (s : State),
    s.condPassed cond = true →
    (sbz ≠ 0#4 → exec (.teq cond rn sbz operand) s = .fault .sbz ∧ exec (.tst cond rn sbz operand) s = .fault .sbz) ∧
    (∀ (rm rs : RegNum) (ty : ShiftType), operand = .regShift rm ty rs →
      ((rn = 15#4 ∨ rm = 15#4 ∨ rs = 15#4) →
        exec (.teq cond rn 0#4 operand) s = .fault .r15Operand ∧
        exec (.tst cond rn 0#4 operand) s = .fault .r15Operand) ∧
      ((rn = 15#4 ∨ rd = 15#4 ∨ rm = 15#4 ∨ rs = 15#4) →
        exec (.sub cond setFlags rn rd operand) s = .fault .r15Operand))

/-- R97, R98, R100, R102, R104, R107: the shifter operand and its carry for a word with I = 0 and bit 4 = 0, by shift type
(bits [6:5]) and shift_imm (bits [11:7]); `v` is the value of Rm and `c` the C flag. -/
def Obligations.ShiftByImmediate : Prop :=
  ∀ (s : State) (w v : Word) (n : Nat) (c : Bool) (r : Word × Bool),
    w.getLsbD 25 = false → w.getLsbD 4 = false → v = s.opnd (field w 0 4) → n = (field w 7 5).toNat →
    c = psrC s.cpsr → r = s.shifterOperand (decodeOperand1 w) →
    (field w 5 2 = 0b00#2 →
      (n = 0 → r = (v, c)) ∧ (n ≠ 0 → r.1.toNat = v.toNat * 2 ^ n % 2 ^ 32 ∧ r.2 = v.getLsbD (32 - n))) ∧
    (field w 5 2 = 0b01#2 →
      decodeOperand1 w = .immShift (field w 0 4) .lsr (if n = 0 then 32 else n) ∧
      (n = 0 → r = (0#32, v.getLsbD 31)) ∧
      (n ≠ 0 → r.1.toNat = v.toNat / 2 ^ n ∧ r.2 = v.getLsbD (n - 1))) ∧
    (field w 5 2 = 0b10#2 →
      decodeOperand1 w = .immShift (field w 0 4) .asr (if n = 0 then 32 else n) ∧
      (n = 0 → r = (if v.getLsbD 31 then 0xFFFFFFFF#32 else 0#32, v.getLsbD 31)) ∧
      (n ≠ 0 → r.1.toInt = v.toInt / 2 ^ n ∧ r.2 = v.getLsbD (n - 1))) ∧
    (field w 5 2 = 0b11#2 →
      (n = 0 → r.1.toNat = (if c then 2 ^ 31 else 0) + v.toNat / 2 ∧ r.2 = v.getLsbD 0) ∧
      (n ≠ 0 → (∀ i < 32, r.1.getLsbD i = v.getLsbD ((i + n) % 32)) ∧ r.2 = v.getLsbD (n - 1)))

/-- R99, R101, R103, R105: the shifter operand and its carry for a word with I = 0, bit 7 = 0 and bit 4 = 1: Rm shifted by
the low byte of Rs. -/
def Obligations.ShiftByRegister : Prop :=
  ∀ (s : State) (w v : Word) (n : Nat) (c : Bool) (r : Word × Bool),
    w.getLsbD 25 = false → w.getLsbD 7 = false → w.getLsbD 4 = true → v = s.reg (field w 0 4) →
    n = (s.reg (field w 8 4)).toNat % 256 → c = psrC s.cpsr → r = s.shifterOperand (decodeOperand1 w) →
    (n = 0 → r = (v, c)) ∧
    (field w 5 2 = 0b00#2 →
      (0 < n → n < 32 → r.1.toNat = v.toNat * 2 ^ n % 2 ^ 32 ∧ r.2 = v.getLsbD (32 - n)) ∧
      (n = 32 → r = (0#32, v.getLsbD 0)) ∧ (32 < n → r = (0#32, false))) ∧
    (field w 5 2 = 0b01#2 →
      (0 < n → n < 32 → r.1.toNat = v.toNat / 2 ^ n ∧ r.2 = v.getLsbD (n - 1)) ∧
      (n = 32 → r = (0#32, v.getLsbD 31)) ∧ (32 < n → r = (0#32, false))) ∧
    (field w 5 2 = 0b10#2 →
      (0 < n → n < 32 → r.1.toInt = v.toInt / 2 ^ n ∧ r.2 = v.getLsbD (n - 1)) ∧
      (32 ≤ n → r = (if v.getLsbD 31 then 0xFFFFFFFF#32 else 0#32, v.getLsbD 31))) ∧
    (field w 5 2 = 0b11#2 →
      (0 < n → n % 32 = 0 → r = (v, v.getLsbD 31)) ∧
      (0 < n % 32 → (∀ i < 32, r.1.getLsbD i = v.getLsbD ((i + n % 32) % 32)) ∧ r.2 = v.getLsbD (n % 32 - 1)))

/-- R96: the shifter operand and its carry for a word with I = 1: the eight-bit immediate rotated right by twice the rotate
field. -/
def Obligations.ImmediateOperand : Prop :=
  ∀ (s : State) (w : Word) (n : Nat) (r : Word × Bool),
    w.getLsbD 25 = true → n = (field w 8 4).toNat → r = s.shifterOperand (decodeOperand1 w) →
    (∀ i < 32, r.1.getLsbD i = (field w 0 8).getLsbD ((i + 2 * n) % 32)) ∧
      r.2 = (if n = 0 then psrC s.cpsr else r.1.msb)

/-! ## Store word and byte -/

/-- R109 to R112: the offset of a store word by its bits, and the address and the written-back value of the three index kinds,
modulo 2^32. -/
def Obligations.StoreAddressing : Prop :=
  ∀ (s : State) (w v offset : Word) (n : Nat) (up : Bool) (rn : RegNum),
    v = s.reg (field w 0 4) → n = (field w 7 5).toNat → offset = s.offset2 (decodeOffset2 w) →
    (w.getLsbD 25 = false → offset.toNat = (field w 0 12).toNat) ∧
    (w.getLsbD 25 = true → field w 4 8 = 0#8 → offset = v) ∧
    (w.getLsbD 25 = true → field w 5 2 = 0b00#2 → offset.toNat = v.toNat * 2 ^ n % 2 ^ 32) ∧
    (w.getLsbD 25 = true → field w 5 2 = 0b01#2 → offset.toNat = (if n = 0 then 0 else v.toNat / 2 ^ n)) ∧
    (w.getLsbD 25 = true → field w 5 2 = 0b10#2 →
      offset.toInt = (if n = 0 then (if v.msb then -1 else 0) else v.toInt / 2 ^ n)) ∧
    (w.getLsbD 25 = true → field w 5 2 = 0b11#2 → n = 0 →
      offset.toNat = (if psrC s.cpsr then 2 ^ 31 else 0) + v.toNat / 2) ∧
    (w.getLsbD 25 = true → field w 5 2 = 0b11#2 → n ≠ 0 →
      ∀ i < 32, offset.getLsbD i = v.getLsbD ((i + n) % 32)) ∧
    (∀ idx : Word,
      idx.toNat = (if up then (s.opnd rn).toNat + offset.toNat else 2 ^ 32 + (s.opnd rn).toNat - offset.toNat) % 2 ^ 32 →
      s.address2 .offset up rn (decodeOffset2 w) = idx ∧ s.writeback2 .offset up rn (decodeOffset2 w) = none ∧
      s.address2 .preIndexed up rn (decodeOffset2 w) = idx ∧
      s.writeback2 .preIndexed up rn (decodeOffset2 w) = some (rn, idx) ∧
      s.address2 .postIndexed up rn (decodeOffset2 w) = s.opnd rn ∧
      s.writeback2 .postIndexed up rn (decodeOffset2 w) = some (rn, idx))

/-- R170, R54, R112: STR stores Rd in the word at its address, the low two bits ignored, and writes the base register back in
the pre- and post-indexed kinds. -/
def Obligations.StrResult : Prop :=
  ∀ (cond : Cond) (index : Index2) (up : Bool) (rn rd : RegNum) (offset : Offset2) (s : State),
    s.condPassed cond = true → s.hasNext →
    offset2Rm offset ≠ some 15#4 → (index ≠ .offset → rn ≠ 15#4 ∧ offset2Rm offset ≠ some rn ∧ rd ≠ rn) →
    s.wordAllowed s.privilege .write (s.address2 index up rn offset) →
    ∃ t, exec (.str cond index up rn rd offset) s = .next t ∧
      blockStored s t (s.address2 index up rn offset) [s.stval rd] ∧
      (index = .offset → t.regs = s.regs) ∧
      (index ≠ .offset → t.reg rn = s.idx2 up rn offset ∧ regsKeptBut s t [rn]) ∧
      t.cpsr = s.cpsr ∧ specialKept s t ∧ wentOn s t

/-- R171, R112: STRB stores the low byte of Rd in the byte at its address and writes the base register back in the pre- and
post-indexed kinds. -/
def Obligations.StrbResult : Prop :=
  ∀ (cond : Cond) (index : Index2) (up : Bool) (rn rd : RegNum) (offset : Offset2) (s : State) (addr : Word),
    s.condPassed cond = true → s.hasNext → rd ≠ 15#4 →
    offset2Rm offset ≠ some 15#4 → (index ≠ .offset → rn ≠ 15#4 ∧ offset2Rm offset ≠ some rn ∧ rd ≠ rn) →
    addr = s.address2 index up rn offset → s.byteAllowed s.privilege .write addr →
    ∃ t, exec (.strb cond index up rn rd offset) s = .next t ∧
      t.mem.read addr.toNat = some ((s.reg rd).extractLsb' 0 8) ∧ memKeptOutside s t addr.toNat 1 ∧
      storedGrows s t (alignWord addr).toNat 1 ∧
      (index = .offset → t.regs = s.regs) ∧
      (index ≠ .offset → t.reg rn = s.idx2 up rn offset ∧ regsKeptBut s t [rn]) ∧
      t.cpsr = s.cpsr ∧ specialKept s t ∧ wentOn s t

/-- R172, R57: STRT stores Rd in the word at the base register with User privilege whatever the mode, and always writes the
base register back. -/
def Obligations.StrtResult : Prop :=
  ∀ (cond : Cond) (up : Bool) (rn rd : RegNum) (offset : Offset2) (s : State),
    s.condPassed cond = true → s.hasNext →
    rn ≠ 15#4 → offset2Rm offset ≠ some 15#4 → offset2Rm offset ≠ some rn → rd ≠ rn →
    s.wordAllowed .user .write (s.reg rn) →
    ∃ t, exec (.strt cond up rn rd offset) s = .next t ∧
      blockStored s t (s.reg rn) [s.stval rd] ∧
      t.reg rn = s.idx2 up rn offset ∧ regsKeptBut s t [rn] ∧
      t.cpsr = s.cpsr ∧ specialKept s t ∧ wentOn s t

/-- R113, R171, R174, R175, R178 (UNPREDICTABLE, faults by decision D10): the register restrictions of STR, STRB and STRT in
the order in which they are tested. -/
def Obligations.StoreStops : Prop :=
  ∀ (cond : Cond) (index : Index2) (up : Bool) (rn rd : RegNum) (offset : Offset2) (s : State),
    s.condPassed cond = true →
    exec (.strb cond index up rn 15#4 offset) s = .fault .r15Operand ∧
    (index ≠ .offset → rn = 15#4 →
      exec (.str cond index up rn rd offset) s = .fault .r15Base ∧
      (rd ≠ 15#4 → exec (.strb cond index up rn rd offset) s = .fault .r15Base)) ∧
    (rn = 15#4 → exec (.strt cond up rn rd offset) s = .fault .r15Base) ∧
    ((index ≠ .offset → rn ≠ 15#4) → offset2Rm offset = some 15#4 →
      exec (.str cond index up rn rd offset) s = .fault .r15Operand ∧
      exec (.strb cond index up rn rd offset) s = .fault .r15Operand ∧
      (rn ≠ 15#4 → exec (.strt cond up rn rd offset) s = .fault .r15Operand)) ∧
    (rn ≠ 15#4 → offset2Rm offset = some rn →
      (index ≠ .offset →
        exec (.str cond index up rn rd offset) s = .fault .operandRestriction ∧
        (rd ≠ 15#4 → exec (.strb cond index up rn rd offset) s = .fault .operandRestriction)) ∧
      exec (.strt cond up rn rd offset) s = .fault .operandRestriction) ∧
    (rn ≠ 15#4 → offset2Rm offset ≠ some 15#4 → offset2Rm offset ≠ some rn → rd = rn →
      (index ≠ .offset →
        exec (.str cond index up rn rd offset) s = .fault .rdEqualsRnWriteback ∧
        exec (.strb cond index up rn rd offset) s = .fault .rdEqualsRnWriteback) ∧
      exec (.strt cond up rn rd offset) s = .fault .rdEqualsRn)

/-- R177, R226, R232: a store whose access the alignment check or the memory system turns away stores nothing and takes a
Data Abort; the base register follows the abort model (log entry 7). -/
def Obligations.StoreAborts : Prop :=
  ∀ (cond : Cond) (index : Index2) (up : Bool) (rn rd : RegNum) (offset : Offset2) (s : State),
    s.condPassed cond = true → offset2Rm offset ≠ some 15#4 →
    (index ≠ .offset → rn ≠ 15#4 ∧ offset2Rm offset ≠ some rn ∧ rd ≠ rn) →
    (¬ s.wordAllowed s.privilege .write (s.address2 index up rn offset) →
      ∃ t, exec (.str cond index up rn rd offset) s = .next t ∧ tookDataAbort s t ∧ storesNothing s t ∧
        regsAfterAbort s t (s.writeback2 index up rn offset)) ∧
    (rd ≠ 15#4 → ¬ s.byteAllowed s.privilege .write (s.address2 index up rn offset) →
      ∃ t, exec (.strb cond index up rn rd offset) s = .next t ∧ tookDataAbort s t ∧ storesNothing s t ∧
        regsAfterAbort s t (s.writeback2 index up rn offset)) ∧
    (index = .postIndexed → ¬ s.wordAllowed .user .write (s.reg rn) →
      ∃ t, exec (.strt cond up rn rd offset) s = .next t ∧ tookDataAbort s t ∧ storesNothing s t ∧
        regsAfterAbort s t (some (rn, s.idx2 up rn offset)))

/-! ## Store multiple -/

/-- R116, R117: the start address, the end address and the written-back value of the four modes, for a list of `n` registers,
modulo 2^32. -/
def Obligations.MultipleAddresses : Prop :=
  ∀ (base : Word) (list : BitVec 16) (n : Word),
    n = BitVec.ofNat 32 (listCount list) →
    start4 .ia base list = base ∧ final4 .ia base list = base + 4#32 * n ∧
    start4 .ib base list = base + 4#32 ∧ final4 .ib base list = base + 4#32 * n ∧
    start4 .da base list = base - 4#32 * n + 4#32 ∧ final4 .da base list = base - 4#32 * n ∧
    start4 .db base list = base - 4#32 * n ∧ final4 .db base list = base - 4#32 * n ∧
    start4 .ia base list + 4#32 * n - 4#32 = base + 4#32 * n - 4#32 ∧
    start4 .ib base list + 4#32 * n - 4#32 = base + 4#32 * n ∧
    start4 .da base list + 4#32 * n - 4#32 = base ∧
    start4 .db base list + 4#32 * n - 4#32 = base - 4#32

/-- R160, R162, R163: STM (1) stores the registers of its list at rising addresses, lowest register first, with W = 1 writes
the base register back, and changes nothing else. The stored base register is its original value. -/
def Obligations.Stm1Result : Prop :=
  ∀ (cond : Cond) (mode : Mode4) (writeback : Bool) (rn : RegNum) (list : BitVec 16) (s : State),
    s.condPassed cond = true → s.hasNext → rn ≠ 15#4 → list ≠ 0#16 →
    (writeback = true → list.getLsbD rn.toNat = true → ∀ j < rn.toNat, list.getLsbD j = false) →
    s.blockAllowed (start4 mode (s.reg rn) list) (listCount list) →
    ∃ t ws, exec (.stm1 cond mode writeback rn list) s = .next t ∧
      ws.length = listCount list ∧
      (∀ j < 16, list.getLsbD j = true → ws[listRank list j]? = some (s.stval (BitVec.ofNat 4 j))) ∧
      blockStored s t (start4 mode (s.reg rn) list) ws ∧
      (writeback = false → t.regs = s.regs) ∧
      (writeback = true → t.reg rn = final4 mode (s.reg rn) list ∧ regsKeptBut s t [rn]) ∧
      t.cpsr = s.cpsr ∧ specialKept s t ∧ wentOn s t

/-- R162: STM (1) whose base register is in its list: with writeback and a lower register in the list too, a fault; else the
word stored for the base register is its original value. -/
def Obligations.Stm1BaseNotLowest : Prop :=
  ∀ (cond : Cond) (mode : Mode4) (writeback : Bool) (rn : RegNum) (list : BitVec 16) (s : State),
    s.condPassed cond = true → rn ≠ 15#4 → list.getLsbD rn.toNat = true →
    (writeback = true → (∃ j < rn.toNat, list.getLsbD j = true) →
      exec (.stm1 cond mode writeback rn list) s = .fault .baseInListNotLowest) ∧
    (¬ (writeback = true ∧ ∃ j < rn.toNat, list.getLsbD j = true) → s.hasNext →
      s.blockAllowed (start4 mode (s.reg rn) list) (listCount list) →
      ∃ t, exec (.stm1 cond mode writeback rn list) s = .next t ∧
        t.mem.readWord s.config.bigEndian
            ((alignWord (start4 mode (s.reg rn) list)).toNat + 4 * listRank list rn.toNat) = some (s.reg rn))

/-- R161, R163, R168: STM (2) stores the User mode registers of its list; the base register is the current mode's; no
register is changed, and the next instruction is restricted (R268). -/
def Obligations.Stm2Result : Prop :=
  ∀ (cond : Cond) (mode : Mode4) (rn : RegNum) (list : BitVec 16) (s : State),
    s.condPassed cond = true → s.hasNext → s.mode ≠ some .user → s.mode ≠ some .system → rn ≠ 15#4 → list ≠ 0#16 →
    s.blockAllowed (start4 mode (s.reg rn) list) (listCount list) →
    ∃ t ws, exec (.stm2 cond mode false rn list) s = .next t ∧
      ws.length = listCount list ∧
      (∀ j < 16, list.getLsbD j = true → ws[listRank list j]? = some (s.userStval (BitVec.ofNat 4 j))) ∧
      blockStored s t (start4 mode (s.reg rn) list) ws ∧
      t.regs = s.regs ∧ t.cpsr = s.cpsr ∧ specialKept s t ∧ t.pc = s.pc + 4#32 ∧ t.afterStm2 = true

/-- R160, R161, R162, R167, R29 (UNPREDICTABLE, faults by decisions D10 and D22): where STM (1) and STM (2) stop, in the order
of the tests. -/
def Obligations.StmStops : Prop :=
  ∀ (cond : Cond) (mode : Mode4) (w : Bool) (rn : RegNum) (list : BitVec 16) (s : State),
    s.condPassed cond = true →
    (rn = 15#4 → exec (.stm1 cond mode w rn list) s = .fault .r15Base) ∧
    (rn ≠ 15#4 → list = 0#16 → exec (.stm1 cond mode w rn list) s = .fault .emptyRegisterList) ∧
    (rn ≠ 15#4 → w = true → list.getLsbD rn.toNat = true → (∃ j < rn.toNat, list.getLsbD j = true) →
      exec (.stm1 cond mode w rn list) s = .fault .baseInListNotLowest) ∧
    ((s.mode = some .user ∨ s.mode = some .system) →
      exec (.stm2 cond mode w rn list) s = .fault .stmUserRegsInUserOrSystem) ∧
    (s.mode ≠ some .user → s.mode ≠ some .system →
      (w = true → exec (.stm2 cond mode w rn list) s = .fault .stm2Writeback) ∧
      (w = false → rn = 15#4 → exec (.stm2 cond mode w rn list) s = .fault .r15Base) ∧
      (w = false → rn ≠ 15#4 → list = 0#16 → exec (.stm2 cond mode w rn list) s = .fault .emptyRegisterList)) ∧
    (rn ≠ 15#4 → list ≠ 0#16 →
      ¬ (s.config.alignCheck = true ∧ misaligned (start4 mode (s.reg rn) list) = true) →
      2 ^ 32 < (alignWord (start4 mode (s.reg rn) list)).toNat + 4 * listCount list →
      ((w = true → list.getLsbD rn.toNat = true → ∀ j < rn.toNat, list.getLsbD j = false) →
        exec (.stm1 cond mode w rn list) s = .fault .addressWrap) ∧
      (s.mode ≠ some .user → s.mode ≠ some .system → w = false →
        exec (.stm2 cond mode w rn list) s = .fault .addressWrap))

/-- R165, R226, R232, R233: an STM one of whose words is turned away takes a Data Abort. Refused words and bytes outside the
block are unchanged, the base register of STM (1) follows the abort model (log entry 7), and nothing is said of the
other words, which hold free values (log entry 11). -/
def Obligations.StmAborts : Prop :=
  ∀ (cond : Cond) (mode : Mode4) (w : Bool) (rn : RegNum) (list : BitVec 16) (s : State),
    s.condPassed cond = true → rn ≠ 15#4 → list ≠ 0#16 →
    s.blockRefused (start4 mode (s.reg rn) list) (listCount list) →
    ((w = true → list.getLsbD rn.toNat = true → ∀ j < rn.toNat, list.getLsbD j = false) →
      ∃ t, exec (.stm1 cond mode w rn list) s = .next t ∧ tookDataAbort s t ∧
      regsAfterAbort s t (if w then some (rn, final4 mode (s.reg rn) list) else none) ∧
      memAfterAbort s t (start4 mode (s.reg rn) list) (listCount list) ∧ t.coprocs = s.coprocs) ∧
    (s.mode ≠ some .user → s.mode ≠ some .system → w = false →
      ∃ t, exec (.stm2 cond mode w rn list) s = .next t ∧ tookDataAbort s t ∧ regsAfterAbort s t none ∧
        memAfterAbort s t (start4 mode (s.reg rn) list) (listCount list) ∧ t.coprocs = s.coprocs)

/-! ## Coprocessor stores -/

/-- R119 to R123: the start address and the written-back value of the four forms of addressing mode 5, modulo 2^32. -/
def Obligations.CoprocessorAddresses : Prop :=
  ∀ (s : State) (rn : RegNum) (offset8 : BitVec 8) (up : Bool) (idx : Word),
    idx.toNat = (if up then (s.opnd rn).toNat + 4 * offset8.toNat
      else 2 ^ 32 + (s.opnd rn).toNat - 4 * offset8.toNat) % 2 ^ 32 →
    s.mode5 (.offset up) rn offset8 = (idx, none) ∧
    s.mode5 (.preIndexed up) rn offset8 = (idx, some (rn, idx)) ∧
    s.mode5 (.postIndexed up) rn offset8 = (s.opnd rn, some (rn, idx)) ∧
    s.mode5 .unindexed rn offset8 = (s.opnd rn, none)

/-- R150, R151, R154, R155: an STC whose condition passes, and an STC2 from version 5 on, that the named coprocessor accepts:
the coprocessor, handed the instruction word, supplies the words, they are stored from the start address on, its state and
the base register are updated, and nothing else changes. A coprocessor is a table of rows; the words and the next state are
those of the first row that fits the word and the coprocessor's state (log entry 14). -/
def Obligations.StcResult : Prop :=
  ∀ (i : Instr) (index : Index5) (long : Bool) (rn : RegNum) (crd cp : BitVec 4) (offset8 : BitVec 8) (s : State)
    (ws : List Word) (next : Nat),
    (∃ cond, i = .stc cond index long rn crd cp offset8 ∧ s.condPassed cond = true) ∨
      (i = .stc2 index long rn crd cp offset8 ∧ 5 ≤ s.config.arch.version) →
    s.hasNext → s.accepts cp (encode i) ws next → (writesBack5 index = true → rn ≠ 15#4) →
    s.blockAllowed (s.mode5 index rn offset8).1 ws.length →
    ∃ t, exec i s = .next t ∧
      blockStored s t (s.mode5 index rn offset8).1 ws ∧
      (∀ k (h : k < 16), t.coprocs[k] =
        if k = cp.toNat then s.coprocs[k].map fun device => { device with state := next } else s.coprocs[k]) ∧
      (writesBack5 index = false → t.regs = s.regs) ∧
      (writesBack5 index = true → (s.mode5 index rn offset8).2 = some (rn, t.reg rn) ∧ regsKeptBut s t [rn]) ∧
      t.cpsr = s.cpsr ∧ t.spsrs = s.spsrs ∧ t.inputs = s.inputs ∧ t.config = s.config ∧ t.freeCount = s.freeCount ∧
      wentOn s t

/-- R130, R152, R157, R224: an STC or STC2 whose coprocessor is absent or has no row for the instruction in its state (a
coprocessor is a table of rows: log entry 14) takes the Undefined Instruction exception, whatever its address, and has no
other effect, but that an entry ends the restriction of R268 (log entry 23). With writeback to R15 too: R150 asks the
coprocessor before addressing mode 5 may fault (log entry 17). -/
def Obligations.StcUndefined : Prop :=
  ∀ (i : Instr) (index : Index5) (long : Bool) (rn : RegNum) (crd cp : BitVec 4) (offset8 : BitVec 8) (s : State),
    (∃ cond, i = .stc cond index long rn crd cp offset8 ∧ s.condPassed cond = true) ∨
      (i = .stc2 index long rn crd cp offset8 ∧ 5 ≤ s.config.arch.version) →
    (∀ device, s.coprocs[cp.toNat] = some device →
      ∀ row ∈ device.rows, ¬ (row.state = device.state ∧ encode i &&& row.mask = row.value)) →
    ∃ t, exec i s = .next t ∧ t.mode = some .undefined ∧ t.reg 14#4 = s.pc + 4#32 ∧ t.spsr = some s.cpsr ∧
      psrT t.cpsr = false ∧ psrI t.cpsr = true ∧ psrF t.cpsr = psrF s.cpsr ∧
      t.cpsr.extractLsb' 8 24 = s.cpsr.extractLsb' 8 24 ∧
      t.pc = (if s.config.highVectors then 0xFFFF0004#32 else 0x00000004#32) ∧
      (∀ k : Fin 30, k ≠ physIndex (some .undefined) 14#4 → t.regs[k.val] = s.regs[k.val]) ∧
      (∀ k : Fin 5, k ≠ 2 → t.spsrs[k.val] = s.spsrs[k.val]) ∧
      storesNothing s t ∧ t.coprocs = s.coprocs ∧ t.inputs = s.inputs ∧ t.config = s.config ∧
      t.freeCount = s.freeCount ∧ t.afterStm2 = false

/-- R156, R226, R232 to R234: an accepted STC or STC2 one of whose words is turned away takes a Data Abort; the base register
follows the abort model (log entry 7) and the coprocessor's state is the old or the new one (log entry 8). -/
def Obligations.StcAborts : Prop :=
  ∀ (i : Instr) (index : Index5) (long : Bool) (rn : RegNum) (crd cp : BitVec 4) (offset8 : BitVec 8) (s : State)
    (ws : List Word) (next : Nat),
    (∃ cond, i = .stc cond index long rn crd cp offset8 ∧ s.condPassed cond = true) ∨
      (i = .stc2 index long rn crd cp offset8 ∧ 5 ≤ s.config.arch.version) →
    s.accepts cp (encode i) ws next → (writesBack5 index = true → rn ≠ 15#4) →
    s.blockRefused (s.mode5 index rn offset8).1 ws.length →
    ∃ t, exec i s = .next t ∧ tookDataAbort s t ∧ regsAfterAbort s t (s.mode5 index rn offset8).2 ∧
      memAfterAbort s t (s.mode5 index rn offset8).1 ws.length ∧
      (Config.coprocAfterAbort = .old ∧ t.coprocs = s.coprocs ∨
        Config.coprocAfterAbort = .new ∧ ∀ k (h : k < 16), t.coprocs[k] =
          if k = cp.toNat then s.coprocs[k].map fun device => { device with state := next } else s.coprocs[k])

/-- R121, R122, R150, R29, R90 (UNPREDICTABLE, faults by decisions D10, D21 and D22): STC2 before version 5, and an accepted
STC or STC2 with writeback to R15 (log entry 17) or whose words cross the top of the address space. -/
def Obligations.StcStops : Prop :=
  ∀ (i : Instr) (index : Index5) (long : Bool) (rn : RegNum) (crd cp : BitVec 4) (offset8 : BitVec 8) (s : State),
    (s.config.arch.version < 5 → exec (.stc2 index long rn crd cp offset8) s = .fault .condNV) ∧
    ((∃ cond, i = .stc cond index long rn crd cp offset8 ∧ s.condPassed cond = true) ∨
      (i = .stc2 index long rn crd cp offset8 ∧ 5 ≤ s.config.arch.version) →
      ∀ (ws : List Word) (next : Nat), s.accepts cp (encode i) ws next →
        (writesBack5 index = true → rn = 15#4 → exec i s = .fault .r15Base) ∧
        ((writesBack5 index = true → rn ≠ 15#4) →
          ¬ (s.config.alignCheck = true ∧ misaligned (s.mode5 index rn offset8).1 = true) →
          2 ^ 32 < (alignWord (s.mode5 index rn offset8).1).toNat + 4 * ws.length →
          exec i s = .fault .addressWrap))

/-! ## Swap -/

/-- R205, R59, R267: SWP reads the aligned word, stores Rm there unrotated, and leaves in Rd the word read, rotated right by 8
times the low two bits of the address. -/
def Obligations.SwpResult : Prop :=
  ∀ (cond : Cond) (rn rd rm : RegNum) (s : State) (w : Word),
    s.condPassed cond = true → s.hasNext → rd ≠ 15#4 → rm ≠ 15#4 → rn ≠ 15#4 → rn ≠ rm → rn ≠ rd →
    s.wordAllowed s.privilege .read (s.reg rn) → s.wordAllowed s.privilege .write (s.reg rn) →
    s.mem.readWord s.config.bigEndian (alignWord (s.reg rn)).toNat = some w →
    ∃ t, exec (.swp cond rn rd 0#4 rm) s = .next t ∧
      (∀ i < 32, (t.reg rd).getLsbD i = w.getLsbD ((i + 8 * ((s.reg rn).toNat % 4)) % 32)) ∧
      blockStored s t (s.reg rn) [s.reg rm] ∧ regsKeptBut s t [rd] ∧
      t.cpsr = s.cpsr ∧ specialKept s t ∧ wentOn s t

/-- R206: SWPB reads the byte at the address, stores the low byte of Rm there and leaves in Rd the byte read with zeros above
it. -/
def Obligations.SwpbResult : Prop :=
  ∀ (cond : Cond) (rn rd rm : RegNum) (s : State) (b : Byte),
    s.condPassed cond = true → s.hasNext → rd ≠ 15#4 → rm ≠ 15#4 → rn ≠ 15#4 → rn ≠ rm → rn ≠ rd →
    s.byteAllowed s.privilege .read (s.reg rn) → s.byteAllowed s.privilege .write (s.reg rn) →
    s.mem.read (s.reg rn).toNat = some b →
    ∃ t, exec (.swpb cond rn rd 0#4 rm) s = .next t ∧
      (t.reg rd).toNat = b.toNat ∧ t.mem.read (s.reg rn).toNat = some ((s.reg rm).extractLsb' 0 8) ∧
      memKeptOutside s t (s.reg rn).toNat 1 ∧ storedGrows s t (alignWord (s.reg rn)).toNat 1 ∧
      regsKeptBut s t [rd] ∧ t.cpsr = s.cpsr ∧ specialKept s t ∧ wentOn s t

/-- R209, R210: a swap whose load is turned away does not store; one whose load or store is turned away does not write Rd;
each takes a Data Abort, and no register but the link register of Abort mode changes. -/
def Obligations.SwapAborts : Prop :=
  ∀ (cond : Cond) (rn rd rm : RegNum) (s : State) (w : Word) (b : Byte),
    s.condPassed cond = true → rd ≠ 15#4 → rm ≠ 15#4 → rn ≠ 15#4 → rn ≠ rm → rn ≠ rd →
    (¬ s.wordAllowed s.privilege .read (s.reg rn) ∨
      (s.mem.readWord s.config.bigEndian (alignWord (s.reg rn)).toNat = some w ∧
        ¬ s.wordAllowed s.privilege .write (s.reg rn)) →
      ∃ t, exec (.swp cond rn rd 0#4 rm) s = .next t ∧ tookDataAbort s t ∧ storesNothing s t ∧
        ∀ i : Fin 30, i ≠ physIndex (some .abort) 14#4 → t.regs[i.val] = s.regs[i.val]) ∧
    (¬ s.byteAllowed s.privilege .read (s.reg rn) ∨
      (s.mem.read (s.reg rn).toNat = some b ∧ ¬ s.byteAllowed s.privilege .write (s.reg rn)) →
      ∃ t, exec (.swpb cond rn rd 0#4 rm) s = .next t ∧ tookDataAbort s t ∧ storesNothing s t ∧
        ∀ i : Fin 30, i ≠ physIndex (some .abort) 14#4 → t.regs[i.val] = s.regs[i.val])

/-- R125, R207, R208 (UNPREDICTABLE, faults by decisions D10 and D20) and R41: where SWP and SWPB stop, in the order of the
tests; a byte that holds no value is read by neither (log entry 5). -/
def Obligations.SwapStops : Prop :=
  ∀ (cond : Cond) (rn rd : RegNum) (sbz : BitVec 4) (rm : RegNum) (s : State),
    s.condPassed cond = true →
    (∀ i ∈ [Instr.swp cond rn rd sbz rm, Instr.swpb cond rn rd sbz rm],
      ((rd = 15#4 ∨ rm = 15#4 ∨ rn = 15#4) → exec i s = .fault .r15Operand) ∧
      (rd ≠ 15#4 → rm ≠ 15#4 → rn ≠ 15#4 → (rn = rm ∨ rn = rd) → exec i s = .fault .operandRestriction) ∧
      (rd ≠ 15#4 → rm ≠ 15#4 → rn ≠ 15#4 → rn ≠ rm → rn ≠ rd → sbz ≠ 0#4 → exec i s = .fault .sbz)) ∧
    (rd ≠ 15#4 → rm ≠ 15#4 → rn ≠ 15#4 → rn ≠ rm → rn ≠ rd → sbz = 0#4 →
      (s.wordAllowed s.privilege .read (s.reg rn) →
        s.mem.readWord s.config.bigEndian (alignWord (s.reg rn)).toNat = none →
        exec (.swp cond rn rd sbz rm) s = .fault .unwrittenRead) ∧
      (s.byteAllowed s.privilege .read (s.reg rn) → s.mem.read (s.reg rn).toNat = none →
        exec (.swpb cond rn rd sbz rm) s = .fault .unwrittenRead))

/-! ## Exceptions -/

/-- R200, R201, R203: SWI, in every mode and whatever its immediate: R14_svc, SPSR_svc, the CPSR and the program counter as
the entry sequence gives them, and nothing else. -/
def Obligations.SwiResult : Prop :=
  ∀ (cond : Cond) (immed24 : BitVec 24) (s : State), s.condPassed cond = true →
    ∃ t, exec (.swi cond immed24) s = .next t ∧
      t.mode = some .supervisor ∧ t.reg 14#4 = s.pc + 4#32 ∧ t.spsr = some s.cpsr ∧
      psrT t.cpsr = false ∧ psrF t.cpsr = psrF s.cpsr ∧ psrI t.cpsr = true ∧
      t.cpsr.extractLsb' 8 24 = s.cpsr.extractLsb' 8 24 ∧
      t.pc = (if s.config.highVectors then 0xFFFF0008#32 else 0x00000008#32) ∧
      (∀ i : Fin 30, i ≠ 23 → t.regs[i.val] = s.regs[i.val]) ∧
      (∀ k : Fin 5, k ≠ 0 → t.spsrs[k.val] = s.spsrs[k.val]) ∧
      storesNothing s t ∧ t.coprocs = s.coprocs ∧ t.inputs = s.inputs ∧ t.config = s.config ∧
      t.freeCount = s.freeCount

/-- R222, with the rows of R221 for the six exceptions that enter by it: what the entry sequence writes, and that it writes
nothing else of the machine's state. The restriction of R268, which an entry ends, is no part of it (log entry 23; see
`Interrupts`). -/
def Obligations.ExceptionEntry : Prop :=
  ∀ (s : State) (e : Exc) (m : Mode) (link vector : Word) (setsF : Bool),
    (e, m, link, vector, setsF) ∈
      [(Exc.undefinedInstruction, Mode.undefined, 4#32, 0x04#32, false),
       (Exc.softwareInterrupt, Mode.supervisor, 4#32, 0x08#32, false),
       (Exc.prefetchAbort, Mode.abort, 4#32, 0x0C#32, false),
       (Exc.dataAbort, Mode.abort, 8#32, 0x10#32, false),
       (Exc.irq, Mode.irq, 4#32, 0x18#32, false),
       (Exc.fiq, Mode.fiq, 4#32, 0x1C#32, true)] →
    (s.raise e).mode = some m ∧ (s.raise e).reg 14#4 = s.pc + link ∧ (s.raise e).spsr = some s.cpsr ∧
    psrT (s.raise e).cpsr = false ∧ psrF (s.raise e).cpsr = (setsF || psrF s.cpsr) ∧
    psrI (s.raise e).cpsr = true ∧ (s.raise e).cpsr.extractLsb' 8 24 = s.cpsr.extractLsb' 8 24 ∧
    (s.raise e).pc = (if s.config.highVectors then 0xFFFF0000#32 else 0x00000000#32) + vector ∧
    (∀ i : Fin 30, i ≠ physIndex (some m) 14#4 → (s.raise e).regs[i.val] = s.regs[i.val]) ∧
    (∀ k : Fin 5, m.spsrIndex ≠ some k → (s.raise e).spsrs[k.val] = s.spsrs[k.val]) ∧
    (s.raise e).mem = s.mem ∧ (s.raise e).stored = s.stored ∧ (s.raise e).coprocs = s.coprocs ∧
    (s.raise e).inputs = s.inputs ∧ (s.raise e).config = s.config ∧ (s.raise e).freeCount = s.freeCount

/-- R236, R204: after an exception entry, SUBS PC, R14 with the constant of the exception restores the CPSR of the
interrupted program and goes on where it should; in `(e, n, k)`, `n` is the constant and `k` how far past the instruction
the program resumes. -/
def Obligations.ReturnAfterEntry : Prop :=
  ∀ (s : State), s.executable →
    ∀ p ∈ [(Exc.softwareInterrupt, 0#8, 4#32), (Exc.undefinedInstruction, 0#8, 4#32), (Exc.prefetchAbort, 4#8, 0#32),
      (Exc.dataAbort, 8#8, 0#32), (Exc.dataAbort, 4#8, 4#32), (Exc.irq, 4#8, 0#32), (Exc.fiq, 4#8, 0#32)],
      exec (.sub .al true 14#4 15#4 (.imm 0#4 p.2.1)) (s.raise p.1) =
        .next { s.raise p.1 with cpsr := s.cpsr, pc := s.pc + p.2.2 }

/-! ## Conditions -/

/-- R88: when each condition passes, on the flags of the CPSR. -/
def Obligations.ConditionTable : Prop :=
  ∀ s : State,
    (s.condPassed .eq = true ↔ psrZ s.cpsr = true) ∧ (s.condPassed .ne = true ↔ psrZ s.cpsr = false) ∧
    (s.condPassed .cs = true ↔ psrC s.cpsr = true) ∧ (s.condPassed .cc = true ↔ psrC s.cpsr = false) ∧
    (s.condPassed .mi = true ↔ psrN s.cpsr = true) ∧ (s.condPassed .pl = true ↔ psrN s.cpsr = false) ∧
    (s.condPassed .vs = true ↔ psrV s.cpsr = true) ∧ (s.condPassed .vc = true ↔ psrV s.cpsr = false) ∧
    (s.condPassed .hi = true ↔ psrC s.cpsr = true ∧ psrZ s.cpsr = false) ∧
    (s.condPassed .ls = true ↔ psrC s.cpsr = false ∨ psrZ s.cpsr = true) ∧
    (s.condPassed .ge = true ↔ psrN s.cpsr = psrV s.cpsr) ∧ (s.condPassed .lt = true ↔ psrN s.cpsr ≠ psrV s.cpsr) ∧
    (s.condPassed .gt = true ↔ psrZ s.cpsr = false ∧ psrN s.cpsr = psrV s.cpsr) ∧
    (s.condPassed .le = true ↔ psrZ s.cpsr = true ∨ psrN s.cpsr ≠ psrV s.cpsr) ∧ s.condPassed .al = true ∧
    [Cond.eq, .ne, .cs, .cc, .mi, .pl, .vs, .vc, .hi, .ls, .ge, .lt, .gt, .le, .al].map Cond.bits =
      (List.range 15).map (BitVec.ofNat 4)

/-- R12, R89, R25: an instruction whose condition fails does nothing but advance the program counter, whatever its operands,
its coprocessor and its addresses. At the last word of the address space there is no next instruction (R29, a fault by
decision D22). -/
def Obligations.FailedCondition : Prop :=
  ∀ (i : Instr) (c : Cond) (s : State), condOf i = some c → s.condPassed c = false →
    (s.hasNext → exec i s = .next { s with pc := s.pc + 4#32 }) ∧ (¬ s.hasNext → exec i s = .fault .addressWrap)

/-! ## Steps -/

/-- R12, R60, R86: where nothing disturbs it and the fetched word decodes to an instruction of the architecture version that
the hazard rule admits, a step executes that instruction; around it the step only takes the platform's sample (log entry 15)
and ends the restriction of R268. -/
def Obligations.StepRunsDecoded : Prop :=
  ∀ (s : State) (w : Word) (i : Instr),
    s.executable → s.undisturbed → s.fetches w → decode w = .instr i → availableIn s.config.arch i = true →
    (field w 28 4 = 15#4 → 5 ≤ s.config.arch.version) → ¬ (s.afterStm2 = true ∧ accessesBanked i s.mode = true) →
    step s = exec i { s with inputs := s.inputs.tail, afterStm2 := false }

/-- R227, R230: an asserted FIQ with its mask clear is taken before the instruction, else an asserted IRQ with its mask clear;
R14 of the mode entered is the address of the instruction not executed plus 4. That the inputs are a list of samples, one
for each step, is the model's choice (log entry 15), and so is that the entry ends the restriction of R268 (log entry 23). -/
def Obligations.Interrupts : Prop :=
  ∀ s : State, s.executable → s.inputNow.reset = false →
    (s.inputNow.fiq = true → psrF s.cpsr = false →
      ∃ t, step s = .next t ∧ t.mode = some .fiq ∧ t.reg 14#4 = s.pc + 4#32 ∧ t.spsr = some s.cpsr ∧
        psrF t.cpsr = true ∧ psrI t.cpsr = true ∧ psrT t.cpsr = false ∧ t.pc = s.vectorBase + 0x1C#32 ∧
        storesNothing s t ∧ t.inputs = s.inputs.tail ∧ t.afterStm2 = false) ∧
    (¬ (s.inputNow.fiq = true ∧ psrF s.cpsr = false) → s.inputNow.irq = true → psrI s.cpsr = false →
      ∃ t, step s = .next t ∧ t.mode = some .irq ∧ t.reg 14#4 = s.pc + 4#32 ∧ t.spsr = some s.cpsr ∧
        psrF t.cpsr = psrF s.cpsr ∧ psrI t.cpsr = true ∧ psrT t.cpsr = false ∧ t.pc = s.vectorBase + 0x18#32 ∧
        storesNothing s t ∧ t.inputs = s.inputs.tail ∧ t.afterStm2 = false)

/-- R225: a fetch that the memory system refuses takes a Prefetch Abort and executes nothing; a memory system that never
aborts refuses no fetch. -/
def Obligations.PrefetchAborts : Prop :=
  ∀ s : State,
    (s.executable → s.undisturbed → s.memSysAborts s.privilege .word .read s.pc = true →
      ∃ t, step s = .next t ∧ t.mode = some .abort ∧ t.reg 14#4 = s.pc + 4#32 ∧ t.spsr = some s.cpsr ∧
        t.pc = (if s.config.highVectors then 0xFFFF000C#32 else 0x0000000C#32) ∧
        (∀ i : Fin 30, i ≠ physIndex (some .abort) 14#4 → t.regs[i.val] = s.regs[i.val]) ∧
        storesNothing s t ∧ t.coprocs = s.coprocs) ∧
    (s.config.memSys = [] → s.fetch ≠ .aborted)

/-- R268 (decision D29): directly after an STM (2), an instruction that accesses banked registers is a fault whether or not its
condition passes; which instructions those are is read from the register fields and the register list of the word. -/
def Obligations.HazardAfterStm2 : Prop :=
  ∀ (s : State) (w : Word) (i : Instr),
    s.executable → s.undisturbed → s.fetches w → decode w = .instr i → availableIn s.config.arch i = true →
    (field w 28 4 = 15#4 → 5 ≤ s.config.arch.version) → s.afterStm2 = true →
    ((∃ c n, i = .swi c n) ∨ (∃ c rn o, i = .sub c true rn 15#4 o) ∨
      (∃ r, namesRegister i w r ∧ (r = 13#4 ∨ r = 14#4 ∨ (s.mode = some .fiq ∧ 8 ≤ r.toNat ∧ r.toNat ≤ 12))) →
      step s = .fault .bankedAfterStm2) ∧
    (¬ ((∃ c n, i = .swi c n) ∨ (∃ c rn o, i = .sub c true rn 15#4 o) ∨
      (∃ r, namesRegister i w r ∧ (r = 13#4 ∨ r = 14#4 ∨ (s.mode = some .fiq ∧ 8 ≤ r.toNat ∧ r.toNat ≤ 12)))) →
      step s = exec i { s with inputs := s.inputs.tail, afterStm2 := false })

/-- R90, R132, R2 (decisions D11 and D21): the fetched words that no step executes. Condition field 0b1111 is a fault before
version 5; a word that the decoder gives no instruction for, with that field or another, and the word of an instruction
that the architecture version lacks (log entry 25), are refused as not in the spec. -/
def Obligations.UnconditionalSpace : Prop :=
  ∀ (s : State) (w : Word),
    s.executable → s.undisturbed → s.fetches w →
    (field w 28 4 = 15#4 → s.config.arch.version < 5 → step s = .fault .condNV) ∧
    ((field w 28 4 = 15#4 → 5 ≤ s.config.arch.version) → (∀ i, decode w ≠ .instr i) →
      ∃ why, decode w = .rejected why ∧ step s = .refused (.notInSpec why)) ∧
    (field w 28 4 = 15#4 → 5 ≤ s.config.arch.version → (∀ x n rn crd cp off, decode w ≠ .instr (.stc2 x n rn crd cp off)) →
      ∃ why, step s = .refused (.notInSpec why)) ∧
    (∀ i, decode w = .instr i →
      ((s.config.arch.mVariant = false ∧
          ((∃ c sf hi lo rs rm, i = .smull c sf hi lo rs rm) ∨ (∃ c sf hi lo rs rm, i = .umlal c sf hi lo rs rm))) ∨
        (s.config.arch.version < 2 ∧ ∃ c x n rn crd cp off, i = .stc c x n rn crd cp off) ∨
        (s.config.arch.version < 3 ∧
          ((∃ c rn rd z rm, i = .swp c rn rd z rm) ∨ (∃ c rn rd z rm, i = .swpb c rn rd z rm)))) →
      step s = .refused (.notInSpec .notInVersion))

/-- The states in which no instruction is executed. R71 (decision D16) and R41 (log entry 5) stop a fetch; that R71 is tested
first is the model's choice (log entry 35). R35 (decisions D12, D26) and R60 (decision D25) keep steps from reaching the
states of the first three clauses; that a step which begins in one stops, in this order and before the platform's inputs, is
the model's choice (log entry 19). -/
def Obligations.StepStops : Prop :=
  ∀ s : State,
    (psrT s.cpsr = true → step s = .refused .thumbState) ∧
    (psrT s.cpsr = false → s.mode = none → step s = .fault .badMode) ∧
    (psrT s.cpsr = false → s.mode ≠ none → misaligned s.pc = true → step s = .fault .unalignedPC) ∧
    (s.executable → s.undisturbed → s.memSysAborts s.privilege .word .read s.pc = false →
      (s.pc.toNat ∈ s.stored → step s = .refused .fetchAfterStore) ∧
      (s.pc.toNat ∉ s.stored → s.mem.readWord s.config.bigEndian s.pc.toNat = none →
        step s = .fault .unwrittenRead))

/-! ## The machine as a whole -/

/-- R24, R28, R35, R245: every step keeps ARM state, a legal mode, a word-aligned program counter, and memory and the record
of stores in canonical form. -/
def Obligations.StepKeepsInv : Prop :=
  ∀ s t : State, s.Inv → step s = .next t → t.Inv

/-- R40, R260: the invariant holds after reset. -/
def Obligations.InvAtReset : Prop := State.reset.Inv

/-- R40, R260 (decision D14): what the spec gives for reset, under every configuration, and that the platform's reset input
gives the same in any state that can execute, before any other input. What of the state the input leaves alone is the
model's choice (log entry 24). -/
def Obligations.ResetValues : Prop :=
  (∀ (config : MachineConfig) (coprocs : Vector (Option Coprocessor) 16) (s : State),
    s = State.resetWith config coprocs →
    s.mode = some .supervisor ∧ psrT s.cpsr = false ∧ psrF s.cpsr = true ∧ psrI s.cpsr = true ∧
      s.pc = (if config.highVectors then 0xFFFF0000#32 else 0x00000000#32) ∧ s.config = config ∧
      s.coprocs = coprocs) ∧
  (∀ s : State, s.executable → s.inputNow.reset = true →
    ∃ t, step s = .next t ∧ t.mode = some .supervisor ∧ psrT t.cpsr = false ∧ psrF t.cpsr = true ∧
      psrI t.cpsr = true ∧ t.pc = (if s.config.highVectors then 0xFFFF0000#32 else 0x00000000#32) ∧
      t.mem = s.mem ∧ t.coprocs = s.coprocs ∧ t.config = s.config)

/-- R246 (c): a step from User mode leaves bits [7:0] of the CPSR alone unless it enters an exception or the platform asserts
reset; no instruction leaves User mode otherwise. -/
def Obligations.UserModeConfined : Prop :=
  ∀ s t : State, s.mode = some .user → step s = .next t →
    t.cpsr.extractLsb' 0 8 = s.cpsr.extractLsb' 0 8 ∨ s.inputNow.reset = true ∨
      ∃ e : Exc, t.mode = some e.mode ∧ t.spsr = some s.cpsr ∧ t.pc = s.vectorBase + e.vectorOffset

/-- R193, R25: an instruction goes on at the next word, or is a SUB to R15, or enters an exception. -/
def Obligations.ControlTransfer : Prop :=
  ∀ (i : Instr) (s t : State), exec i s = .next t →
    (s.hasNext ∧ t.pc = s.pc + 4#32) ∨
    (∃ c setFlags rn operand, i = .sub c setFlags rn 15#4 operand ∧ misaligned t.pc = false) ∨
    (∃ e : Exc, t.mode = some e.mode ∧ t.spsr = some s.cpsr ∧ t.pc = s.vectorBase + e.vectorOffset)

/-- R33: an instruction that changes the CPSR is SMULL, UMLAL or SUB with S = 1, or TEQ or TST, or enters an exception; but for
a SUBS to R15 and an exception it changes nothing below the flags. -/
def Obligations.CpsrWriters : Prop :=
  ∀ (i : Instr) (s t : State), exec i s = .next t → t.cpsr ≠ s.cpsr →
    ((∃ c hi lo rs rm, i = .smull c true hi lo rs rm) ∨ (∃ c hi lo rs rm, i = .umlal c true hi lo rs rm) ∨
      (∃ c rn rd o, i = .sub c true rn rd o ∧ rd ≠ 15#4) ∨ (∃ c rn z o, i = .teq c rn z o) ∨
      (∃ c rn z o, i = .tst c rn z o)) ∧ psrKeptBelowFlags s t ∨
    (∃ c rn o, i = .sub c true rn 15#4 o) ∧ s.spsr = some t.cpsr ∨
    (∃ e : Exc, t.mode = some e.mode ∧ t.spsr = some s.cpsr ∧ t.pc = s.vectorBase + e.vectorOffset)

/-- R36, R71: no step changes the parameters of the run; a byte that a step changes lies in a word that counts as stored to
from then on, and such a word never stops counting. -/
def Obligations.StoresAreRecorded : Prop :=
  ∀ s t : State, step s = .next t →
    t.config = s.config ∧ (∀ a, t.mem.read a ≠ s.mem.read a → 4 * (a / 4) ∈ t.stored) ∧
      ∀ a ∈ s.stored, a ∈ t.stored

/-! ## Registers and bytes -/

/-- R21, R245: two register numbers below 15 name one physical register in two modes exactly where the banking table says so;
and the current mode is the one whose number the CPSR holds. R245 has System mode from version 4 on; that its number is no mode
before that is log entry 26. -/
def Obligations.RegisterBanks : Prop :=
  (∀ (m m' : Mode) (r r' : RegNum), r ≠ 15#4 → r' ≠ 15#4 →
    (physIndex (some m) r = physIndex (some m') r' ↔
      r = r' ∧ (m = m' ∨ r.toNat < 8 ∨ (r.toNat < 13 ∧ m ≠ .fiq ∧ m' ≠ .fiq) ∨
        (m ∈ [Mode.user, .system] ∧ m' ∈ [Mode.user, .system])))) ∧
  (∀ (s : State) (p : Mode × BitVec 5),
    p ∈ [(Mode.user, 0b10000#5), (.fiq, 0b10001#5), (.irq, 0b10010#5), (.supervisor, 0b10011#5), (.abort, 0b10111#5),
      (.undefined, 0b11011#5), (.system, 0b11111#5)] →
    (s.mode = some p.1 ↔ psrM s.cpsr = p.2 ∧ (p.1 = .system → 4 ≤ s.config.arch.version)))

/-- R24, R26, R27: what R15 reads as: the instruction's address plus 8 as an operand, and as store data its address plus 8 or
plus 12, the same one for every store (log entry 6); every other register reads as its value in the current mode. -/
def Obligations.RegisterReads : Prop :=
  (∀ (s : State), s.opnd 15#4 = s.pc + 8#32 ∧ s.reg 15#4 = s.pc) ∧
  (∃ k : Word, (k = 8#32 ∨ k = 12#32) ∧ ∀ s : State, s.stval 15#4 = s.pc + k ∧ s.userStval 15#4 = s.pc + k) ∧
  (∀ (s : State) (r : RegNum), r ≠ 15#4 →
    s.opnd r = s.reg r ∧ s.stval r = s.reg r ∧ s.reg r = s.regs[(physIndex s.mode r).val] ∧
      s.userStval r = s.regs[(physIndex (some .user) r).val])

/-- R53: the word that four bytes make in the two byte orders, the bytes that a word is stored as, and the spec's example of a
byte stored into a zeroed word. -/
def Obligations.BytesOfWord : Prop :=
  (∀ b0 b1 b2 b3 : Byte,
    (wordOfBytes false b0 b1 b2 b3).toNat = b0.toNat + 2 ^ 8 * b1.toNat + 2 ^ 16 * b2.toNat + 2 ^ 24 * b3.toNat ∧
    (wordOfBytes true b0 b1 b2 b3).toNat = b3.toNat + 2 ^ 8 * b2.toNat + 2 ^ 16 * b1.toNat + 2 ^ 24 * b0.toNat) ∧
  (∀ (m : Memory) (bigEndian : Bool) (a : Nat) (w : Word),
    (m.writeWord bigEndian a w).readWord bigEndian a = some w ∧
    ∀ x, x < a ∨ a + 4 ≤ x → (m.writeWord bigEndian a w).read x = m.read x) ∧
  (∀ (m : Memory) (a : Nat),
    ((m.writeWord false a 0#32).write (a + 1) 0xAB#8).readWord false a = some 0x0000AB00#32 ∧
    ((m.writeWord true a 0#32).write (a + 1) 0xAB#8).readWord true a = some 0x00AB0000#32)

end
end

