-- ==== Sys2Proof/Laws/State.lean ====
section
/-!
SUPPORT. What each update of the state leaves alone: one simp lemma per field per update, so that no later proof unfolds a
record update.
-/

namespace Sys2Proof.Machine

variable (s : State)


/-! ## `setReg` -/

theorem State.setReg_of_ne (r : RegNum) (v : Word) (h : r ≠ 15#4) :
    s.setReg r v = { s with regs := s.regs.set (physIndex s.mode r).val v } := by
  simp [State.setReg, h]

theorem State.setReg_pcReg (v : Word) : s.setReg 15#4 v = { s with pc := v } := rfl

@[simp] theorem State.setReg_cpsr (r : RegNum) (v : Word) : (s.setReg r v).cpsr = s.cpsr := by
  unfold State.setReg; split <;> rfl

@[simp] theorem State.setReg_spsrs (r : RegNum) (v : Word) : (s.setReg r v).spsrs = s.spsrs := by
  unfold State.setReg; split <;> rfl

@[simp] theorem State.setReg_mem (r : RegNum) (v : Word) : (s.setReg r v).mem = s.mem := by
  unfold State.setReg; split <;> rfl

@[simp] theorem State.setReg_stored (r : RegNum) (v : Word) : (s.setReg r v).stored = s.stored := by
  unfold State.setReg; split <;> rfl

@[simp] theorem State.setReg_afterStm2 (r : RegNum) (v : Word) : (s.setReg r v).afterStm2 = s.afterStm2 := by
  unfold State.setReg; split <;> rfl

@[simp] theorem State.setReg_coprocs (r : RegNum) (v : Word) : (s.setReg r v).coprocs = s.coprocs := by
  unfold State.setReg; split <;> rfl

@[simp] theorem State.setReg_inputs (r : RegNum) (v : Word) : (s.setReg r v).inputs = s.inputs := by
  unfold State.setReg; split <;> rfl

@[simp] theorem State.setReg_config (r : RegNum) (v : Word) : (s.setReg r v).config = s.config := by
  unfold State.setReg; split <;> rfl

@[simp] theorem State.setReg_freeCount (r : RegNum) (v : Word) : (s.setReg r v).freeCount = s.freeCount := by
  unfold State.setReg; split <;> rfl

theorem State.setReg_pc (r : RegNum) (v : Word) (h : r ≠ 15#4) : (s.setReg r v).pc = s.pc := by
  rw [s.setReg_of_ne r v h]

theorem State.setReg_regs (r : RegNum) (v : Word) (h : r ≠ 15#4) :
    (s.setReg r v).regs = s.regs.set (physIndex s.mode r).val v := by
  rw [s.setReg_of_ne r v h]


/-! ## `setSpsrOf` -/

@[simp] theorem State.setSpsrOf_regs (m : Mode) (v : Word) : (s.setSpsrOf m v).regs = s.regs := by
  unfold State.setSpsrOf; split <;> rfl

@[simp] theorem State.setSpsrOf_pc (m : Mode) (v : Word) : (s.setSpsrOf m v).pc = s.pc := by
  unfold State.setSpsrOf; split <;> rfl

@[simp] theorem State.setSpsrOf_cpsr (m : Mode) (v : Word) : (s.setSpsrOf m v).cpsr = s.cpsr := by
  unfold State.setSpsrOf; split <;> rfl

@[simp] theorem State.setSpsrOf_mem (m : Mode) (v : Word) : (s.setSpsrOf m v).mem = s.mem := by
  unfold State.setSpsrOf; split <;> rfl

@[simp] theorem State.setSpsrOf_stored (m : Mode) (v : Word) : (s.setSpsrOf m v).stored = s.stored := by
  unfold State.setSpsrOf; split <;> rfl

@[simp] theorem State.setSpsrOf_afterStm2 (m : Mode) (v : Word) : (s.setSpsrOf m v).afterStm2 = s.afterStm2 := by
  unfold State.setSpsrOf; split <;> rfl

@[simp] theorem State.setSpsrOf_coprocs (m : Mode) (v : Word) : (s.setSpsrOf m v).coprocs = s.coprocs := by
  unfold State.setSpsrOf; split <;> rfl

@[simp] theorem State.setSpsrOf_inputs (m : Mode) (v : Word) : (s.setSpsrOf m v).inputs = s.inputs := by
  unfold State.setSpsrOf; split <;> rfl

@[simp] theorem State.setSpsrOf_config (m : Mode) (v : Word) : (s.setSpsrOf m v).config = s.config := by
  unfold State.setSpsrOf; split <;> rfl

@[simp] theorem State.setSpsrOf_freeCount (m : Mode) (v : Word) : (s.setSpsrOf m v).freeCount = s.freeCount := by
  unfold State.setSpsrOf; split <;> rfl


/-! ## `raise` -/

@[simp] theorem State.raise_mem (e : Exc) : (s.raise e).mem = s.mem := by simp [State.raise]

@[simp] theorem State.raise_stored (e : Exc) : (s.raise e).stored = s.stored := by simp [State.raise]

@[simp] theorem State.raise_coprocs (e : Exc) : (s.raise e).coprocs = s.coprocs := by simp [State.raise]

@[simp] theorem State.raise_inputs (e : Exc) : (s.raise e).inputs = s.inputs := by simp [State.raise]

@[simp] theorem State.raise_config (e : Exc) : (s.raise e).config = s.config := by simp [State.raise]

@[simp] theorem State.raise_freeCount (e : Exc) : (s.raise e).freeCount = s.freeCount := by simp [State.raise]

@[simp] theorem State.raise_afterStm2 (e : Exc) : (s.raise e).afterStm2 = false := rfl

@[simp] theorem State.raise_pc (e : Exc) : (s.raise e).pc = s.vectorBase + e.vectorOffset := rfl

@[simp] theorem State.raise_cpsr (e : Exc) : (s.raise e).cpsr = psrOnEntry s.cpsr e.mode.bits e.setsF := rfl

@[simp] theorem State.raise_regs (e : Exc) :
    (s.raise e).regs = s.regs.set (physIndex (some e.mode) 14#4).val (s.pc + e.linkOffset) := rfl

@[simp] theorem State.raise_spsrs (e : Exc) : (s.raise e).spsrs = (s.setSpsrOf e.mode s.cpsr).spsrs := rfl


/-! ## `putByte` -/

@[simp] theorem State.putByte_regs (a : Word) (b : Byte) : (s.putByte a b).regs = s.regs := rfl

@[simp] theorem State.putByte_pc (a : Word) (b : Byte) : (s.putByte a b).pc = s.pc := rfl

@[simp] theorem State.putByte_cpsr (a : Word) (b : Byte) : (s.putByte a b).cpsr = s.cpsr := rfl

@[simp] theorem State.putByte_spsrs (a : Word) (b : Byte) : (s.putByte a b).spsrs = s.spsrs := rfl

@[simp] theorem State.putByte_afterStm2 (a : Word) (b : Byte) : (s.putByte a b).afterStm2 = s.afterStm2 := rfl

@[simp] theorem State.putByte_coprocs (a : Word) (b : Byte) : (s.putByte a b).coprocs = s.coprocs := rfl

@[simp] theorem State.putByte_inputs (a : Word) (b : Byte) : (s.putByte a b).inputs = s.inputs := rfl

@[simp] theorem State.putByte_config (a : Word) (b : Byte) : (s.putByte a b).config = s.config := rfl

@[simp] theorem State.putByte_freeCount (a : Word) (b : Byte) : (s.putByte a b).freeCount = s.freeCount := rfl


/-! ## `putWord` -/

@[simp] theorem State.putWord_regs (a w : Word) : (s.putWord a w).regs = s.regs := rfl

@[simp] theorem State.putWord_pc (a w : Word) : (s.putWord a w).pc = s.pc := rfl

@[simp] theorem State.putWord_cpsr (a w : Word) : (s.putWord a w).cpsr = s.cpsr := rfl

@[simp] theorem State.putWord_spsrs (a w : Word) : (s.putWord a w).spsrs = s.spsrs := rfl

@[simp] theorem State.putWord_afterStm2 (a w : Word) : (s.putWord a w).afterStm2 = s.afterStm2 := rfl

@[simp] theorem State.putWord_coprocs (a w : Word) : (s.putWord a w).coprocs = s.coprocs := rfl

@[simp] theorem State.putWord_inputs (a w : Word) : (s.putWord a w).inputs = s.inputs := rfl

@[simp] theorem State.putWord_config (a w : Word) : (s.putWord a w).config = s.config := rfl

@[simp] theorem State.putWord_freeCount (a w : Word) : (s.putWord a w).freeCount = s.freeCount := rfl


/-! ## `putBlock` -/

@[simp] theorem State.putBlock_regs (a : Word) (ws : List Word) : (s.putBlock a ws).regs = s.regs := by
  induction ws generalizing s a with
  | nil => rfl
  | cons w ws ih => simp [State.putBlock, ih]

@[simp] theorem State.putBlock_pc (a : Word) (ws : List Word) : (s.putBlock a ws).pc = s.pc := by
  induction ws generalizing s a with
  | nil => rfl
  | cons w ws ih => simp [State.putBlock, ih]

@[simp] theorem State.putBlock_cpsr (a : Word) (ws : List Word) : (s.putBlock a ws).cpsr = s.cpsr := by
  induction ws generalizing s a with
  | nil => rfl
  | cons w ws ih => simp [State.putBlock, ih]

@[simp] theorem State.putBlock_spsrs (a : Word) (ws : List Word) : (s.putBlock a ws).spsrs = s.spsrs := by
  induction ws generalizing s a with
  | nil => rfl
  | cons w ws ih => simp [State.putBlock, ih]

@[simp] theorem State.putBlock_afterStm2 (a : Word) (ws : List Word) : (s.putBlock a ws).afterStm2 = s.afterStm2 := by
  induction ws generalizing s a with
  | nil => rfl
  | cons w ws ih => simp [State.putBlock, ih]

@[simp] theorem State.putBlock_coprocs (a : Word) (ws : List Word) : (s.putBlock a ws).coprocs = s.coprocs := by
  induction ws generalizing s a with
  | nil => rfl
  | cons w ws ih => simp [State.putBlock, ih]

@[simp] theorem State.putBlock_inputs (a : Word) (ws : List Word) : (s.putBlock a ws).inputs = s.inputs := by
  induction ws generalizing s a with
  | nil => rfl
  | cons w ws ih => simp [State.putBlock, ih]

@[simp] theorem State.putBlock_config (a : Word) (ws : List Word) : (s.putBlock a ws).config = s.config := by
  induction ws generalizing s a with
  | nil => rfl
  | cons w ws ih => simp [State.putBlock, ih]

@[simp] theorem State.putBlock_freeCount (a : Word) (ws : List Word) : (s.putBlock a ws).freeCount = s.freeCount := by
  induction ws generalizing s a with
  | nil => rfl
  | cons w ws ih => simp [State.putBlock, ih]


/-! ## `putFreeWord` and `putFreeBlock` -/

@[simp] theorem State.putFreeWord_regs (a : Word) : (s.putFreeWord a).regs = s.regs := by
  unfold State.putFreeWord; split <;> rfl

@[simp] theorem State.putFreeBlock_regs (a : Word) (n : Nat) : (s.putFreeBlock a n).regs = s.regs := by
  induction n generalizing s a with
  | zero => rfl
  | succ n ih => simp [State.putFreeBlock, ih]

@[simp] theorem State.putFreeWord_pc (a : Word) : (s.putFreeWord a).pc = s.pc := by
  unfold State.putFreeWord; split <;> rfl

@[simp] theorem State.putFreeBlock_pc (a : Word) (n : Nat) : (s.putFreeBlock a n).pc = s.pc := by
  induction n generalizing s a with
  | zero => rfl
  | succ n ih => simp [State.putFreeBlock, ih]

@[simp] theorem State.putFreeWord_cpsr (a : Word) : (s.putFreeWord a).cpsr = s.cpsr := by
  unfold State.putFreeWord; split <;> rfl

@[simp] theorem State.putFreeBlock_cpsr (a : Word) (n : Nat) : (s.putFreeBlock a n).cpsr = s.cpsr := by
  induction n generalizing s a with
  | zero => rfl
  | succ n ih => simp [State.putFreeBlock, ih]

@[simp] theorem State.putFreeWord_spsrs (a : Word) : (s.putFreeWord a).spsrs = s.spsrs := by
  unfold State.putFreeWord; split <;> rfl

@[simp] theorem State.putFreeBlock_spsrs (a : Word) (n : Nat) : (s.putFreeBlock a n).spsrs = s.spsrs := by
  induction n generalizing s a with
  | zero => rfl
  | succ n ih => simp [State.putFreeBlock, ih]

@[simp] theorem State.putFreeWord_afterStm2 (a : Word) : (s.putFreeWord a).afterStm2 = s.afterStm2 := by
  unfold State.putFreeWord; split <;> rfl

@[simp] theorem State.putFreeBlock_afterStm2 (a : Word) (n : Nat) : (s.putFreeBlock a n).afterStm2 = s.afterStm2 := by
  induction n generalizing s a with
  | zero => rfl
  | succ n ih => simp [State.putFreeBlock, ih]

@[simp] theorem State.putFreeWord_coprocs (a : Word) : (s.putFreeWord a).coprocs = s.coprocs := by
  unfold State.putFreeWord; split <;> rfl

@[simp] theorem State.putFreeBlock_coprocs (a : Word) (n : Nat) : (s.putFreeBlock a n).coprocs = s.coprocs := by
  induction n generalizing s a with
  | zero => rfl
  | succ n ih => simp [State.putFreeBlock, ih]

@[simp] theorem State.putFreeWord_inputs (a : Word) : (s.putFreeWord a).inputs = s.inputs := by
  unfold State.putFreeWord; split <;> rfl

@[simp] theorem State.putFreeBlock_inputs (a : Word) (n : Nat) : (s.putFreeBlock a n).inputs = s.inputs := by
  induction n generalizing s a with
  | zero => rfl
  | succ n ih => simp [State.putFreeBlock, ih]

@[simp] theorem State.putFreeWord_config (a : Word) : (s.putFreeWord a).config = s.config := by
  unfold State.putFreeWord; split <;> rfl

@[simp] theorem State.putFreeBlock_config (a : Word) (n : Nat) : (s.putFreeBlock a n).config = s.config := by
  induction n generalizing s a with
  | zero => rfl
  | succ n ih => simp [State.putFreeBlock, ih]


/-! ## `writeback` and `baseAfterAbort` -/

@[simp] theorem State.writeback_cpsr (wb : Option (RegNum × Word)) : (s.writeback wb).cpsr = s.cpsr := by
  cases wb <;> simp [State.writeback]

@[simp] theorem State.baseAfterAbort_cpsr (wb : Option (RegNum × Word)) : (s.baseAfterAbort wb).cpsr = s.cpsr := by
  unfold State.baseAfterAbort; split <;> simp

@[simp] theorem State.writeback_spsrs (wb : Option (RegNum × Word)) : (s.writeback wb).spsrs = s.spsrs := by
  cases wb <;> simp [State.writeback]

@[simp] theorem State.baseAfterAbort_spsrs (wb : Option (RegNum × Word)) : (s.baseAfterAbort wb).spsrs = s.spsrs := by
  unfold State.baseAfterAbort; split <;> simp

@[simp] theorem State.writeback_mem (wb : Option (RegNum × Word)) : (s.writeback wb).mem = s.mem := by
  cases wb <;> simp [State.writeback]

@[simp] theorem State.baseAfterAbort_mem (wb : Option (RegNum × Word)) : (s.baseAfterAbort wb).mem = s.mem := by
  unfold State.baseAfterAbort; split <;> simp

@[simp] theorem State.writeback_stored (wb : Option (RegNum × Word)) : (s.writeback wb).stored = s.stored := by
  cases wb <;> simp [State.writeback]

@[simp] theorem State.baseAfterAbort_stored (wb : Option (RegNum × Word)) : (s.baseAfterAbort wb).stored = s.stored := by
  unfold State.baseAfterAbort; split <;> simp

@[simp] theorem State.writeback_afterStm2 (wb : Option (RegNum × Word)) : (s.writeback wb).afterStm2 = s.afterStm2 := by
  cases wb <;> simp [State.writeback]

@[simp] theorem State.baseAfterAbort_afterStm2 (wb : Option (RegNum × Word)) : (s.baseAfterAbort wb).afterStm2 = s.afterStm2 := by
  unfold State.baseAfterAbort; split <;> simp

@[simp] theorem State.writeback_coprocs (wb : Option (RegNum × Word)) : (s.writeback wb).coprocs = s.coprocs := by
  cases wb <;> simp [State.writeback]

@[simp] theorem State.baseAfterAbort_coprocs (wb : Option (RegNum × Word)) : (s.baseAfterAbort wb).coprocs = s.coprocs := by
  unfold State.baseAfterAbort; split <;> simp

@[simp] theorem State.writeback_inputs (wb : Option (RegNum × Word)) : (s.writeback wb).inputs = s.inputs := by
  cases wb <;> simp [State.writeback]

@[simp] theorem State.baseAfterAbort_inputs (wb : Option (RegNum × Word)) : (s.baseAfterAbort wb).inputs = s.inputs := by
  unfold State.baseAfterAbort; split <;> simp

@[simp] theorem State.writeback_config (wb : Option (RegNum × Word)) : (s.writeback wb).config = s.config := by
  cases wb <;> simp [State.writeback]

@[simp] theorem State.baseAfterAbort_config (wb : Option (RegNum × Word)) : (s.baseAfterAbort wb).config = s.config := by
  unfold State.baseAfterAbort; split <;> simp

@[simp] theorem State.writeback_freeCount (wb : Option (RegNum × Word)) : (s.writeback wb).freeCount = s.freeCount := by
  cases wb <;> simp [State.writeback]

@[simp] theorem State.baseAfterAbort_freeCount (wb : Option (RegNum × Word)) : (s.baseAfterAbort wb).freeCount = s.freeCount := by
  unfold State.baseAfterAbort; split <;> simp


/-! ## The samples of inputs and the mark of an STM (2) -/


/-! ## `takeInput` -/

@[simp] theorem State.takeInput_regs : (s.takeInput).regs = s.regs := rfl

@[simp] theorem State.takeInput_pc : (s.takeInput).pc = s.pc := rfl

@[simp] theorem State.takeInput_cpsr : (s.takeInput).cpsr = s.cpsr := rfl

@[simp] theorem State.takeInput_spsrs : (s.takeInput).spsrs = s.spsrs := rfl

@[simp] theorem State.takeInput_mem : (s.takeInput).mem = s.mem := rfl

@[simp] theorem State.takeInput_stored : (s.takeInput).stored = s.stored := rfl

@[simp] theorem State.takeInput_afterStm2 : (s.takeInput).afterStm2 = s.afterStm2 := rfl

@[simp] theorem State.takeInput_coprocs : (s.takeInput).coprocs = s.coprocs := rfl

@[simp] theorem State.takeInput_config : (s.takeInput).config = s.config := rfl

@[simp] theorem State.takeInput_freeCount : (s.takeInput).freeCount = s.freeCount := rfl


/-! ## `clearAfterStm2` -/

@[simp] theorem State.clearAfterStm2_regs : (s.clearAfterStm2).regs = s.regs := rfl

@[simp] theorem State.clearAfterStm2_pc : (s.clearAfterStm2).pc = s.pc := rfl

@[simp] theorem State.clearAfterStm2_cpsr : (s.clearAfterStm2).cpsr = s.cpsr := rfl

@[simp] theorem State.clearAfterStm2_spsrs : (s.clearAfterStm2).spsrs = s.spsrs := rfl

@[simp] theorem State.clearAfterStm2_mem : (s.clearAfterStm2).mem = s.mem := rfl

@[simp] theorem State.clearAfterStm2_stored : (s.clearAfterStm2).stored = s.stored := rfl

@[simp] theorem State.clearAfterStm2_coprocs : (s.clearAfterStm2).coprocs = s.coprocs := rfl

@[simp] theorem State.clearAfterStm2_inputs : (s.clearAfterStm2).inputs = s.inputs := rfl

@[simp] theorem State.clearAfterStm2_config : (s.clearAfterStm2).config = s.config := rfl

@[simp] theorem State.clearAfterStm2_freeCount : (s.clearAfterStm2).freeCount = s.freeCount := rfl


/-! ## `placeWordAtPC` -/

@[simp] theorem State.placeWordAtPC_regs (w : Word) : (s.placeWordAtPC w).regs = s.regs := rfl

@[simp] theorem State.placeWordAtPC_pc (w : Word) : (s.placeWordAtPC w).pc = s.pc := rfl

@[simp] theorem State.placeWordAtPC_cpsr (w : Word) : (s.placeWordAtPC w).cpsr = s.cpsr := rfl

@[simp] theorem State.placeWordAtPC_spsrs (w : Word) : (s.placeWordAtPC w).spsrs = s.spsrs := rfl

@[simp] theorem State.placeWordAtPC_afterStm2 (w : Word) : (s.placeWordAtPC w).afterStm2 = s.afterStm2 := rfl

@[simp] theorem State.placeWordAtPC_coprocs (w : Word) : (s.placeWordAtPC w).coprocs = s.coprocs := rfl

@[simp] theorem State.placeWordAtPC_inputs (w : Word) : (s.placeWordAtPC w).inputs = s.inputs := rfl

@[simp] theorem State.placeWordAtPC_config (w : Word) : (s.placeWordAtPC w).config = s.config := rfl

@[simp] theorem State.placeWordAtPC_freeCount (w : Word) : (s.placeWordAtPC w).freeCount = s.freeCount := rfl

@[simp] theorem State.clearAfterStm2_afterStm2 : s.clearAfterStm2.afterStm2 = false := rfl


/-! ## Free draws -/

@[simp] theorem State.longMultiplyCV_regs : s.longMultiplyCV.2.regs = s.regs := by
  unfold State.longMultiplyCV; split <;> rfl

@[simp] theorem State.longMultiplyCV_pc : s.longMultiplyCV.2.pc = s.pc := by
  unfold State.longMultiplyCV; split <;> rfl

@[simp] theorem State.longMultiplyCV_cpsr : s.longMultiplyCV.2.cpsr = s.cpsr := by
  unfold State.longMultiplyCV; split <;> rfl

@[simp] theorem State.longMultiplyCV_spsrs : s.longMultiplyCV.2.spsrs = s.spsrs := by
  unfold State.longMultiplyCV; split <;> rfl

@[simp] theorem State.longMultiplyCV_mem : s.longMultiplyCV.2.mem = s.mem := by
  unfold State.longMultiplyCV; split <;> rfl

@[simp] theorem State.longMultiplyCV_stored : s.longMultiplyCV.2.stored = s.stored := by
  unfold State.longMultiplyCV; split <;> rfl

@[simp] theorem State.longMultiplyCV_afterStm2 : s.longMultiplyCV.2.afterStm2 = s.afterStm2 := by
  unfold State.longMultiplyCV; split <;> rfl

@[simp] theorem State.longMultiplyCV_coprocs : s.longMultiplyCV.2.coprocs = s.coprocs := by
  unfold State.longMultiplyCV; split <;> rfl

@[simp] theorem State.longMultiplyCV_inputs : s.longMultiplyCV.2.inputs = s.inputs := by
  unfold State.longMultiplyCV; split <;> rfl

@[simp] theorem State.longMultiplyCV_config : s.longMultiplyCV.2.config = s.config := by
  unfold State.longMultiplyCV; split <;> rfl


end Sys2Proof.Machine
end

