-- ==== Sys2Proof/Laws/Coprocessor.lean ====
section
/-!
SUPPORT. What a coprocessor's new state leaves alone.
-/

namespace Sys2Proof.Machine

variable (s : State) (cp : BitVec 4) (next : Nat)

@[simp] theorem State.setCoprocState_regs : (s.setCoprocState cp next).regs = s.regs := by
  unfold State.setCoprocState; split <;> rfl

@[simp] theorem State.coprocAfterAbort_regs : (s.coprocAfterAbort cp next).regs = s.regs := by
  unfold State.coprocAfterAbort; split <;> simp

@[simp] theorem State.setCoprocState_pc : (s.setCoprocState cp next).pc = s.pc := by
  unfold State.setCoprocState; split <;> rfl

@[simp] theorem State.coprocAfterAbort_pc : (s.coprocAfterAbort cp next).pc = s.pc := by
  unfold State.coprocAfterAbort; split <;> simp

@[simp] theorem State.setCoprocState_cpsr : (s.setCoprocState cp next).cpsr = s.cpsr := by
  unfold State.setCoprocState; split <;> rfl

@[simp] theorem State.coprocAfterAbort_cpsr : (s.coprocAfterAbort cp next).cpsr = s.cpsr := by
  unfold State.coprocAfterAbort; split <;> simp

@[simp] theorem State.setCoprocState_spsrs : (s.setCoprocState cp next).spsrs = s.spsrs := by
  unfold State.setCoprocState; split <;> rfl

@[simp] theorem State.coprocAfterAbort_spsrs : (s.coprocAfterAbort cp next).spsrs = s.spsrs := by
  unfold State.coprocAfterAbort; split <;> simp

@[simp] theorem State.setCoprocState_mem : (s.setCoprocState cp next).mem = s.mem := by
  unfold State.setCoprocState; split <;> rfl

@[simp] theorem State.coprocAfterAbort_mem : (s.coprocAfterAbort cp next).mem = s.mem := by
  unfold State.coprocAfterAbort; split <;> simp

@[simp] theorem State.setCoprocState_stored : (s.setCoprocState cp next).stored = s.stored := by
  unfold State.setCoprocState; split <;> rfl

@[simp] theorem State.coprocAfterAbort_stored : (s.coprocAfterAbort cp next).stored = s.stored := by
  unfold State.coprocAfterAbort; split <;> simp

@[simp] theorem State.setCoprocState_afterStm2 : (s.setCoprocState cp next).afterStm2 = s.afterStm2 := by
  unfold State.setCoprocState; split <;> rfl

@[simp] theorem State.coprocAfterAbort_afterStm2 : (s.coprocAfterAbort cp next).afterStm2 = s.afterStm2 := by
  unfold State.coprocAfterAbort; split <;> simp

@[simp] theorem State.setCoprocState_inputs : (s.setCoprocState cp next).inputs = s.inputs := by
  unfold State.setCoprocState; split <;> rfl

@[simp] theorem State.coprocAfterAbort_inputs : (s.coprocAfterAbort cp next).inputs = s.inputs := by
  unfold State.coprocAfterAbort; split <;> simp

@[simp] theorem State.setCoprocState_config : (s.setCoprocState cp next).config = s.config := by
  unfold State.setCoprocState; split <;> rfl

@[simp] theorem State.coprocAfterAbort_config : (s.coprocAfterAbort cp next).config = s.config := by
  unfold State.coprocAfterAbort; split <;> simp

@[simp] theorem State.setCoprocState_freeCount : (s.setCoprocState cp next).freeCount = s.freeCount := by
  unfold State.setCoprocState; split <;> rfl

@[simp] theorem State.coprocAfterAbort_freeCount : (s.coprocAfterAbort cp next).freeCount = s.freeCount := by
  unfold State.coprocAfterAbort; split <;> simp

/-- Only the coprocessor that cp_num names gets a new state, and it stays present. -/
theorem State.setCoprocState_coprocs (i : Nat) (h : i < 16) :
    (s.setCoprocState cp next).coprocs[i] =
      if cp.toNat = i then s.coprocs[i].map fun device => { device with state := next } else s.coprocs[i] := by
  unfold State.setCoprocState
  split
  · rename_i hc
    by_cases hi : cp.toNat = i
    · subst hi; simp [hc]
    · simp [hi]
  · rename_i device hc
    by_cases hi : cp.toNat = i
    · subst hi; simp [hc]
    · simp [hi]

end Sys2Proof.Machine
end

