-- ==== Sys2Proof/Laws/Encoding.lean ====
section
/-!
SUPPORT. The cells of the formats of spec/30_encoding.md R83: what each field of an encoded word holds, and how a field of
constants is read bit by bit.
-/

namespace Sys2Proof

/-- A field has a value exactly where each of its bits has. -/
theorem field_eq_iff (w : Word) (lo n : Nat) (v : BitVec n) :
    field w lo n = v ↔ ∀ i < n, w.getLsbD (lo + i) = v.getLsbD i := by
  constructor
  · rintro rfl i hi
    simp [field, hi]
  · intro h
    ext i hi
    rw [← BitVec.getLsbD_eq_getElem hi, ← BitVec.getLsbD_eq_getElem hi, ← h i hi]
    simp [field, hi]

/-- One bit of a word is the field of that bit. -/
theorem getLsbD_of_field {w : Word} {i : Nat} {v : BitVec 1} (h : field w i 1 = v) : w.getLsbD i = v.getLsbD 0 := by
  have := (field_eq_iff w i 1 v).1 h 0 (by decide)
  simpa using this

@[simp] theorem Cond.ofBits_bits (c : Cond) : Cond.ofBits c.bits = some c := by cases c <;> rfl

@[simp] theorem ShiftType.ofBits_bits (ty : ShiftType) : ShiftType.ofBits ty.bits = ty := by cases ty <;> rfl

theorem Cond.bits_of_ofBits {b : BitVec 4} {c : Cond} (h : Cond.ofBits b = some c) : c.bits = b := by
  revert h; revert b; cases c <;> decide

theorem Cond.ofBits_eq_none_iff (b : BitVec 4) : Cond.ofBits b = none ↔ b = 0b1111#4 := by
  revert b; decide

section

variable (c : Cond) (op : BitVec 7) (sf : Bool) (hi lo rs rm : RegNum)

@[simp] theorem encodeLongMultiply_field_28_4 : field (encodeLongMultiply c op sf hi lo rs rm) 28 4 = c.bits := by
  simp only [field, encodeLongMultiply, BitVec.extractLsb'_cast]
  repeat rw [BitVec.extractLsb'_append_eq_of_le (by decide)]
  exact BitVec.extractLsb'_eq_self

@[simp] theorem encodeLongMultiply_field_21_7 : field (encodeLongMultiply c op sf hi lo rs rm) 21 7 = op := by
  simp only [field, encodeLongMultiply, BitVec.extractLsb'_cast]
  repeat first | rw [BitVec.extractLsb'_append_eq_of_le (by decide)]
               | rw [BitVec.extractLsb'_append_eq_of_add_le (by decide)]
  exact BitVec.extractLsb'_eq_self

@[simp] theorem encodeLongMultiply_field_16_4 : field (encodeLongMultiply c op sf hi lo rs rm) 16 4 = hi := by
  simp only [field, encodeLongMultiply, BitVec.extractLsb'_cast]
  repeat first | rw [BitVec.extractLsb'_append_eq_of_le (by decide)]
               | rw [BitVec.extractLsb'_append_eq_of_add_le (by decide)]
  exact BitVec.extractLsb'_eq_self

@[simp] theorem encodeLongMultiply_field_12_4 : field (encodeLongMultiply c op sf hi lo rs rm) 12 4 = lo := by
  simp only [field, encodeLongMultiply, BitVec.extractLsb'_cast]
  repeat first | rw [BitVec.extractLsb'_append_eq_of_le (by decide)]
               | rw [BitVec.extractLsb'_append_eq_of_add_le (by decide)]
  exact BitVec.extractLsb'_eq_self

@[simp] theorem encodeLongMultiply_field_8_4 : field (encodeLongMultiply c op sf hi lo rs rm) 8 4 = rs := by
  simp only [field, encodeLongMultiply, BitVec.extractLsb'_cast]
  repeat first | rw [BitVec.extractLsb'_append_eq_of_le (by decide)]
               | rw [BitVec.extractLsb'_append_eq_of_add_le (by decide)]
  exact BitVec.extractLsb'_eq_self

@[simp] theorem encodeLongMultiply_field_4_4 : field (encodeLongMultiply c op sf hi lo rs rm) 4 4 = 0b1001#4 := by
  simp only [field, encodeLongMultiply, BitVec.extractLsb'_cast]
  repeat first | rw [BitVec.extractLsb'_append_eq_of_le (by decide)]
               | rw [BitVec.extractLsb'_append_eq_of_add_le (by decide)]
  exact BitVec.extractLsb'_eq_self

@[simp] theorem encodeLongMultiply_field_0_4 : field (encodeLongMultiply c op sf hi lo rs rm) 0 4 = rm := by
  simp only [field, encodeLongMultiply, BitVec.extractLsb'_cast]
  repeat first | rw [BitVec.extractLsb'_append_eq_of_le (by decide)]
               | rw [BitVec.extractLsb'_append_eq_of_add_le (by decide)]
  exact BitVec.extractLsb'_eq_self

theorem encodeLongMultiply_getLsbD_20 : (encodeLongMultiply c op sf hi lo rs rm).getLsbD 20 = sf := by
  simp only [encodeLongMultiply, BitVec.getLsbD_cast, BitVec.getLsbD_append]
  simp [bit]

@[simp] theorem encodeLongMultiply_getElem_20 : (encodeLongMultiply c op sf hi lo rs rm)[20] = sf :=
  encodeLongMultiply_getLsbD_20 ..

end

section

variable (b : BitVec 4) (x : Index5) (n : Bool) (rn : RegNum) (crd cp : BitVec 4) (off : BitVec 8)

@[simp] theorem encodeCoprocessor_field_28_4 : field (encodeCoprocessor b x n rn crd cp off) 28 4 = b := by
  simp only [field, encodeCoprocessor, BitVec.extractLsb'_cast]
  repeat rw [BitVec.extractLsb'_append_eq_of_le (by decide)]
  exact BitVec.extractLsb'_eq_self

@[simp] theorem encodeCoprocessor_field_25_3 : field (encodeCoprocessor b x n rn crd cp off) 25 3 = 0b110#3 := by
  simp only [field, encodeCoprocessor, BitVec.extractLsb'_cast]
  repeat first | rw [BitVec.extractLsb'_append_eq_of_le (by decide)]
               | rw [BitVec.extractLsb'_append_eq_of_add_le (by decide)]
  exact BitVec.extractLsb'_eq_self

@[simp] theorem encodeCoprocessor_field_23_2 : field (encodeCoprocessor b x n rn crd cp off) 23 2 = x.puw.1 := by
  simp only [field, encodeCoprocessor, BitVec.extractLsb'_cast]
  repeat first | rw [BitVec.extractLsb'_append_eq_of_le (by decide)]
               | rw [BitVec.extractLsb'_append_eq_of_add_le (by decide)]
  exact BitVec.extractLsb'_eq_self

@[simp] theorem encodeCoprocessor_field_21_1 : field (encodeCoprocessor b x n rn crd cp off) 21 1 = x.puw.2 := by
  simp only [field, encodeCoprocessor, BitVec.extractLsb'_cast]
  repeat first | rw [BitVec.extractLsb'_append_eq_of_le (by decide)]
               | rw [BitVec.extractLsb'_append_eq_of_add_le (by decide)]
  exact BitVec.extractLsb'_eq_self

@[simp] theorem encodeCoprocessor_field_16_4 : field (encodeCoprocessor b x n rn crd cp off) 16 4 = rn := by
  simp only [field, encodeCoprocessor, BitVec.extractLsb'_cast]
  repeat first | rw [BitVec.extractLsb'_append_eq_of_le (by decide)]
               | rw [BitVec.extractLsb'_append_eq_of_add_le (by decide)]
  exact BitVec.extractLsb'_eq_self

@[simp] theorem encodeCoprocessor_field_12_4 : field (encodeCoprocessor b x n rn crd cp off) 12 4 = crd := by
  simp only [field, encodeCoprocessor, BitVec.extractLsb'_cast]
  repeat first | rw [BitVec.extractLsb'_append_eq_of_le (by decide)]
               | rw [BitVec.extractLsb'_append_eq_of_add_le (by decide)]
  exact BitVec.extractLsb'_eq_self

@[simp] theorem encodeCoprocessor_field_8_4 : field (encodeCoprocessor b x n rn crd cp off) 8 4 = cp := by
  simp only [field, encodeCoprocessor, BitVec.extractLsb'_cast]
  repeat first | rw [BitVec.extractLsb'_append_eq_of_le (by decide)]
               | rw [BitVec.extractLsb'_append_eq_of_add_le (by decide)]
  exact BitVec.extractLsb'_eq_self

@[simp] theorem encodeCoprocessor_field_0_8 : field (encodeCoprocessor b x n rn crd cp off) 0 8 = off := by
  simp only [field, encodeCoprocessor, BitVec.extractLsb'_cast]
  repeat first | rw [BitVec.extractLsb'_append_eq_of_le (by decide)]
               | rw [BitVec.extractLsb'_append_eq_of_add_le (by decide)]
  exact BitVec.extractLsb'_eq_self

theorem encodeCoprocessor_getLsbD_22 : (encodeCoprocessor b x n rn crd cp off).getLsbD 22 = n := by
  simp only [encodeCoprocessor, BitVec.getLsbD_cast, BitVec.getLsbD_append]
  simp [bit]

@[simp] theorem encodeCoprocessor_getElem_22 : (encodeCoprocessor b x n rn crd cp off)[22] = n :=
  encodeCoprocessor_getLsbD_22 ..

theorem encodeCoprocessor_getLsbD_20 : (encodeCoprocessor b x n rn crd cp off).getLsbD 20 = false := by
  simp only [encodeCoprocessor, BitVec.getLsbD_cast, BitVec.getLsbD_append]
  simp

@[simp] theorem encodeCoprocessor_getElem_20 : (encodeCoprocessor b x n rn crd cp off)[20] = false :=
  encodeCoprocessor_getLsbD_20 ..

end

section

variable (c : Cond) (m : Mode4) (sb : BitVec 1) (wb : Bool) (rn : RegNum) (list : BitVec 16)

@[simp] theorem encodeMultiple_field_28_4 : field (encodeMultiple c m sb wb rn list) 28 4 = c.bits := by
  simp only [field, encodeMultiple, BitVec.extractLsb'_cast]
  repeat rw [BitVec.extractLsb'_append_eq_of_le (by decide)]
  exact BitVec.extractLsb'_eq_self

@[simp] theorem encodeMultiple_field_25_3 : field (encodeMultiple c m sb wb rn list) 25 3 = 0b100#3 := by
  simp only [field, encodeMultiple, BitVec.extractLsb'_cast]
  repeat first | rw [BitVec.extractLsb'_append_eq_of_le (by decide)]
               | rw [BitVec.extractLsb'_append_eq_of_add_le (by decide)]
  exact BitVec.extractLsb'_eq_self

@[simp] theorem encodeMultiple_field_23_2 : field (encodeMultiple c m sb wb rn list) 23 2 = m.pu := by
  simp only [field, encodeMultiple, BitVec.extractLsb'_cast]
  repeat first | rw [BitVec.extractLsb'_append_eq_of_le (by decide)]
               | rw [BitVec.extractLsb'_append_eq_of_add_le (by decide)]
  exact BitVec.extractLsb'_eq_self

@[simp] theorem encodeMultiple_field_22_1 : field (encodeMultiple c m sb wb rn list) 22 1 = sb := by
  simp only [field, encodeMultiple, BitVec.extractLsb'_cast]
  repeat first | rw [BitVec.extractLsb'_append_eq_of_le (by decide)]
               | rw [BitVec.extractLsb'_append_eq_of_add_le (by decide)]
  exact BitVec.extractLsb'_eq_self

@[simp] theorem encodeMultiple_field_16_4 : field (encodeMultiple c m sb wb rn list) 16 4 = rn := by
  simp only [field, encodeMultiple, BitVec.extractLsb'_cast]
  repeat first | rw [BitVec.extractLsb'_append_eq_of_le (by decide)]
               | rw [BitVec.extractLsb'_append_eq_of_add_le (by decide)]
  exact BitVec.extractLsb'_eq_self

@[simp] theorem encodeMultiple_field_0_16 : field (encodeMultiple c m sb wb rn list) 0 16 = list := by
  simp only [field, encodeMultiple, BitVec.extractLsb'_cast]
  repeat first | rw [BitVec.extractLsb'_append_eq_of_le (by decide)]
               | rw [BitVec.extractLsb'_append_eq_of_add_le (by decide)]
  exact BitVec.extractLsb'_eq_self

theorem encodeMultiple_getLsbD_21 : (encodeMultiple c m sb wb rn list).getLsbD 21 = wb := by
  simp only [encodeMultiple, BitVec.getLsbD_cast, BitVec.getLsbD_append]
  simp [bit]

@[simp] theorem encodeMultiple_getElem_21 : (encodeMultiple c m sb wb rn list)[21] = wb :=
  encodeMultiple_getLsbD_21 ..

theorem encodeMultiple_getLsbD_20 : (encodeMultiple c m sb wb rn list).getLsbD 20 = false := by
  simp only [encodeMultiple, BitVec.getLsbD_cast, BitVec.getLsbD_append]
  simp

@[simp] theorem encodeMultiple_getElem_20 : (encodeMultiple c m sb wb rn list)[20] = false :=
  encodeMultiple_getLsbD_20 ..

end

section

variable (c : Cond) (p : BitVec 1) (up : Bool) (b wb : BitVec 1) (rn rd : RegNum) (o : Offset2)

@[simp] theorem encodeStore_field_28_4 : field (encodeStore c p up b wb rn rd o) 28 4 = c.bits := by
  simp only [field, encodeStore, BitVec.extractLsb'_cast]
  repeat rw [BitVec.extractLsb'_append_eq_of_le (by decide)]
  exact BitVec.extractLsb'_eq_self

@[simp] theorem encodeStore_field_26_2 : field (encodeStore c p up b wb rn rd o) 26 2 = 0b01#2 := by
  simp only [field, encodeStore, BitVec.extractLsb'_cast]
  repeat first | rw [BitVec.extractLsb'_append_eq_of_le (by decide)]
               | rw [BitVec.extractLsb'_append_eq_of_add_le (by decide)]
  exact BitVec.extractLsb'_eq_self

@[simp] theorem encodeStore_field_25_1 : field (encodeStore c p up b wb rn rd o) 25 1 = o.encode.1 := by
  simp only [field, encodeStore, BitVec.extractLsb'_cast]
  repeat first | rw [BitVec.extractLsb'_append_eq_of_le (by decide)]
               | rw [BitVec.extractLsb'_append_eq_of_add_le (by decide)]
  exact BitVec.extractLsb'_eq_self

@[simp] theorem encodeStore_field_24_1 : field (encodeStore c p up b wb rn rd o) 24 1 = p := by
  simp only [field, encodeStore, BitVec.extractLsb'_cast]
  repeat first | rw [BitVec.extractLsb'_append_eq_of_le (by decide)]
               | rw [BitVec.extractLsb'_append_eq_of_add_le (by decide)]
  exact BitVec.extractLsb'_eq_self

@[simp] theorem encodeStore_field_22_1 : field (encodeStore c p up b wb rn rd o) 22 1 = b := by
  simp only [field, encodeStore, BitVec.extractLsb'_cast]
  repeat first | rw [BitVec.extractLsb'_append_eq_of_le (by decide)]
               | rw [BitVec.extractLsb'_append_eq_of_add_le (by decide)]
  exact BitVec.extractLsb'_eq_self

@[simp] theorem encodeStore_field_21_1 : field (encodeStore c p up b wb rn rd o) 21 1 = wb := by
  simp only [field, encodeStore, BitVec.extractLsb'_cast]
  repeat first | rw [BitVec.extractLsb'_append_eq_of_le (by decide)]
               | rw [BitVec.extractLsb'_append_eq_of_add_le (by decide)]
  exact BitVec.extractLsb'_eq_self

@[simp] theorem encodeStore_field_16_4 : field (encodeStore c p up b wb rn rd o) 16 4 = rn := by
  simp only [field, encodeStore, BitVec.extractLsb'_cast]
  repeat first | rw [BitVec.extractLsb'_append_eq_of_le (by decide)]
               | rw [BitVec.extractLsb'_append_eq_of_add_le (by decide)]
  exact BitVec.extractLsb'_eq_self

@[simp] theorem encodeStore_field_12_4 : field (encodeStore c p up b wb rn rd o) 12 4 = rd := by
  simp only [field, encodeStore, BitVec.extractLsb'_cast]
  repeat first | rw [BitVec.extractLsb'_append_eq_of_le (by decide)]
               | rw [BitVec.extractLsb'_append_eq_of_add_le (by decide)]
  exact BitVec.extractLsb'_eq_self

@[simp] theorem encodeStore_field_0_12 : field (encodeStore c p up b wb rn rd o) 0 12 = o.encode.2 := by
  simp only [field, encodeStore, BitVec.extractLsb'_cast]
  repeat first | rw [BitVec.extractLsb'_append_eq_of_le (by decide)]
               | rw [BitVec.extractLsb'_append_eq_of_add_le (by decide)]
  exact BitVec.extractLsb'_eq_self

theorem encodeStore_getLsbD_23 : (encodeStore c p up b wb rn rd o).getLsbD 23 = up := by
  simp only [encodeStore, BitVec.getLsbD_cast, BitVec.getLsbD_append]
  simp [bit]

@[simp] theorem encodeStore_getElem_23 : (encodeStore c p up b wb rn rd o)[23] = up :=
  encodeStore_getLsbD_23 ..

theorem encodeStore_getLsbD_20 : (encodeStore c p up b wb rn rd o).getLsbD 20 = false := by
  simp only [encodeStore, BitVec.getLsbD_cast, BitVec.getLsbD_append]
  simp

@[simp] theorem encodeStore_getElem_20 : (encodeStore c p up b wb rn rd o)[20] = false :=
  encodeStore_getLsbD_20 ..

end

section

variable (c : Cond) (op : BitVec 4) (sb : BitVec 1) (rn rd : RegNum) (o : Operand1)

@[simp] theorem encodeDataProcessing_field_28_4 : field (encodeDataProcessing c op sb rn rd o) 28 4 = c.bits := by
  simp only [field, encodeDataProcessing, BitVec.extractLsb'_cast]
  repeat rw [BitVec.extractLsb'_append_eq_of_le (by decide)]
  exact BitVec.extractLsb'_eq_self

@[simp] theorem encodeDataProcessing_field_26_2 : field (encodeDataProcessing c op sb rn rd o) 26 2 = 0b00#2 := by
  simp only [field, encodeDataProcessing, BitVec.extractLsb'_cast]
  repeat first | rw [BitVec.extractLsb'_append_eq_of_le (by decide)]
               | rw [BitVec.extractLsb'_append_eq_of_add_le (by decide)]
  exact BitVec.extractLsb'_eq_self

@[simp] theorem encodeDataProcessing_field_25_1 : field (encodeDataProcessing c op sb rn rd o) 25 1 = o.encode.1 := by
  simp only [field, encodeDataProcessing, BitVec.extractLsb'_cast]
  repeat first | rw [BitVec.extractLsb'_append_eq_of_le (by decide)]
               | rw [BitVec.extractLsb'_append_eq_of_add_le (by decide)]
  exact BitVec.extractLsb'_eq_self

@[simp] theorem encodeDataProcessing_field_21_4 : field (encodeDataProcessing c op sb rn rd o) 21 4 = op := by
  simp only [field, encodeDataProcessing, BitVec.extractLsb'_cast]
  repeat first | rw [BitVec.extractLsb'_append_eq_of_le (by decide)]
               | rw [BitVec.extractLsb'_append_eq_of_add_le (by decide)]
  exact BitVec.extractLsb'_eq_self

@[simp] theorem encodeDataProcessing_field_20_1 : field (encodeDataProcessing c op sb rn rd o) 20 1 = sb := by
  simp only [field, encodeDataProcessing, BitVec.extractLsb'_cast]
  repeat first | rw [BitVec.extractLsb'_append_eq_of_le (by decide)]
               | rw [BitVec.extractLsb'_append_eq_of_add_le (by decide)]
  exact BitVec.extractLsb'_eq_self

@[simp] theorem encodeDataProcessing_field_16_4 : field (encodeDataProcessing c op sb rn rd o) 16 4 = rn := by
  simp only [field, encodeDataProcessing, BitVec.extractLsb'_cast]
  repeat first | rw [BitVec.extractLsb'_append_eq_of_le (by decide)]
               | rw [BitVec.extractLsb'_append_eq_of_add_le (by decide)]
  exact BitVec.extractLsb'_eq_self

@[simp] theorem encodeDataProcessing_field_12_4 : field (encodeDataProcessing c op sb rn rd o) 12 4 = rd := by
  simp only [field, encodeDataProcessing, BitVec.extractLsb'_cast]
  repeat first | rw [BitVec.extractLsb'_append_eq_of_le (by decide)]
               | rw [BitVec.extractLsb'_append_eq_of_add_le (by decide)]
  exact BitVec.extractLsb'_eq_self

@[simp] theorem encodeDataProcessing_field_0_12 : field (encodeDataProcessing c op sb rn rd o) 0 12 = o.encode.2 := by
  simp only [field, encodeDataProcessing, BitVec.extractLsb'_cast]
  repeat first | rw [BitVec.extractLsb'_append_eq_of_le (by decide)]
               | rw [BitVec.extractLsb'_append_eq_of_add_le (by decide)]
  exact BitVec.extractLsb'_eq_self

end

section

variable (c : Cond) (b : BitVec 1) (rn rd : RegNum) (sbz : BitVec 4) (rm : RegNum)

@[simp] theorem encodeSwap_field_28_4 : field (encodeSwap c b rn rd sbz rm) 28 4 = c.bits := by
  simp only [field, encodeSwap, BitVec.extractLsb'_cast]
  repeat rw [BitVec.extractLsb'_append_eq_of_le (by decide)]
  exact BitVec.extractLsb'_eq_self

@[simp] theorem encodeSwap_field_23_5 : field (encodeSwap c b rn rd sbz rm) 23 5 = 0b00010#5 := by
  simp only [field, encodeSwap, BitVec.extractLsb'_cast]
  repeat first | rw [BitVec.extractLsb'_append_eq_of_le (by decide)]
               | rw [BitVec.extractLsb'_append_eq_of_add_le (by decide)]
  exact BitVec.extractLsb'_eq_self

@[simp] theorem encodeSwap_field_22_1 : field (encodeSwap c b rn rd sbz rm) 22 1 = b := by
  simp only [field, encodeSwap, BitVec.extractLsb'_cast]
  repeat first | rw [BitVec.extractLsb'_append_eq_of_le (by decide)]
               | rw [BitVec.extractLsb'_append_eq_of_add_le (by decide)]
  exact BitVec.extractLsb'_eq_self

@[simp] theorem encodeSwap_field_20_2 : field (encodeSwap c b rn rd sbz rm) 20 2 = 0b00#2 := by
  simp only [field, encodeSwap, BitVec.extractLsb'_cast]
  repeat first | rw [BitVec.extractLsb'_append_eq_of_le (by decide)]
               | rw [BitVec.extractLsb'_append_eq_of_add_le (by decide)]
  exact BitVec.extractLsb'_eq_self

@[simp] theorem encodeSwap_field_16_4 : field (encodeSwap c b rn rd sbz rm) 16 4 = rn := by
  simp only [field, encodeSwap, BitVec.extractLsb'_cast]
  repeat first | rw [BitVec.extractLsb'_append_eq_of_le (by decide)]
               | rw [BitVec.extractLsb'_append_eq_of_add_le (by decide)]
  exact BitVec.extractLsb'_eq_self

@[simp] theorem encodeSwap_field_12_4 : field (encodeSwap c b rn rd sbz rm) 12 4 = rd := by
  simp only [field, encodeSwap, BitVec.extractLsb'_cast]
  repeat first | rw [BitVec.extractLsb'_append_eq_of_le (by decide)]
               | rw [BitVec.extractLsb'_append_eq_of_add_le (by decide)]
  exact BitVec.extractLsb'_eq_self

@[simp] theorem encodeSwap_field_8_4 : field (encodeSwap c b rn rd sbz rm) 8 4 = sbz := by
  simp only [field, encodeSwap, BitVec.extractLsb'_cast]
  repeat first | rw [BitVec.extractLsb'_append_eq_of_le (by decide)]
               | rw [BitVec.extractLsb'_append_eq_of_add_le (by decide)]
  exact BitVec.extractLsb'_eq_self

@[simp] theorem encodeSwap_field_4_4 : field (encodeSwap c b rn rd sbz rm) 4 4 = 0b1001#4 := by
  simp only [field, encodeSwap, BitVec.extractLsb'_cast]
  repeat first | rw [BitVec.extractLsb'_append_eq_of_le (by decide)]
               | rw [BitVec.extractLsb'_append_eq_of_add_le (by decide)]
  exact BitVec.extractLsb'_eq_self

@[simp] theorem encodeSwap_field_0_4 : field (encodeSwap c b rn rd sbz rm) 0 4 = rm := by
  simp only [field, encodeSwap, BitVec.extractLsb'_cast]
  repeat first | rw [BitVec.extractLsb'_append_eq_of_le (by decide)]
               | rw [BitVec.extractLsb'_append_eq_of_add_le (by decide)]
  exact BitVec.extractLsb'_eq_self

end

end Sys2Proof
end

