-- ==== Sys2Proof/Laws/Hazard.lean ====
section
/-!
SUPPORT. The registers that the hazard check of R268 looks at are those that the register fields and the register list of the
instruction's word name (spec/30_encoding.md R82, spec/70_reset_and_hazards.md R268).
-/

namespace Sys2Proof.Machine

theorem mem_listRegs (list : BitVec 16) (r : RegNum) : r ∈ listRegs list ↔ list.getLsbD r.toNat = true := by
  simp only [listRegs, List.mem_map, List.mem_filter, List.mem_range]
  constructor
  · rintro ⟨j, ⟨hj, hl⟩, rfl⟩
    simpa [Nat.mod_eq_of_lt hj] using hl
  · exact fun h => ⟨r.toNat, ⟨r.isLt, h⟩, by simp⟩

theorem mem_operand1Regs (w : Word) (r : RegNum) :
    r ∈ operand1Regs (decodeOperand1 w) ↔
      w.getLsbD 25 = false ∧ (r = field w 0 4 ∨ (w.getLsbD 4 = true ∧ r = field w 8 4)) := by
  unfold decodeOperand1
  cases h25 : w.getLsbD 25 <;> cases h4 : w.getLsbD 4 <;>
    by_cases hx : field w 5 2 = 0b11#2 ∧ field w 7 5 = 0#5 <;> simp [hx, operand1Regs]

theorem mem_offset2Rm (w : Word) (r : RegNum) :
    r ∈ (offset2Rm (decodeOffset2 w)).toList ↔ w.getLsbD 25 = true ∧ r = field w 0 4 := by
  unfold decodeOffset2
  cases h25 : w.getLsbD 25 <;>
    by_cases hx : field w 5 2 = 0b11#2 ∧ field w 7 5 = 0#5 <;> simp only [Option.mem_toList, hx] <;>
    simp [offset2Rm, @eq_comm _ r]

/-- Bits [15:0] of a word, bit by bit. -/
theorem field16_getLsbD (w : Word) (r : RegNum) : (field w 0 16).getLsbD r.toNat = w.getLsbD r.toNat := by
  have := r.isLt
  simp [field, BitVec.getLsbD_extractLsb']
  omega

/-- R82, R268: the registers that an instruction's operands name are those that its word's fields name. -/
theorem mem_fieldRegs_iff {w : Word} {i : Instr} (h : decode w = .instr i) (r : RegNum) :
    r ∈ fieldRegs i ↔ namesRegister i w r := by
  unfold decode decodeConditional decodeCoprocessor decodeMultiple decodeStore decodeExtension decodeDataProcessing at h
  repeat' split at h
  all_goals first
    | cases h; done
    | (injection h with h; subst h
       simp [fieldRegs, namesRegister, mem_listRegs, mem_operand1Regs, field16_getLsbD, mem_offset2Rm,
         -Option.mem_toList])

end Sys2Proof.Machine
end

