-- ==== Sys2Proof/Laws/Memory.lean ====
section
/-!
SUPPORT. Memory: reading after writing, the bytes of a word, and the canonical form that every memory operation keeps
(spec/20_memory.md R50, R53, R54, R56).
-/

namespace Sys2Proof.Machine

/-! ## Bytes -/

/-- Reading after a write of one byte: the byte written there, the old one everywhere else. -/
theorem Memory.read_write (m : Memory) (a a' : Nat) (b : Byte) :
    (m.write a b).read a' = if a = a' then some b else m.read a' := by
  induction m with
  | nil => simp [Memory.write, Memory.read]
  | cons cell rest ih =>
    obtain ⟨k, c⟩ := cell
    unfold Memory.write
    split
    · simp [Memory.read]
    · split
      · rename_i h; subst h; by_cases h' : a = a' <;> simp [Memory.read, h']
      · rename_i hlt hne
        by_cases hk : k = a'
        · subst hk; simp [Memory.read, hne]
        · simp [Memory.read, hk, ih]

@[simp] theorem Memory.read_write_same (m : Memory) (a : Nat) (b : Byte) : (m.write a b).read a = some b := by
  simp [Memory.read_write]

theorem Memory.read_write_of_ne (m : Memory) {a a' : Nat} (b : Byte) (h : a ≠ a') :
    (m.write a b).read a' = m.read a' := by
  simp [Memory.read_write, h]

/-! ## The canonical form -/

theorem Memory.risingFrom_write (m : Memory) (low a : Nat) (b : Byte) (hlow : low ≤ a) (ha : a < 2 ^ 32)
    (h : Memory.risingFrom low m = true) : Memory.risingFrom low (m.write a b) = true := by
  induction m generalizing low with
  | nil => simpa [Memory.write, Memory.risingFrom, hlow] using ha
  | cons cell rest ih =>
    obtain ⟨k, c⟩ := cell
    simp only [Memory.risingFrom, Bool.and_eq_true, decide_eq_true_eq] at h
    obtain ⟨⟨hk, hk'⟩, hrest⟩ := h
    unfold Memory.write
    split
    · simp only [Memory.risingFrom, Bool.and_eq_true, decide_eq_true_eq]
      exact ⟨⟨hlow, ha⟩, ⟨by omega, hk'⟩, hrest⟩
    · split
      · rename_i h; subst h
        simp only [Memory.risingFrom, Bool.and_eq_true, decide_eq_true_eq]
        exact ⟨⟨hlow, ha⟩, hrest⟩
      · simp only [Memory.risingFrom, Bool.and_eq_true, decide_eq_true_eq]
        exact ⟨⟨hk, hk'⟩, ih (k + 1) (by omega) hrest⟩

/-- A write of a byte inside the address space keeps the canonical form. -/
theorem Memory.wf_write (m : Memory) (a : Nat) (b : Byte) (ha : a < 2 ^ 32) (h : m.wf = true) :
    (m.write a b).wf = true :=
  Memory.risingFrom_write m 0 a b (Nat.zero_le a) ha h

/-- A write of a word inside the address space keeps the canonical form. -/
theorem Memory.wf_writeWord (m : Memory) (big : Bool) (a : Nat) (w : Word) (ha : a + 4 ≤ 2 ^ 32) (h : m.wf = true) :
    (m.writeWord big a w).wf = true := by
  unfold Memory.writeWord
  exact Memory.wf_write _ _ _ (by omega) (Memory.wf_write _ _ _ (by omega) (Memory.wf_write _ _ _ (by omega)
    (Memory.wf_write _ _ _ (by omega) h)))

/-! ## Words -/

/-- Each byte of a word, taken apart and put together again. -/
theorem wordOfBytes_byteOfWord (big : Bool) (w : Word) :
    wordOfBytes big (byteOfWord big w 0) (byteOfWord big w 1) (byteOfWord big w 2) (byteOfWord big w 3) = w := by
  cases big <;> simp only [wordOfBytes, byteOfWord, if_true, if_false, Bool.false_eq_true] <;>
    apply BitVec.eq_of_getLsbD_eq <;> intro i hi <;>
    simp only [BitVec.getLsbD_cast, BitVec.getLsbD_append, BitVec.getLsbD_extractLsb'] <;> split_ifs <;>
    (rw [decide_eq_true (by omega), Bool.true_and]; congr 1; omega)

/-- Reading a byte after a write of a word: one of the word's four bytes, or the old byte. -/
theorem Memory.read_writeWord (m : Memory) (big : Bool) (a a' : Nat) (w : Word) :
    (m.writeWord big a w).read a' =
      if a ≤ a' ∧ a' < a + 4 then some (byteOfWord big w (a' - a)) else m.read a' := by
  unfold Memory.writeWord
  simp only [Memory.read_write]
  by_cases h3 : a + 3 = a'
  · subst h3; simp
  · by_cases h2 : a + 2 = a'
    · subst h2; simp
    · by_cases h1 : a + 1 = a'
      · subst h1; simp
      · by_cases h0 : a = a'
        · subst h0; simp
        · have : ¬ (a ≤ a' ∧ a' < a + 4) := by omega
          simp [h0, h1, h2, h3, this]

/-- Reading a word where it was written. -/
@[simp] theorem Memory.readWord_writeWord_same (m : Memory) (big : Bool) (a : Nat) (w : Word) :
    (m.writeWord big a w).readWord big a = some w := by
  simp [Memory.readWord, Memory.read_writeWord, wordOfBytes_byteOfWord]

/-- A word is its four bytes: memories that agree on them agree on the word. -/
theorem Memory.readWord_congr {m m' : Memory} (big : Bool) (a : Nat)
    (h : ∀ k, a ≤ k → k < a + 4 → m'.read k = m.read k) : m'.readWord big a = m.readWord big a := by
  simp only [Memory.readWord]
  rw [h a (by omega) (by omega), h (a + 1) (by omega) (by omega), h (a + 2) (by omega) (by omega),
    h (a + 3) (by omega) (by omega)]

/-! ## Word alignment -/

/-- The bits of the mask that clears the low two bits of an address. -/
theorem alignMask_getElem : ∀ j : Fin 32, (0xFFFFFFFC#32 : BitVec 32)[j.val] = !decide (j.val < 2) := by decide

/-- R54: clearing the low two bits. -/
theorem alignWord_toNat (a : Word) : (alignWord a).toNat = 4 * (a.toNat / 4) := by
  have h : alignWord a = (a >>> 2) <<< 2 := by
    unfold alignWord
    ext i hi
    rw [BitVec.getElem_and, alignMask_getElem ⟨i, hi⟩, BitVec.getElem_shiftLeft]
    by_cases h2 : i < 2
    · simp [h2]
    · simp only [h2, decide_false, Bool.not_false, Bool.and_true, Bool.true_and, BitVec.getElem_ushiftRight]
      rw [show 2 + (i - 2) = i by omega, BitVec.getLsbD_eq_getElem hi]
  have hlt := a.isLt
  rw [h]
  simp only [BitVec.toNat_shiftLeft, BitVec.toNat_ushiftRight, Nat.shiftLeft_eq, Nat.shiftRight_eq_div_pow]
  omega

theorem alignWord_lt (a : Word) : (alignWord a).toNat + 4 ≤ 2 ^ 32 := by
  have := a.isLt
  rw [alignWord_toNat]; omega

theorem misaligned_iff (a : Word) : misaligned a = true ↔ a.toNat % 4 ≠ 0 := by
  unfold misaligned
  rw [Bool.not_eq_true', decide_eq_false_iff_not, not_iff_not, ← BitVec.toNat_inj, BitVec.extractLsb'_toNat]
  simp

theorem misaligned_eq_false_iff (a : Word) : misaligned a = false ↔ a.toNat % 4 = 0 := by
  have := misaligned_iff a
  cases h : misaligned a <;> simp_all

theorem alignWord_of_aligned {a : Word} (h : misaligned a = false) : alignWord a = a := by
  rw [misaligned_eq_false_iff] at h
  apply BitVec.eq_of_toNat_eq
  rw [alignWord_toNat]; omega

@[simp] theorem misaligned_alignWord (a : Word) : misaligned (alignWord a) = false := by
  rw [misaligned_eq_false_iff, alignWord_toNat]; omega

@[simp] theorem alignWord_alignWord (a : Word) : alignWord (alignWord a) = alignWord a :=
  alignWord_of_aligned (misaligned_alignWord a)

/-! ## The record of stores -/

theorem mem_insertRising (n a : Nat) (l : List Nat) : a ∈ insertRising n l ↔ a = n ∨ a ∈ l := by
  induction l with
  | nil => simp [insertRising]
  | cons k rest ih =>
    unfold insertRising
    split
    · simp
    · split
      · rename_i h; subst h; simp
      · simp only [List.mem_cons, ih]; tauto

theorem storedRisingFrom_insert (l : List Nat) (low n : Nat) (hlow : low ≤ n) (h4 : n % 4 = 0) (hn : n < 2 ^ 32)
    (h : storedRisingFrom low l = true) : storedRisingFrom low (insertRising n l) = true := by
  induction l generalizing low with
  | nil => simpa [insertRising, storedRisingFrom, hlow, h4] using hn
  | cons k rest ih =>
    simp only [storedRisingFrom, Bool.and_eq_true, decide_eq_true_eq] at h
    obtain ⟨⟨⟨hk, hk4⟩, hk'⟩, hrest⟩ := h
    unfold insertRising
    split
    · simp only [storedRisingFrom, Bool.and_eq_true, decide_eq_true_eq]
      exact ⟨⟨⟨hlow, h4⟩, hn⟩, ⟨⟨by omega, hk4⟩, hk'⟩, hrest⟩
    · split
      · simp only [storedRisingFrom, Bool.and_eq_true, decide_eq_true_eq]
        exact ⟨⟨⟨hk, hk4⟩, hk'⟩, hrest⟩
      · simp only [storedRisingFrom, Bool.and_eq_true, decide_eq_true_eq]
        exact ⟨⟨⟨hk, hk4⟩, hk'⟩, ih (k + 1) (by omega) hrest⟩

/-! ## Stores into the state -/

/-- Memory and the record of stores are in canonical form. -/
def State.storesWf (s : State) : Prop := s.mem.wf = true ∧ storedRisingFrom 0 s.stored = true

@[simp] theorem State.putByte_mem (s : State) (a : Word) (b : Byte) : (s.putByte a b).mem = s.mem.write a.toNat b := rfl

@[simp] theorem State.putByte_stored (s : State) (a : Word) (b : Byte) :
    (s.putByte a b).stored = insertRising (alignWord a).toNat s.stored := rfl

@[simp] theorem State.putWord_mem (s : State) (a w : Word) :
    (s.putWord a w).mem = s.mem.writeWord s.config.bigEndian (alignWord a).toNat w := rfl

@[simp] theorem State.putWord_stored (s : State) (a w : Word) :
    (s.putWord a w).stored = insertRising (alignWord a).toNat s.stored := rfl

theorem insertRising_alignWord_wf (s : State) (a : Word) (h : storedRisingFrom 0 s.stored = true) :
    storedRisingFrom 0 (insertRising (alignWord a).toNat s.stored) = true :=
  storedRisingFrom_insert _ _ _ (Nat.zero_le _) (by rw [alignWord_toNat]; omega)
    (by have := alignWord_lt a; omega) h

theorem State.storesWf_putByte (s : State) (a : Word) (b : Byte) (h : s.storesWf) : (s.putByte a b).storesWf :=
  ⟨Memory.wf_write _ _ _ a.isLt h.1, insertRising_alignWord_wf s a h.2⟩

theorem State.storesWf_putWord (s : State) (a w : Word) (h : s.storesWf) : (s.putWord a w).storesWf :=
  ⟨Memory.wf_writeWord _ _ _ _ (alignWord_lt a) h.1, insertRising_alignWord_wf s a h.2⟩

theorem State.storesWf_putBlock (s : State) (a : Word) (ws : List Word) (h : s.storesWf) :
    (s.putBlock a ws).storesWf := by
  induction ws generalizing s a with
  | nil => exact h
  | cons w ws ih => exact ih _ _ (s.storesWf_putWord a w h)

theorem State.storesWf_putFreeWord (s : State) (a : Word) (h : s.storesWf) : (s.putFreeWord a).storesWf := by
  unfold State.putFreeWord
  split
  · exact h
  · exact s.storesWf_putWord a _ h

theorem State.storesWf_putFreeBlock (s : State) (a : Word) (n : Nat) (h : s.storesWf) :
    (s.putFreeBlock a n).storesWf := by
  induction n generalizing s a with
  | zero => exact h
  | succ n ih => exact ih _ _ (s.storesWf_putFreeWord a h)

/-- The reset state's memory and record of stores are in canonical form. -/
theorem State.storesWf_reset : State.reset.storesWf := by
  constructor <;> rfl

end Sys2Proof.Machine
end

