-- ==== Sys2Proof/Laws/Psr.lean ====
section
/-!
SUPPORT. Status register words: each field of a word with new flags, and of the word that an exception entry makes
(spec/10_state.md R31, spec/60_exceptions.md R222).
-/

namespace Sys2Proof.Machine

variable (p : Word) (n z c v : Bool)

/-! ## New flags -/

@[simp] theorem psrN_withFlags : psrN (psrWithFlags p n z c v) = n := by
  simp only [psrN, psrWithFlags, BitVec.getLsbD_cast, BitVec.getLsbD_append]
  simp

@[simp] theorem psrZ_withFlags : psrZ (psrWithFlags p n z c v) = z := by
  simp only [psrZ, psrWithFlags, BitVec.getLsbD_cast, BitVec.getLsbD_append]
  simp

@[simp] theorem psrC_withFlags : psrC (psrWithFlags p n z c v) = c := by
  simp only [psrC, psrWithFlags, BitVec.getLsbD_cast, BitVec.getLsbD_append]
  simp

@[simp] theorem psrV_withFlags : psrV (psrWithFlags p n z c v) = v := by
  simp only [psrV, psrWithFlags, BitVec.getLsbD_cast, BitVec.getLsbD_append]
  simp

/-- A bit below the flags stays. -/
theorem getLsbD_withFlags (i : Nat) (h : i < 28) : (psrWithFlags p n z c v).getLsbD i = p.getLsbD i := by
  simp only [psrWithFlags, BitVec.getLsbD_cast, BitVec.getLsbD_append]
  simp [h]

@[simp] theorem below_withFlags : (psrWithFlags p n z c v).extractLsb' 0 28 = p.extractLsb' 0 28 := by
  ext i hi
  simp only [BitVec.getElem_extractLsb', Nat.zero_add]
  exact getLsbD_withFlags p n z c v i hi

@[simp] theorem psrI_withFlags : psrI (psrWithFlags p n z c v) = psrI p := getLsbD_withFlags _ _ _ _ _ 7 (by omega)

@[simp] theorem psrF_withFlags : psrF (psrWithFlags p n z c v) = psrF p := getLsbD_withFlags _ _ _ _ _ 6 (by omega)

@[simp] theorem psrT_withFlags : psrT (psrWithFlags p n z c v) = psrT p := getLsbD_withFlags _ _ _ _ _ 5 (by omega)

@[simp] theorem psrM_withFlags : psrM (psrWithFlags p n z c v) = psrM p := by
  ext i hi
  simp only [psrM, BitVec.getElem_extractLsb', Nat.zero_add]
  exact getLsbD_withFlags p n z c v i (by omega)

@[simp] theorem control_withFlags : (psrWithFlags p n z c v).extractLsb' 0 8 = p.extractLsb' 0 8 := by
  ext i hi
  simp only [BitVec.getElem_extractLsb', Nat.zero_add]
  exact getLsbD_withFlags p n z c v i (by omega)

/-! ## Exception entry -/

variable (m : BitVec 5) (f : Bool)

@[simp] theorem psrM_onEntry : psrM (psrOnEntry p m f) = m := by
  ext i hi
  simp only [psrM, psrOnEntry, BitVec.getElem_extractLsb', BitVec.getLsbD_cast, BitVec.getLsbD_append]
  simp [hi]

@[simp] theorem psrT_onEntry : psrT (psrOnEntry p m f) = false := by
  simp only [psrT, psrOnEntry, BitVec.getLsbD_cast, BitVec.getLsbD_append]
  simp

@[simp] theorem psrF_onEntry : psrF (psrOnEntry p m f) = (f || psrF p) := by
  simp only [psrF, psrOnEntry, BitVec.getLsbD_cast, BitVec.getLsbD_append]
  simp

@[simp] theorem psrI_onEntry : psrI (psrOnEntry p m f) = true := by
  simp only [psrI, psrOnEntry, BitVec.getLsbD_cast, BitVec.getLsbD_append]
  simp

/-- The bits above the I bit, flags and reserved bits, stay. -/
@[simp] theorem above_onEntry : (psrOnEntry p m f).extractLsb' 8 24 = p.extractLsb' 8 24 := by
  ext i hi
  simp only [BitVec.getElem_extractLsb', psrOnEntry, BitVec.getLsbD_cast, BitVec.getLsbD_append]
  simp [hi, show ¬ 8 + i < 5 by omega, show ¬ 8 + i - 5 < 1 by omega, show ¬ 8 + i - 5 - 1 < 1 by omega,
    show ¬ 8 + i - 5 - 1 - 1 < 1 by omega, show 8 + i - 5 - 1 - 1 - 1 = i by omega]

/-! ## Flag results -/

variable (a b : Word)

@[simp] theorem below_subFlags : (subFlags p a b).extractLsb' 0 28 = p.extractLsb' 0 28 := by simp [subFlags]

@[simp] theorem below_logicFlags (x : Word) : (logicFlags p x c).extractLsb' 0 28 = p.extractLsb' 0 28 := by
  simp [logicFlags]

@[simp] theorem below_longFlags (r : BitVec 64) : (longFlags p r c v).extractLsb' 0 28 = p.extractLsb' 0 28 := by
  simp [longFlags]

/-- R13: the two forms of signed overflow of a subtraction. -/
theorem overflowFromSub_eq : overflowFromSub a b = ((a.msb != b.msb) && ((a - b).msb != a.msb)) := by
  have ha := a.isLt
  have hb := b.isLt
  rw [Bool.eq_iff_iff]
  simp only [overflowFromSub, decide_eq_true_eq, BitVec.msb_eq_decide, BitVec.toInt_eq_toNat_cond, BitVec.toNat_sub,
    Bool.and_eq_true, bne_iff_ne, ne_eq, decide_eq_decide]
  split_ifs <;> omega

end Sys2Proof.Machine
end

