-- ==== Sys2Proof/Laws/Registers.lean ====
section
/-!
SUPPORT. Registers and modes: reading a register after writing one, which numbers name which physical register
(spec/10_state.md R21), and the mode after each update.
-/

namespace Sys2Proof.Machine

/-! ## Modes -/

@[simp] theorem Mode.ofBits_bits (m : Mode) : Mode.ofBits m.bits = some m := by cases m <;> rfl

theorem Mode.bits_of_ofBits {b : BitVec 5} {m : Mode} (h : Mode.ofBits b = some m) : b = m.bits := by
  revert h; revert b; cases m <;> decide

/-- R245: every mode but System mode is one in every version. -/
theorem Mode.ofBitsIn_bits (v : ArchVersion) {m : Mode} (h : m ≠ .system) : Mode.ofBitsIn v m.bits = some m := by
  cases m <;> first | rfl | exact absurd rfl h

/-- R245: which numbers are a mode's. -/
theorem Mode.ofBitsIn_ne_none_iff (v : ArchVersion) (b : BitVec 5) : Mode.ofBitsIn v b ≠ none ↔ isModeNumber v b := by
  unfold Mode.ofBitsIn isModeNumber
  rcases Nat.lt_or_ge v.version 4 with h | h
  · simp only [h, Nat.not_le.2 h, and_true, and_false, or_false]
    revert b; decide
  · simp only [h, Nat.not_lt.2 h, and_true, and_false, if_false]
    revert b; decide

theorem Mode.ofBitsIn_eq_ofBits {v : ArchVersion} (h : 4 ≤ v.version) (b : BitVec 5) :
    Mode.ofBitsIn v b = Mode.ofBits b := by
  simp [Mode.ofBitsIn, Nat.not_lt.2 h]

theorem Mode.ofBits_of_ofBitsIn {v : ArchVersion} {b : BitVec 5} {m : Mode} (h : Mode.ofBitsIn v b = some m) :
    Mode.ofBits b = some m := by
  unfold Mode.ofBitsIn at h
  split at h
  · cases h
  · exact h

/-- The mode depends on the CPSR and the architecture version only. -/
theorem State.mode_congr {s t : State} (h : t.cpsr = s.cpsr) (hc : t.config = s.config) : t.mode = s.mode := by
  simp [State.mode, h, hc]

/-- Of the CPSR, the mode depends on the mode bits only. -/
theorem State.mode_of_psrM {s t : State} (h : psrM t.cpsr = psrM s.cpsr) (hc : t.config = s.config) :
    t.mode = s.mode := by
  simp [State.mode, h, hc]

@[simp] theorem State.setReg_mode (s : State) (r : RegNum) (v : Word) : (s.setReg r v).mode = s.mode :=
  State.mode_congr (by simp) (by simp)

theorem Exc.mode_ne_system (e : Exc) : e.mode ≠ .system := by cases e <;> decide

@[simp] theorem State.raise_mode (s : State) (e : Exc) : (s.raise e).mode = some e.mode := by
  simp [State.mode, Mode.ofBitsIn_bits _ e.mode_ne_system]

@[simp] theorem State.privilege_congr {s t : State} (h : t.cpsr = s.cpsr) (hc : t.config = s.config) :
    t.privilege = s.privilege := by
  simp [State.privilege, State.mode_congr h hc]

/-! ## Physical registers -/

/-- In one mode, numbers below 15 name different physical registers. -/
theorem physIndex_injective (m : Option Mode) {r r' : RegNum} (hr : r ≠ 15#4) (hr' : r' ≠ 15#4)
    (h : physIndex m r = physIndex m r') : r = r' := by
  revert r r'
  rcases m with _ | m
  · decide
  · cases m <;> decide

theorem physIndex_val_ne (m : Option Mode) {r r' : RegNum} (hr : r ≠ 15#4) (hr' : r' ≠ 15#4) (h : r ≠ r') :
    (physIndex m r).val ≠ (physIndex m r').val :=
  fun hv => h (physIndex_injective m hr hr' (Fin.ext hv))

/-! ## Reading after writing -/

@[simp] theorem State.reg_setReg_same (s : State) (r : RegNum) (v : Word) : (s.setReg r v).reg r = v := by
  by_cases h : r = 15#4
  · subst h; rfl
  · simp [State.reg, h, s.setReg_regs r v h]

theorem State.reg_setReg_of_ne (s : State) {r r' : RegNum} (v : Word) (hr : r ≠ 15#4) (h : r ≠ r') :
    (s.setReg r v).reg r' = s.reg r' := by
  by_cases h' : r' = 15#4
  · subst h'; simp [State.reg, s.setReg_pc r v hr]
  · simp [State.reg, h', s.setReg_regs r v hr, physIndex_val_ne s.mode hr h' h]

/-- Reading a register depends on the registers, the program counter and the mode only. -/
theorem State.reg_congr {s t : State} (hr : t.regs = s.regs) (hp : t.pc = s.pc) (hm : t.mode = s.mode) (r : RegNum) :
    t.reg r = s.reg r := by
  simp [State.reg, hr, hp, hm]

/-- Reading a register other than R15 depends on the registers and the mode only. -/
theorem State.reg_congr_of_ne {s t : State} {r : RegNum} (h : r ≠ 15#4) (hr : t.regs = s.regs) (hm : t.mode = s.mode) :
    t.reg r = s.reg r := by
  simp [State.reg, h, hr, hm]

/-- A register write reaches one physical register only. -/
theorem State.regsKeptBut_setReg (s : State) (r : RegNum) (v : Word) (h : r ≠ 15#4) :
    regsKeptBut s (s.setReg r v) [r] := by
  intro i hi
  rw [s.setReg_regs r v h, Vector.getElem_set, if_neg]
  exact fun e => hi r (by simp) (Fin.ext e)

theorem regsKeptBut_of_regs_eq {s t : State} (l : List RegNum) (h : t.regs = s.regs) : regsKeptBut s t l := by
  intro i _; rw [h]

theorem regsKeptBut_trans {s t u : State} {l l' : List RegNum} (h : regsKeptBut s t l) (h' : regsKeptBut t u l')
    (hm : t.mode = s.mode) : regsKeptBut s u (l ++ l') := by
  intro i hi
  rw [h' i fun r hr => by rw [hm]; exact hi r (List.mem_append_right _ hr),
    h i fun r hr => hi r (List.mem_append_left _ hr)]

/-! ## Exception entry -/

/-- R222: R14 of the mode entered is the link value. -/
@[simp] theorem State.raise_reg14 (s : State) (e : Exc) : (s.raise e).reg 14#4 = s.pc + e.linkOffset := by
  simp [State.reg, State.raise_mode]

/-- R222: the SPSR of the mode entered is the old CPSR. -/
@[simp] theorem State.raise_spsr (s : State) (e : Exc) : (s.raise e).spsr = some s.cpsr := by
  cases e <;> simp [State.spsr, Exc.mode, Mode.spsrIndex, State.setSpsrOf]

/-- R221: a vector is word aligned. -/
theorem State.raise_aligned (s : State) (e : Exc) : misaligned (s.raise e).pc = false := by
  rw [State.raise_pc]
  unfold State.vectorBase
  split <;> cases e <;> decide

end Sys2Proof.Machine
end

