-- ==== Sys2Proof/Laws/Ops.lean ====
section
/-!
SUPPORT. What each shared operation can do, said once: if it answers a next state, which one. Later proofs cite these
lemmas and do not unfold the operations.
-/

namespace Sys2Proof.Machine

/-! ## Going on, and the condition -/

theorem State.advance_of_hasNext {s : State} (h : s.hasNext) : s.advance = .next { s with pc := s.pc + 4#32 } :=
  if_pos h

theorem State.advance_of_not_hasNext {s : State} (h : ¬ s.hasNext) : s.advance = .fault .addressWrap := if_neg h

theorem State.advance_next {s t : State} (h : s.advance = .next t) : s.hasNext ∧ t = { s with pc := s.pc + 4#32 } := by
  by_cases hn : s.hasNext
  · rw [s.advance_of_hasNext hn] at h
    exact ⟨hn, by injection h with h; exact h.symm⟩
  · rw [s.advance_of_not_hasNext hn] at h; cases h

/-- Whether there is a next instruction depends on the program counter only. -/
theorem State.hasNext_congr {s t : State} (h : t.pc = s.pc) : t.hasNext ↔ s.hasNext := by
  simp [State.hasNext, h]

theorem whenPassed_pos {c : Cond} {s : State} (body : Result) (h : s.condPassed c = true) :
    whenPassed c s body = body := by
  simp [whenPassed, h]

theorem whenPassed_neg {c : Cond} {s : State} (body : Result) (h : s.condPassed c = false) :
    whenPassed c s body = s.advance := by
  simp [whenPassed, h]

/-- An instruction under a condition goes on at the next one, or its condition passed and its body answered. -/
theorem whenPassed_next {c : Cond} {s t : State} {body : Result} (h : whenPassed c s body = .next t) :
    (s.condPassed c = false ∧ s.hasNext ∧ t = { s with pc := s.pc + 4#32 }) ∨
      (s.condPassed c = true ∧ body = .next t) := by
  cases hc : s.condPassed c with
  | false => rw [whenPassed_neg _ hc] at h; exact .inl ⟨rfl, State.advance_next h⟩
  | true => rw [whenPassed_pos _ hc] at h; exact .inr ⟨rfl, h⟩

/-! ## Branches and exception returns -/

/-- R28: what is branched to is word aligned. -/
theorem State.branchTo_next {s t : State} {v : Word} (h : s.branchTo v = .next t) :
    misaligned v = false ∧ t = { s with pc := v } := by
  unfold State.branchTo at h
  split at h
  · cases h
  · rename_i hv
    injection h with h
    exact ⟨by simpa using hv, h.symm⟩

theorem State.exceptionReturn_next {s t : State} {v : Word} (h : s.exceptionReturn v = .next t) :
    ∃ saved, s.spsr = some saved ∧ psrT saved = false ∧ Mode.ofBitsIn s.config.arch (psrM saved) ≠ none ∧
      misaligned v = false ∧ t = { s with cpsr := saved, pc := v } := by
  unfold State.exceptionReturn at h
  split at h
  · cases h
  · rename_i saved hs
    split at h
    · cases h
    · rename_i hT
      split at h
      · cases h
      · rename_i hM
        split at h
        · cases h
        · rename_i hv
          injection h with h
          exact ⟨saved, hs, by simpa using hT, hM, by simpa using hv, h.symm⟩

/-! ## Single accesses -/

/-- R55: a read that answers a value did not abort; a word is the aligned word, a byte the byte itself. -/
theorem State.memRead_value {s : State} {pr : Privilege} {sz : AccessSize} {addr v : Word}
    (h : s.memRead pr sz addr = .value v) :
    s.accessAbort pr sz .read addr = none ∧
      ((sz = .word ∧ s.mem.readWord s.config.bigEndian (alignWord addr).toNat = some v) ∨
        (sz = .byte ∧ ∃ b, s.mem.read addr.toNat = some b ∧ v = b.setWidth 32)) := by
  unfold State.memRead at h
  split at h
  · cases h
  · rename_i ha
    refine ⟨ha, ?_⟩
    cases sz with
    | word =>
      simp only at h
      split at h
      · rename_i w hw; injection h with h; subst h; exact .inl ⟨rfl, hw⟩
      · cases h
    | byte =>
      simp only at h
      split at h
      · rename_i b hb; injection h with h; exact .inr ⟨rfl, b, hb, h.symm⟩
      · cases h

/-- R56: the state after a write. -/
def State.put (s : State) (sz : AccessSize) (addr v : Word) : State :=
  match sz with
  | .word => s.putWord addr v
  | .byte => s.putByte addr (v.extractLsb' 0 8)

theorem State.memWrite_of_ok {s : State} {pr : Privilege} {sz : AccessSize} {addr : Word} (v : Word)
    (h : s.accessAbort pr sz .write addr = none) : s.memWrite pr sz addr v = .done (s.put sz addr v) := by
  unfold State.memWrite
  rw [h]
  cases sz <;> rfl

theorem State.memWrite_of_abort {s : State} {pr : Privilege} {sz : AccessSize} {addr : Word} {k : AbortKind} (v : Word)
    (h : s.accessAbort pr sz .write addr = some k) : s.memWrite pr sz addr v = .aborted k := by
  unfold State.memWrite
  rw [h]

theorem State.memWrite_done {s t : State} {pr : Privilege} {sz : AccessSize} {addr v : Word}
    (h : s.memWrite pr sz addr v = .done t) : s.accessAbort pr sz .write addr = none ∧ t = s.put sz addr v := by
  cases ha : s.accessAbort pr sz .write addr with
  | some k => rw [State.memWrite_of_abort v ha] at h; cases h
  | none => rw [State.memWrite_of_ok v ha] at h; injection h with h; exact ⟨rfl, h.symm⟩

@[simp] theorem State.put_regs (s : State) (sz : AccessSize) (a v : Word) : (s.put sz a v).regs = s.regs := by
  cases sz <;> rfl

@[simp] theorem State.put_pc (s : State) (sz : AccessSize) (a v : Word) : (s.put sz a v).pc = s.pc := by
  cases sz <;> rfl

@[simp] theorem State.put_cpsr (s : State) (sz : AccessSize) (a v : Word) : (s.put sz a v).cpsr = s.cpsr := by
  cases sz <;> rfl

@[simp] theorem State.put_spsrs (s : State) (sz : AccessSize) (a v : Word) : (s.put sz a v).spsrs = s.spsrs := by
  cases sz <;> rfl

@[simp] theorem State.put_afterStm2 (s : State) (sz : AccessSize) (a v : Word) :
    (s.put sz a v).afterStm2 = s.afterStm2 := by
  cases sz <;> rfl

@[simp] theorem State.put_coprocs (s : State) (sz : AccessSize) (a v : Word) :
    (s.put sz a v).coprocs = s.coprocs := by
  cases sz <;> rfl

@[simp] theorem State.put_inputs (s : State) (sz : AccessSize) (a v : Word) : (s.put sz a v).inputs = s.inputs := by
  cases sz <;> rfl

@[simp] theorem State.put_config (s : State) (sz : AccessSize) (a v : Word) : (s.put sz a v).config = s.config := by
  cases sz <;> rfl

@[simp] theorem State.put_freeCount (s : State) (sz : AccessSize) (a v : Word) :
    (s.put sz a v).freeCount = s.freeCount := by
  cases sz <;> rfl

@[simp] theorem State.put_stored (s : State) (sz : AccessSize) (a v : Word) :
    (s.put sz a v).stored = insertRising (alignWord a).toNat s.stored := by
  cases sz <;> rfl

theorem State.storesWf_put (s : State) (sz : AccessSize) (a v : Word) (h : s.storesWf) : (s.put sz a v).storesWf := by
  cases sz
  · exact s.storesWf_putByte a _ h
  · exact s.storesWf_putWord a v h

/-! ## The base register -/

/-- The registers that a writeback names: one or none. -/
def wbRegs : Option (RegNum × Word) → List RegNum
  | some (rn, _) => [rn]
  | none => []

/-- A writeback never goes to R15 where the restrictions of the addressing modes have been tested. -/
def wbNotR15 (wb : Option (RegNum × Word)) : Prop := ∀ rn v, wb = some (rn, v) → rn ≠ 15#4

theorem State.writeback_pc (s : State) {wb : Option (RegNum × Word)} (h : wbNotR15 wb) :
    (s.writeback wb).pc = s.pc := by
  rcases wb with _ | ⟨rn, v⟩
  · rfl
  · exact s.setReg_pc rn v (h rn v rfl)

@[simp] theorem State.writeback_mode (s : State) (wb : Option (RegNum × Word)) : (s.writeback wb).mode = s.mode :=
  State.mode_congr (by simp) (by simp)

theorem State.regsKeptBut_writeback (s : State) {wb : Option (RegNum × Word)} (h : wbNotR15 wb) :
    regsKeptBut s (s.writeback wb) (wbRegs wb) := by
  rcases wb with _ | ⟨rn, v⟩
  · exact regsKeptBut_of_regs_eq _ rfl
  · exact s.regsKeptBut_setReg rn v (h rn v rfl)

/-- R232: the base register is the old one or the written-back one. -/
theorem State.baseAfterAbort_cases (s : State) (wb : Option (RegNum × Word)) :
    s.baseAfterAbort wb = s ∨ s.baseAfterAbort wb = s.writeback wb := by
  unfold State.baseAfterAbort
  split <;> simp

theorem State.baseAfterAbort_pc (s : State) {wb : Option (RegNum × Word)} (h : wbNotR15 wb) :
    (s.baseAfterAbort wb).pc = s.pc := by
  rcases s.baseAfterAbort_cases wb with e | e <;> rw [e]
  exact s.writeback_pc h

/-- R170 to R172, R177: a store of one word or byte stores and goes on, or takes a Data Abort. -/
theorem State.storeOne_next {s t : State} {pr : Privilege} {sz : AccessSize} {addr v : Word}
    {wb : Option (RegNum × Word)} (h : s.storeOne pr sz addr v wb = .next t) :
    (s.accessAbort pr sz .write addr = none ∧ ((s.put sz addr v).writeback wb).hasNext ∧
        t = { (s.put sz addr v).writeback wb with pc := ((s.put sz addr v).writeback wb).pc + 4#32 }) ∨
      (s.accessAbort pr sz .write addr ≠ none ∧ t = (s.baseAfterAbort wb).raise .dataAbort) := by
  unfold State.storeOne at h
  cases ha : s.accessAbort pr sz .write addr with
  | some k =>
    rw [State.memWrite_of_abort v ha] at h
    injection h with h
    exact .inr ⟨by simp, h.symm⟩
  | none =>
    rw [State.memWrite_of_ok v ha] at h
    exact .inl ⟨rfl, State.advance_next h⟩

/-! ## Blocks of words -/

theorem add_four_mul (a : Word) (k : Nat) (h : a.toNat + 4 * k < 2 ^ 32) :
    (a + BitVec.ofNat 32 (4 * k)).toNat = a.toNat + 4 * k := by
  rw [BitVec.toNat_add, BitVec.toNat_ofNat]
  omega

theorem misaligned_add_four {a : Word} (h : misaligned a = false) : misaligned (a + 4#32) = false := by
  rw [misaligned_eq_false_iff] at *
  rw [BitVec.toNat_add]
  simp only [BitVec.toNat_ofNat]
  omega

/-- Reading a byte after a block has been stored that does not cross the top of the address space. -/
theorem State.read_putBlock (s : State) (a : Word) (ws : List Word) (ha : misaligned a = false)
    (hw : a.toNat + 4 * ws.length ≤ 2 ^ 32) (k : Nat) :
    (s.putBlock a ws).mem.read k =
      if h : a.toNat ≤ k ∧ k < a.toNat + 4 * ws.length then
        some (byteOfWord s.config.bigEndian (ws[(k - a.toNat) / 4]'(by omega)) ((k - a.toNat) % 4))
      else s.mem.read k := by
  induction ws generalizing s a with
  | nil =>
    rw [dif_neg (by simp only [List.length_nil]; omega)]
    rfl
  | cons w ws ih =>
    simp only [List.length_cons] at hw
    simp only [State.putBlock]
    rcases ws with _ | ⟨w', ws⟩
    · simp only [State.putBlock, State.putWord_mem, Memory.read_writeWord, alignWord_of_aligned ha, List.length_cons,
        List.length_nil]
      by_cases hk : a.toNat ≤ k ∧ k < a.toNat + 4
      · rw [if_pos hk, dif_pos (by omega)]
        have h0 : (k - a.toNat) / 4 = 0 := by omega
        simp [h0, show (k - a.toNat) % 4 = k - a.toNat by omega]
      · rw [if_neg hk, dif_neg (by omega)]
    · simp only [List.length_cons] at hw
      have ha4 : (a + 4#32).toNat = a.toNat + 4 := by
        rw [BitVec.toNat_add]; simp only [BitVec.toNat_ofNat]; omega
      rw [ih (s.putWord a w) (a + 4#32) (misaligned_add_four ha) (by rw [ha4]; simp only [List.length_cons]; omega)]
      simp only [State.putWord_config, State.putWord_mem, Memory.read_writeWord, alignWord_of_aligned ha,
        List.length_cons]
      by_cases hk : a.toNat ≤ k ∧ k < a.toNat + 4 * (ws.length + 1 + 1)
      · rw [dif_pos hk]
        by_cases h4 : k < a.toNat + 4
        · rw [dif_neg (by rw [ha4]; omega), if_pos (by omega)]
          have h0 : (k - a.toNat) / 4 = 0 := by omega
          simp [h0, show (k - a.toNat) % 4 = k - a.toNat by omega]
        · rw [dif_pos (by rw [ha4]; omega)]
          have h1 : (k - a.toNat) / 4 = (k - (a.toNat + 4)) / 4 + 1 := by omega
          have h2 : (k - (a.toNat + 4)) % 4 = (k - a.toNat) % 4 := by omega
          simp only [ha4, h1, h2, List.getElem_cons_succ]
      · rw [dif_neg hk, dif_neg (by rw [ha4]; omega), if_neg (by omega)]

/-- Each word of a block stands where it belongs. -/
theorem State.readWord_putBlock (s : State) (a : Word) (ws : List Word) (ha : misaligned a = false)
    (hw : a.toNat + 4 * ws.length ≤ 2 ^ 32) (k : Nat) (hk : k < ws.length) :
    (s.putBlock a ws).mem.readWord s.config.bigEndian (a.toNat + 4 * k) = some ws[k] := by
  have h (j : Nat) (hj : j < 4) :
      (s.putBlock a ws).mem.read (a.toNat + 4 * k + j) = some (byteOfWord s.config.bigEndian ws[k] j) := by
    rw [s.read_putBlock a ws ha hw, dif_pos (by omega)]
    have h1 : (a.toNat + 4 * k + j - a.toNat) / 4 = k := by omega
    have h2 : (a.toNat + 4 * k + j - a.toNat) % 4 = j := by omega
    simp [h1, h2]
  have h0 := h 0 (by omega)
  rw [Nat.add_zero] at h0
  simp [Memory.readWord, h0, h 1 (by omega), h 2 (by omega), h 3 (by omega), wordOfBytes_byteOfWord]

/-- Outside the block nothing changes. -/
theorem State.memKeptOutside_putBlock (s : State) (a : Word) (ws : List Word) (ha : misaligned a = false)
    (hw : a.toNat + 4 * ws.length ≤ 2 ^ 32) : memKeptOutside s (s.putBlock a ws) a.toNat (4 * ws.length) := by
  intro k hk
  rw [s.read_putBlock a ws ha hw, dif_neg (by omega)]

theorem State.mem_stored_putBlock (s : State) (a : Word) (ws : List Word) (ha : misaligned a = false)
    (hw : a.toNat + 4 * ws.length ≤ 2 ^ 32) : storedGrows s (s.putBlock a ws) a.toNat ws.length := by
  induction ws generalizing s a with
  | nil => intro x; simp [State.putBlock]
  | cons w ws ih =>
    intro x
    simp only [List.length_cons] at hw
    rcases ws with _ | ⟨w', ws⟩
    · simp [State.putBlock, mem_insertRising, alignWord_of_aligned ha]
      tauto
    · simp only [List.length_cons] at hw
      have ha4 : (a + 4#32).toNat = a.toNat + 4 := by
        rw [BitVec.toNat_add]; simp only [BitVec.toNat_ofNat]; omega
      have := ih (s.putWord a w) (a + 4#32) (misaligned_add_four ha)
        (by rw [ha4]; simp only [List.length_cons]; omega) x
      rw [State.putBlock, this, State.putWord_stored, mem_insertRising, alignWord_of_aligned ha, ha4]
      simp only [List.length_cons]
      constructor
      · rintro ((h | h) | ⟨k, hk, h⟩)
        · exact .inr ⟨0, by omega, by omega⟩
        · exact .inl h
        · exact .inr ⟨k + 1, by omega, by omega⟩
      · rintro (h | ⟨k, hk, h⟩)
        · exact .inl (.inr h)
        · rcases k with _ | k
          · exact .inl (.inl (by omega))
          · exact .inr ⟨k, by omega, by omega⟩

/-- R233: a refused word of an aborted block keeps its bytes, and so does everything outside the block. -/
theorem State.read_putFreeBlock_of_outside (s : State) (a : Word) (n : Nat) (ha : misaligned a = false)
    (hw : a.toNat + 4 * n ≤ 2 ^ 32) (x : Nat) (hx : x < a.toNat ∨ a.toNat + 4 * n ≤ x) :
    (s.putFreeBlock a n).mem.read x = s.mem.read x := by
  induction n generalizing s a with
  | zero => rfl
  | succ n ih =>
    have h1 : (s.putFreeWord a).mem.read x = s.mem.read x := by
      unfold State.putFreeWord
      split
      · rfl
      · simp only [State.putWord_mem, Memory.read_writeWord, alignWord_of_aligned ha]
        rw [if_neg (by omega)]
    rcases n with _ | n
    · exact h1
    · have ha4 : (a + 4#32).toNat = a.toNat + 4 := by
        rw [BitVec.toNat_add]; simp only [BitVec.toNat_ofNat]; omega
      rw [State.putFreeBlock, ih (s.putFreeWord a) (a + 4#32) (misaligned_add_four ha) (by rw [ha4]; omega)
        (by rw [ha4]; omega), h1]

/-- The three answers of a store of several words. -/
theorem State.storeBlock_cases (s : State) (start : Word) (ws : List Word) :
    (s.config.alignCheck = true ∧ misaligned start = true ∧ s.storeBlock start ws = .aborted .alignment s) ∨
    (¬ (s.config.alignCheck = true ∧ misaligned start = true) ∧ (alignWord start).toNat + 4 * ws.length > 2 ^ 32 ∧
      s.storeBlock start ws = .wraps) ∨
    (¬ (s.config.alignCheck = true ∧ misaligned start = true) ∧ (alignWord start).toNat + 4 * ws.length ≤ 2 ^ 32 ∧
      s.blockAborts (alignWord start) ws.length = true ∧
      s.storeBlock start ws = .aborted .external (s.putFreeBlock (alignWord start) ws.length)) ∨
    (¬ (s.config.alignCheck = true ∧ misaligned start = true) ∧ (alignWord start).toNat + 4 * ws.length ≤ 2 ^ 32 ∧
      s.blockAborts (alignWord start) ws.length = false ∧
      s.storeBlock start ws = .done (s.putBlock (alignWord start) ws)) := by
  unfold State.storeBlock
  by_cases h1 : s.config.alignCheck = true ∧ misaligned start = true
  · simp [h1.1, h1.2]
  · have h1' : (s.config.alignCheck && misaligned start) = false := by
      rw [Bool.eq_false_iff]; simpa using h1
    by_cases h2 : (alignWord start).toNat + 4 * ws.length > 2 ^ 32
    · exact .inr (.inl ⟨h1, h2, by rw [h1']; simp only [Bool.false_eq_true, if_false, if_pos h2]⟩)
    · cases h3 : s.blockAborts (alignWord start) ws.length with
      | true =>
        exact .inr (.inr (.inl ⟨h1, by omega, rfl, by
          rw [h1']; simp only [Bool.false_eq_true, if_false, if_neg h2, if_true]⟩))
      | false =>
        exact .inr (.inr (.inr ⟨h1, by omega, rfl, by
          rw [h1']; simp only [Bool.false_eq_true, if_false, if_neg h2]⟩))

theorem State.storeBlock_done {s t : State} {start : Word} {ws : List Word} (h : s.storeBlock start ws = .done t) :
    (alignWord start).toNat + 4 * ws.length ≤ 2 ^ 32 ∧ t = s.putBlock (alignWord start) ws := by
  rcases s.storeBlock_cases start ws with ⟨_, _, e⟩ | ⟨_, _, e⟩ | ⟨_, _, _, e⟩ | ⟨_, hw, _, e⟩ <;> rw [e] at h <;>
    first
    | (injection h with h; exact ⟨hw, h.symm⟩)
    | cases h

theorem State.storeBlock_aborted {s t : State} {start : Word} {ws : List Word} {k : AbortKind}
    (h : s.storeBlock start ws = .aborted k t) :
    t = s ∨ ((alignWord start).toNat + 4 * ws.length ≤ 2 ^ 32 ∧ t = s.putFreeBlock (alignWord start) ws.length) := by
  rcases s.storeBlock_cases start ws with ⟨_, _, e⟩ | ⟨_, _, e⟩ | ⟨_, hw, _, e⟩ | ⟨_, _, _, e⟩ <;> rw [e] at h <;>
    first
    | (injection h with _ h; first | exact .inl h.symm | exact .inr ⟨hw, h.symm⟩)
    | cases h

/-- R150, R160, R161: a block is stored when the alignment check lets it, it does not cross the top, and no word of it is
refused. -/
theorem State.storeBlock_of_ok {s : State} {start : Word} {ws : List Word}
    (h1 : ¬ (s.config.alignCheck = true ∧ misaligned start = true))
    (h2 : (alignWord start).toNat + 4 * ws.length ≤ 2 ^ 32) (h3 : s.blockAborts (alignWord start) ws.length = false) :
    s.storeBlock start ws = .done (s.putBlock (alignWord start) ws) := by
  rcases s.storeBlock_cases start ws with ⟨a, b, _⟩ | ⟨_, b, _⟩ | ⟨_, _, c, _⟩ | ⟨_, _, _, e⟩
  · exact absurd ⟨a, b⟩ h1
  · omega
  · rw [h3] at c; cases c
  · exact e

/-! ## The meanings' shared bodies -/

theorem State.longMultiplyCV_of_version5 {s : State} (h : 5 ≤ s.config.arch.version) :
    s.longMultiplyCV = ((psrC s.cpsr, psrV s.cpsr), s) := by
  simp [State.longMultiplyCV, h]

/-- R140, R141: a long multiply writes its two registers, and with S = 1 the flags, and goes on. -/
theorem State.finishLongMultiply_next {s t : State} {setFlags : Bool} {rdHi rdLo : RegNum} {r : BitVec 64}
    (h : s.finishLongMultiply setFlags rdHi rdLo r = .next t) :
    ∃ u, (u = (s.setReg rdHi (r.extractLsb' 32 32)).setReg rdLo (r.extractLsb' 0 32) ∧ setFlags = false ∨
        (∃ c v, u = { ((s.setReg rdHi (r.extractLsb' 32 32)).setReg rdLo (r.extractLsb' 0 32)).longMultiplyCV.2 with
          cpsr := longFlags s.cpsr r c v }) ∧ setFlags = true) ∧
      u.hasNext ∧ t = { u with pc := u.pc + 4#32 } := by
  unfold State.finishLongMultiply at h
  cases setFlags with
  | false => exact ⟨_, .inl ⟨rfl, rfl⟩, State.advance_next h⟩
  | true => exact ⟨_, .inr ⟨⟨_, _, rfl⟩, rfl⟩, State.advance_next h⟩

/-- R186, R187: TEQ and TST set flags and go on. -/
theorem State.logicTest_next {s t : State} {c : Cond} {rn : RegNum} {sbz : BitVec 4} {op : Operand1} {x : Word}
    (h : s.logicTest c rn sbz op x = .next t) :
    (s.condPassed c = false ∧ s.hasNext ∧ t = { s with pc := s.pc + 4#32 }) ∨
      (s.condPassed c = true ∧ sbz = 0#4 ∧ operand1NamesR15 op [rn] = false ∧ s.hasNext ∧
        t = { s with cpsr := logicFlags s.cpsr x (s.shifterOperand op).2, pc := s.pc + 4#32 }) := by
  rcases whenPassed_next h with h | ⟨hc, h⟩
  · exact .inl h
  · refine .inr ⟨hc, ?_⟩
    split at h
    · cases h
    · rename_i hs
      split at h
      · cases h
      · rename_i hr
        obtain ⟨hn, ht⟩ := State.advance_next h
        exact ⟨by simpa using hs, by simpa using hr, hn, ht⟩

/-- R205, R206, R209: the outcomes of a swap's two accesses. -/
theorem State.swapMemory_next {s t : State} {sz : AccessSize} {rd : RegNum} {addr v : Word}
    (h : s.swapMemory sz rd addr v = .next t) :
    (t = s.raise .dataAbort) ∨
      (∃ w, s.memRead s.privilege sz addr = .value w ∧ s.accessAbort s.privilege sz .write addr = none ∧
        ((s.put sz addr v).setReg rd (swapLoaded sz addr w)).hasNext ∧
        t = { (s.put sz addr v).setReg rd (swapLoaded sz addr w) with
          pc := ((s.put sz addr v).setReg rd (swapLoaded sz addr w)).pc + 4#32 }) := by
  unfold State.swapMemory at h
  split at h
  · injection h with h; exact .inl h.symm
  · cases h
  · rename_i w hw
    cases ha : s.accessAbort s.privilege sz .write addr with
    | some k =>
      rw [State.memWrite_of_abort v ha] at h
      injection h with h; exact .inl h.symm
    | none =>
      rw [State.memWrite_of_ok v ha] at h
      exact .inr ⟨w, hw, rfl, State.advance_next h⟩

/-- R205 to R208: a swap whose condition passed got past its tests. -/
theorem State.swap_next {s t : State} {c : Cond} {sz : AccessSize} {rn rd : RegNum} {sbz : BitVec 4} {rm : RegNum}
    (h : s.swap c sz rn rd sbz rm = .next t) :
    (s.condPassed c = false ∧ s.hasNext ∧ t = { s with pc := s.pc + 4#32 }) ∨
      (s.condPassed c = true ∧ rd ≠ 15#4 ∧ rm ≠ 15#4 ∧ rn ≠ 15#4 ∧ rn ≠ rm ∧ rn ≠ rd ∧ sbz = 0#4 ∧
        s.swapMemory sz rd (s.reg rn) (s.reg rm) = .next t) := by
  rcases whenPassed_next h with h | ⟨hc, h⟩
  · exact .inl h
  · refine .inr ⟨hc, ?_⟩
    split at h
    · cases h
    · rename_i h15
      split at h
      · cases h
      · rename_i hne
        split at h
        · cases h
        · rename_i hs
          simp only [List.contains_cons, List.contains_nil, Bool.or_false, Bool.or_eq_true, beq_iff_eq, not_or] at h15
          push Not at hne
          exact ⟨Ne.symm h15.1, Ne.symm h15.2.1, Ne.symm h15.2.2, hne.1, hne.2, by simpa using hs, h⟩

/-- R160: the ways STM (1) goes on after its register tests. -/
theorem State.storeMultiple_next {s t : State} {mode : Mode4} {w : Bool} {rn : RegNum} {list : BitVec 16}
    (h : s.storeMultiple mode w rn list = .next t) :
    (∃ k s', s.storeBlock (start4 mode (s.reg rn) list) (s.multipleWords list) = .aborted k s' ∧
      t = (s'.baseAfterAbort (if w then some (rn, final4 mode (s.reg rn) list) else none)).raise .dataAbort) ∨
    (∃ s', s.storeBlock (start4 mode (s.reg rn) list) (s.multipleWords list) = .done s' ∧
      (s'.writeback (if w then some (rn, final4 mode (s.reg rn) list) else none)).advance = .next t) := by
  unfold State.storeMultiple at h
  simp only at h
  split at h
  · cases h
  · rename_i k s' hb
    injection h with h
    exact .inl ⟨k, s', hb, h.symm⟩
  · rename_i s' hb
    exact .inr ⟨s', hb, h⟩

/-- R161: the ways STM (2) goes on after its tests. -/
theorem State.storeUserMultiple_next {s t : State} {mode : Mode4} {rn : RegNum} {list : BitVec 16}
    (h : s.storeUserMultiple mode rn list = .next t) :
    (∃ k s', s.storeBlock (start4 mode (s.reg rn) list) (s.userWords list) = .aborted k s' ∧ t = s'.raise .dataAbort) ∨
      (∃ s', s.storeBlock (start4 mode (s.reg rn) list) (s.userWords list) = .done s' ∧
        State.advance { s' with afterStm2 := true } = .next t) := by
  unfold State.storeUserMultiple at h
  split at h
  · cases h
  · rename_i k s' hb
    injection h with h
    exact .inl ⟨k, s', hb, h.symm⟩
  · rename_i s' hb
    exact .inr ⟨s', hb, h⟩

/-- R150, R152: the ways STC and STC2 go on. -/
theorem State.storeCoprocessor_next {s t : State} {word : Word} {index : Index5} {rn : RegNum} {cp : BitVec 4}
    {off : BitVec 8} (h : s.storeCoprocessor word index rn cp off = .next t) :
    (s.askCoprocessor cp word = none ∧ t = s.raise .undefinedInstruction) ∨
      (∃ ws next, s.askCoprocessor cp word = some (ws, next) ∧ (writesBack5 index && rn == 15#4) = false ∧
        ((∃ k s', s.storeBlock (s.mode5 index rn off).1 ws = .aborted k s' ∧
            t = ((s'.coprocAfterAbort cp next).baseAfterAbort (s.mode5 index rn off).2).raise .dataAbort) ∨
          (∃ s', s.storeBlock (s.mode5 index rn off).1 ws = .done s' ∧
            ((s'.setCoprocState cp next).writeback (s.mode5 index rn off).2).advance = .next t))) := by
  unfold State.storeCoprocessor at h
  split at h
  · rename_i ha
    injection h with h
    exact .inl ⟨ha, h.symm⟩
  · rename_i ws next ha
    refine .inr ⟨ws, next, ha, ?_⟩
    split at h
    · cases h
    · rename_i hb
      refine ⟨by simpa using hb, ?_⟩
      simp only at h
      split at h
      · cases h
      · rename_i k s' hs
        injection h with h
        exact .inl ⟨k, s', hs, h.symm⟩
      · rename_i s' hs
        exact .inr ⟨s', hs, h⟩

/-- R8: a coprocessor's row is the first of its rows that fits the instruction word and its state. -/
theorem Coprocessor.rowFor_eq_some_iff {device : Coprocessor} {word : Word} {row : CoprocRow} :
    device.rowFor word = some row ↔
      (row.state = device.state ∧ word &&& row.mask = row.value) ∧
        ∃ before after, device.rows = before ++ row :: after ∧
          ∀ r ∈ before, ¬ (r.state = device.state ∧ word &&& r.mask = r.value) := by
  simp [Coprocessor.rowFor, List.find?_eq_some_iff_append, ← imp_iff_not_or]

/-- R8, R150: a coprocessor accepts exactly where it is present and a row of it fits; it answers that row. -/
theorem State.askCoprocessor_eq_some_iff {s : State} {cp : BitVec 4} {word : Word} {ws : List Word} {next : Nat} :
    s.askCoprocessor cp word = some (ws, next) ↔
      ∃ device row, s.coprocs[cp.toNat] = some device ∧ device.rowFor word = some row ∧
        ws = row.first :: row.rest ∧ next = row.next := by
  unfold State.askCoprocessor
  split
  · rename_i h; simp [h]
  · rename_i device h
    simp only [h, Option.map_eq_some_iff, Prod.mk.injEq, Option.some.injEq]
    constructor
    · rintro ⟨row, hr, h1, h2⟩; exact ⟨device, row, rfl, hr, h1.symm, h2.symm⟩
    · rintro ⟨_, row, rfl, hr, h1, h2⟩; exact ⟨row, hr, h1.symm, h2.symm⟩

/-- R150: what a coprocessor accepts, said by its rows. -/
theorem State.accepts_iff_askCoprocessor {s : State} {cp : BitVec 4} {word : Word} {ws : List Word} {next : Nat} :
    s.accepts cp word ws next ↔ s.askCoprocessor cp word = some (ws, next) := by
  rw [State.askCoprocessor_eq_some_iff]
  constructor
  · rintro ⟨device, before, after, row, h1, h2, h3, h4, h5, h6⟩
    exact ⟨device, row, h1, Coprocessor.rowFor_eq_some_iff.2 ⟨⟨h4, h5⟩, before, after, h2, h3⟩, h6⟩
  · rintro ⟨device, row, h1, h2, h3⟩
    obtain ⟨⟨h4, h5⟩, before, after, h6, h7⟩ := Coprocessor.rowFor_eq_some_iff.1 h2
    exact ⟨device, before, after, row, h1, h6, h7, h4, h5, h3⟩

/-- R153: a coprocessor that accepts supplies at least one word. -/
theorem State.askCoprocessor_ne_nil {s : State} {cp : BitVec 4} {word : Word} {ws : List Word} {next : Nat}
    (h : s.askCoprocessor cp word = some (ws, next)) : ws ≠ [] := by
  unfold State.askCoprocessor at h
  split at h
  · cases h
  · rw [Option.map_eq_some_iff] at h
    obtain ⟨row, _, h⟩ := h
    injection h with h _
    subst h
    simp

/-- The writeback of addressing mode 5 does not go to R15 past the test of R121 and R122. -/
theorem State.mode5_wbNotR15 (s : State) {index : Index5} {rn : RegNum} (off : BitVec 8)
    (h : (writesBack5 index && rn == 15#4) = false) : wbNotR15 (s.mode5 index rn off).2 := by
  intro r v hr
  cases index <;> simp_all [State.mode5, writesBack5]

/-- The writeback of addressing mode 2 does not go to R15 past the test of R113. -/
theorem State.writeback2_wbNotR15 (s : State) {index : Index2} {up : Bool} {rn : RegNum} {off : Offset2}
    (h : fault2 (writesBack2 index) rn off = none) : wbNotR15 (s.writeback2 index up rn off) := by
  intro r v hr
  unfold State.writeback2 at hr
  split at hr
  · rename_i hw
    injection hr with hr
    injection hr with h1 _
    subst h1
    intro h15
    simp [fault2, hw, h15] at h
  · cases hr

end Sys2Proof.Machine
end

