-- ==== Sys2Proof/Laws/PerInstr.lean ====
section
/-!
SUPPORT. Statements about every instruction, proved one constructor at a time: the family `CondField`, that bits [31:28] of
an instruction's word are its condition, and 0b1111 for STC2 (spec/30_encoding.md R81, R85, R90).
-/

namespace Sys2Proof.Laws

/-- The condition field of an instruction as its syntax gives it. -/
def condBits : Instr → BitVec 4
  | .smull c _ _ _ _ _ => c.bits
  | .stc c _ _ _ _ _ _ => c.bits
  | .stc2 _ _ _ _ _ _ => 0b1111#4
  | .stm1 c _ _ _ _ => c.bits
  | .stm2 c _ _ _ _ => c.bits
  | .str c _ _ _ _ _ => c.bits
  | .strb c _ _ _ _ _ => c.bits
  | .strt c _ _ _ _ => c.bits
  | .sub c _ _ _ _ => c.bits
  | .swi c _ => c.bits
  | .swp c _ _ _ _ => c.bits
  | .swpb c _ _ _ _ => c.bits
  | .teq c _ _ _ => c.bits
  | .tst c _ _ _ => c.bits
  | .umlal c _ _ _ _ _ => c.bits

/-- R81: the word of an instruction has its condition in bits [31:28]. -/
def CondField.Statement (i : Instr) : Prop := field (encode i) 28 4 = condBits i

theorem condField_longMultiply (c : Cond) (op : BitVec 7) (sf : Bool) (hi lo rs rm : RegNum) :
    field (encodeLongMultiply c op sf hi lo rs rm) 28 4 = c.bits := by
  ext i hi
  simp only [field, encodeLongMultiply, BitVec.getElem_extractLsb', BitVec.getLsbD_cast, BitVec.getLsbD_append]
  obtain rfl | rfl | rfl | rfl : i = 0 ∨ i = 1 ∨ i = 2 ∨ i = 3 := by omega
  all_goals simp [BitVec.getLsbD_eq_getElem]

theorem condField_coprocessor (b : BitVec 4) (index : Index5) (long : Bool) (rn : RegNum) (crd cp : BitVec 4) (off : BitVec 8) :
    field (encodeCoprocessor b index long rn crd cp off) 28 4 = b := by
  ext i hi
  simp only [field, encodeCoprocessor, BitVec.getElem_extractLsb', BitVec.getLsbD_cast, BitVec.getLsbD_append]
  obtain rfl | rfl | rfl | rfl : i = 0 ∨ i = 1 ∨ i = 2 ∨ i = 3 := by omega
  all_goals simp [BitVec.getLsbD_eq_getElem]

theorem condField_multiple (c : Cond) (mode : Mode4) (sb : BitVec 1) (w : Bool) (rn : RegNum) (list : BitVec 16) :
    field (encodeMultiple c mode sb w rn list) 28 4 = c.bits := by
  ext i hi
  simp only [field, encodeMultiple, BitVec.getElem_extractLsb', BitVec.getLsbD_cast, BitVec.getLsbD_append]
  obtain rfl | rfl | rfl | rfl : i = 0 ∨ i = 1 ∨ i = 2 ∨ i = 3 := by omega
  all_goals simp [BitVec.getLsbD_eq_getElem]

theorem condField_store (c : Cond) (p : BitVec 1) (up : Bool) (b w : BitVec 1) (rn rd : RegNum) (off : Offset2) :
    field (encodeStore c p up b w rn rd off) 28 4 = c.bits := by
  ext i hi
  simp only [field, encodeStore, BitVec.getElem_extractLsb', BitVec.getLsbD_cast, BitVec.getLsbD_append]
  obtain rfl | rfl | rfl | rfl : i = 0 ∨ i = 1 ∨ i = 2 ∨ i = 3 := by omega
  all_goals simp [BitVec.getLsbD_eq_getElem]

theorem condField_dataProcessing (c : Cond) (op : BitVec 4) (sb : BitVec 1) (rn rd : RegNum) (o : Operand1) :
    field (encodeDataProcessing c op sb rn rd o) 28 4 = c.bits := by
  ext i hi
  simp only [field, encodeDataProcessing, BitVec.getElem_extractLsb', BitVec.getLsbD_cast, BitVec.getLsbD_append]
  obtain rfl | rfl | rfl | rfl : i = 0 ∨ i = 1 ∨ i = 2 ∨ i = 3 := by omega
  all_goals simp [BitVec.getLsbD_eq_getElem]

theorem condField_swap (c : Cond) (b : BitVec 1) (rn rd : RegNum) (sbz : BitVec 4) (rm : RegNum) :
    field (encodeSwap c b rn rd sbz rm) 28 4 = c.bits := by
  ext i hi
  simp only [field, encodeSwap, BitVec.getElem_extractLsb', BitVec.getLsbD_cast, BitVec.getLsbD_append]
  obtain rfl | rfl | rfl | rfl : i = 0 ∨ i = 1 ∨ i = 2 ∨ i = 3 := by omega
  all_goals simp [BitVec.getLsbD_eq_getElem]

theorem CondField.smull (c : Cond) (sf : Bool) (hi lo rs rm : RegNum) :
    CondField.Statement (.smull c sf hi lo rs rm) :=
  condField_longMultiply ..

theorem CondField.stc (c : Cond) (index : Index5) (long : Bool) (rn : RegNum) (crd cp : BitVec 4) (off : BitVec 8) :
    CondField.Statement (.stc c index long rn crd cp off) :=
  condField_coprocessor ..

theorem CondField.stc2 (index : Index5) (long : Bool) (rn : RegNum) (crd cp : BitVec 4) (off : BitVec 8) :
    CondField.Statement (.stc2 index long rn crd cp off) :=
  condField_coprocessor ..

theorem CondField.stm1 (c : Cond) (mode : Mode4) (w : Bool) (rn : RegNum) (list : BitVec 16) :
    CondField.Statement (.stm1 c mode w rn list) :=
  condField_multiple ..

theorem CondField.stm2 (c : Cond) (mode : Mode4) (w : Bool) (rn : RegNum) (list : BitVec 16) :
    CondField.Statement (.stm2 c mode w rn list) :=
  condField_multiple ..

theorem CondField.str (c : Cond) (index : Index2) (up : Bool) (rn rd : RegNum) (off : Offset2) :
    CondField.Statement (.str c index up rn rd off) :=
  condField_store ..

theorem CondField.strb (c : Cond) (index : Index2) (up : Bool) (rn rd : RegNum) (off : Offset2) :
    CondField.Statement (.strb c index up rn rd off) :=
  condField_store ..

theorem CondField.strt (c : Cond) (up : Bool) (rn rd : RegNum) (off : Offset2) :
    CondField.Statement (.strt c up rn rd off) :=
  condField_store ..

theorem CondField.sub (c : Cond) (sf : Bool) (rn rd : RegNum) (o : Operand1) :
    CondField.Statement (.sub c sf rn rd o) :=
  condField_dataProcessing ..

theorem CondField.swi (c : Cond) (n : BitVec 24) : CondField.Statement (.swi c n) := by
  simp only [CondField.Statement, condBits]
  ext i hi
  simp only [field, encode, BitVec.getElem_extractLsb', BitVec.getLsbD_cast, BitVec.getLsbD_append]
  obtain rfl | rfl | rfl | rfl : i = 0 ∨ i = 1 ∨ i = 2 ∨ i = 3 := by omega
  all_goals simp [BitVec.getLsbD_eq_getElem]

theorem CondField.swp (c : Cond) (rn rd : RegNum) (sbz : BitVec 4) (rm : RegNum) :
    CondField.Statement (.swp c rn rd sbz rm) :=
  condField_swap ..

theorem CondField.swpb (c : Cond) (rn rd : RegNum) (sbz : BitVec 4) (rm : RegNum) :
    CondField.Statement (.swpb c rn rd sbz rm) :=
  condField_swap ..

theorem CondField.teq (c : Cond) (rn : RegNum) (sbz : BitVec 4) (o : Operand1) :
    CondField.Statement (.teq c rn sbz o) :=
  condField_dataProcessing ..

theorem CondField.tst (c : Cond) (rn : RegNum) (sbz : BitVec 4) (o : Operand1) :
    CondField.Statement (.tst c rn sbz o) :=
  condField_dataProcessing ..

theorem CondField.umlal (c : Cond) (sf : Bool) (hi lo rs rm : RegNum) :
    CondField.Statement (.umlal c sf hi lo rs rm) :=
  condField_longMultiply ..

end Sys2Proof.Laws
end

