-- ==== Sys2Proof/Laws/Step.lean ====
section
/-!
SUPPORT. What an instruction and a step can do, said once: every way that `exec` and `step` answer a next state
(spec/INDEX.md's order of a step, spec/70_reset_and_hazards.md R266, R267).
-/

namespace Sys2Proof.Machine

/-! ## What no instruction does before it goes on -/

/-- `u` is `s` with general registers, flags, coprocessor states and stored bytes changed, and no more. -/
structure Keeps (s u : State) : Prop where
  pc       : u.pc = s.pc
  spsrs    : u.spsrs = s.spsrs
  inputs   : u.inputs = s.inputs
  config   : u.config = s.config
  wf       : s.storesWf → u.storesWf
  recorded : ∀ a, u.mem.read a ≠ s.mem.read a → 4 * (a / 4) ∈ u.stored
  grows    : ∀ a ∈ s.stored, a ∈ u.stored

theorem Keeps.refl (s : State) : Keeps s s :=
  ⟨rfl, rfl, rfl, rfl, id, fun _ h => absurd rfl h, fun _ h => h⟩

theorem Keeps.trans {s u v : State} (h : Keeps s u) (h' : Keeps u v) : Keeps s v where
  pc := h'.pc.trans h.pc
  spsrs := h'.spsrs.trans h.spsrs
  inputs := h'.inputs.trans h.inputs
  config := h'.config.trans h.config
  wf := h'.wf ∘ h.wf
  recorded a ha := by
    by_cases e : v.mem.read a = u.mem.read a
    · exact h'.grows _ (h.recorded a (e ▸ ha))
    · exact h'.recorded a e
  grows a ha := h'.grows a (h.grows a ha)

/-- A change that leaves memory, and the fields that `Keeps` names, alone. -/
theorem Keeps.of_eq {s u : State} (h1 : u.pc = s.pc) (h2 : u.spsrs = s.spsrs) (h3 : u.inputs = s.inputs)
    (h4 : u.config = s.config) (h5 : u.mem = s.mem) (h6 : u.stored = s.stored) : Keeps s u where
  pc := h1
  spsrs := h2
  inputs := h3
  config := h4
  wf := fun h => by simpa [State.storesWf, h5, h6] using h
  recorded a ha := absurd (by rw [h5]) ha
  grows a ha := by rw [h6]; exact ha

theorem Keeps.setReg (s : State) (r : RegNum) (v : Word) (h : r ≠ 15#4) : Keeps s (s.setReg r v) :=
  .of_eq (s.setReg_pc r v h) (by simp) (by simp) (by simp) (by simp) (by simp)

theorem Keeps.writeback (s : State) {wb : Option (RegNum × Word)} (h : wbNotR15 wb) : Keeps s (s.writeback wb) :=
  .of_eq (s.writeback_pc h) (by simp) (by simp) (by simp) (by simp) (by simp)

theorem Keeps.baseAfterAbort (s : State) {wb : Option (RegNum × Word)} (h : wbNotR15 wb) :
    Keeps s (s.baseAfterAbort wb) := by
  rcases s.baseAfterAbort_cases wb with e | e <;> rw [e]
  · exact .refl s
  · exact .writeback s h

theorem Keeps.setCoprocState (s : State) (cp : BitVec 4) (next : Nat) : Keeps s (s.setCoprocState cp next) := by
  unfold State.setCoprocState
  split
  · exact .refl s
  · exact .of_eq rfl rfl rfl rfl rfl rfl

theorem Keeps.coprocAfterAbort (s : State) (cp : BitVec 4) (next : Nat) : Keeps s (s.coprocAfterAbort cp next) := by
  unfold State.coprocAfterAbort
  split
  · exact .refl s
  · exact .setCoprocState s cp next

theorem Keeps.putWord (s : State) (a w : Word) : Keeps s (s.putWord a w) where
  pc := by simp
  spsrs := by simp
  inputs := by simp
  config := by simp
  wf := s.storesWf_putWord a w
  recorded x hx := by
    rw [State.putWord_mem, Memory.read_writeWord] at hx
    rw [State.putWord_stored, mem_insertRising]
    split at hx
    · have := alignWord_toNat a
      exact .inl (by omega)
    · exact absurd rfl hx
  grows x hx := by rw [State.putWord_stored, mem_insertRising]; exact .inr hx

theorem Keeps.putByte (s : State) (a : Word) (b : Byte) : Keeps s (s.putByte a b) where
  pc := by simp
  spsrs := by simp
  inputs := by simp
  config := by simp
  wf := s.storesWf_putByte a b
  recorded x hx := by
    rw [State.putByte_mem] at hx
    rw [State.putByte_stored, mem_insertRising, alignWord_toNat]
    by_cases e : a.toNat = x
    · exact .inl (by rw [e])
    · exact absurd (Memory.read_write_of_ne _ _ e) hx
  grows x hx := by rw [State.putByte_stored, mem_insertRising]; exact .inr hx

theorem Keeps.put (s : State) (sz : AccessSize) (a v : Word) : Keeps s (s.put sz a v) := by
  cases sz
  · exact .putByte s a _
  · exact .putWord s a v

theorem Keeps.putBlock (s : State) (a : Word) (ws : List Word) : Keeps s (s.putBlock a ws) := by
  induction ws generalizing s a with
  | nil => exact .refl s
  | cons w ws ih => exact (Keeps.putWord s a w).trans (ih _ _)

theorem Keeps.putFreeBlock (s : State) (a : Word) (n : Nat) : Keeps s (s.putFreeBlock a n) := by
  induction n generalizing s a with
  | zero => exact .refl s
  | succ n ih =>
    refine Keeps.trans ?_ (ih (s.putFreeWord a) (a + 4#32))
    unfold State.putFreeWord
    split
    · exact .refl s
    · exact (Keeps.putWord s a _).trans (.of_eq rfl rfl rfl rfl rfl rfl)

/-- R150, R160, R161: a block of words stored or turned away. -/
theorem Keeps.storeBlock_done {s t : State} {start : Word} {ws : List Word} (h : s.storeBlock start ws = .done t) :
    Keeps s t ∧ t.cpsr = s.cpsr := by
  obtain ⟨_, rfl⟩ := State.storeBlock_done h
  exact ⟨.putBlock s _ ws, by simp⟩

theorem Keeps.storeBlock_aborted {s t : State} {start : Word} {ws : List Word} {k : AbortKind}
    (h : s.storeBlock start ws = .aborted k t) : Keeps s t ∧ t.cpsr = s.cpsr := by
  rcases State.storeBlock_aborted h with rfl | ⟨_, rfl⟩
  · exact ⟨.refl t, rfl⟩
  · exact ⟨.putFreeBlock s _ _, by simp⟩

/-! ## Instructions -/

/-- R33: the instructions that set flags and nothing else of the CPSR. -/
def setsFlags : Instr → Bool
  | .smull _ setFlags _ _ _ _ => setFlags
  | .umlal _ setFlags _ _ _ _ => setFlags
  | .sub _ setFlags _ rd _ => setFlags && rd != 15#4
  | .teq _ _ _ _ => true
  | .tst _ _ _ _ => true
  | .stc _ _ _ _ _ _ _ => false
  | .stc2 _ _ _ _ _ _ => false
  | .stm1 _ _ _ _ _ => false
  | .stm2 _ _ _ _ _ => false
  | .str _ _ _ _ _ _ => false
  | .strb _ _ _ _ _ _ => false
  | .strt _ _ _ _ _ => false
  | .swi _ _ => false
  | .swp _ _ _ _ _ => false
  | .swpb _ _ _ _ _ => false

/-- The ways an instruction ends in a next state: it goes on at the next instruction, having changed flags only if it sets
them; it is a SUB to R15 that branches; it is a SUBS to R15 that returns from an exception; or it takes an exception. -/
def Goes (i : Instr) (s t : State) : Prop :=
  (∃ u, Keeps s u ∧ (u.cpsr = s.cpsr ∨ setsFlags i = true ∧ psrKeptBelowFlags s u) ∧ u.hasNext ∧
      t = { u with pc := u.pc + 4#32 }) ∨
  (∃ c rn op p, i = .sub c false rn 15#4 op ∧ misaligned p = false ∧ t = { s with pc := p }) ∨
  (∃ c rn op p saved, i = .sub c true rn 15#4 op ∧ s.spsr = some saved ∧ psrT saved = false ∧
      Mode.ofBitsIn s.config.arch (psrM saved) ≠ none ∧ misaligned p = false ∧
      t = { s with cpsr := saved, pc := p }) ∨
  (∃ e u, Keeps s u ∧ u.cpsr = s.cpsr ∧ t = u.raise e)

theorem Goes.advance {i : Instr} {s u t : State} (hk : Keeps s u) (hc : u.cpsr = s.cpsr)
    (h : u.advance = .next t) : Goes i s t := by
  obtain ⟨hn, ht⟩ := State.advance_next h
  exact .inl ⟨u, hk, .inl hc, hn, ht⟩

theorem Goes.skip {i : Instr} {s t : State} (h : s.advance = .next t) : Goes i s t := .advance (.refl s) rfl h

theorem Goes.raise {i : Instr} {s u : State} (e : Exc) (hk : Keeps s u) (hc : u.cpsr = s.cpsr) :
    Goes i s (u.raise e) := .inr (.inr (.inr ⟨e, u, hk, hc, rfl⟩))

/-- Each instruction under a condition goes on or runs its body. -/
theorem Goes.whenPassed {i : Instr} {c : Cond} {s t : State} {body : Result} (h : whenPassed c s body = .next t)
    (hb : body = .next t → Goes i s t) : Goes i s t := by
  rcases whenPassed_next h with ⟨_, hn, rfl⟩ | ⟨_, h⟩
  · exact .inl ⟨s, .refl s, .inl rfl, hn, rfl⟩
  · exact hb h

theorem Goes.longMultiply {i : Instr} {s t : State} {c : Cond} {sf : Bool} {hi lo rs rm : RegNum} {r : BitVec 64}
    (hi' : sf = true → setsFlags i = true) (h : s.longMultiply c sf hi lo rs rm r = .next t) : Goes i s t := by
  refine Goes.whenPassed h fun h => ?_
  split at h
  · cases h
  · rename_i h15
    split at h
    · cases h
    · simp only [longMultiplyNamesR15, List.contains_cons, List.contains_nil, Bool.or_false, Bool.or_eq_true,
        beq_iff_eq, not_or] at h15
      have hk : Keeps s ((s.setReg hi (r.extractLsb' 32 32)).setReg lo (r.extractLsb' 0 32)) :=
        (Keeps.setReg s _ _ (Ne.symm h15.1)).trans (.setReg _ _ _ (Ne.symm h15.2.1))
      obtain ⟨u, hu, hn, ht⟩ := State.finishLongMultiply_next h
      rcases hu with ⟨rfl, _⟩ | ⟨⟨cf, vf, rfl⟩, hs⟩
      · exact .inl ⟨_, hk, .inl (by simp), hn, ht⟩
      · refine .inl ⟨_, hk.trans ?_, .inr ⟨hi' hs, ?_⟩, hn, ht⟩
        · exact .of_eq (by simp) (by simp) (by simp) (by simp) (by simp) (by simp)
        · simp [psrKeptBelowFlags]

theorem Goes.logicTest {i : Instr} {s t : State} {c : Cond} {rn : RegNum} {sbz : BitVec 4} {op : Operand1} {x : Word}
    (hi : setsFlags i = true) (h : s.logicTest c rn sbz op x = .next t) : Goes i s t := by
  rcases State.logicTest_next h with ⟨_, hn, rfl⟩ | ⟨_, _, _, hn, rfl⟩
  · exact .inl ⟨s, .refl s, .inl rfl, hn, rfl⟩
  · refine .inl ⟨{ s with cpsr := logicFlags s.cpsr x (s.shifterOperand op).2 }, ?_, .inr ⟨hi, ?_⟩, hn, rfl⟩
    · exact .of_eq rfl rfl rfl rfl rfl rfl
    · simp [psrKeptBelowFlags]

theorem Goes.storeOne {i : Instr} {s t : State} {pr : Privilege} {sz : AccessSize} {addr v : Word}
    {wb : Option (RegNum × Word)} (hw : wbNotR15 wb) (h : s.storeOne pr sz addr v wb = .next t) : Goes i s t := by
  rcases State.storeOne_next h with ⟨_, hn, rfl⟩ | ⟨_, rfl⟩
  · exact .inl ⟨_, (Keeps.put s sz addr v).trans (.writeback _ hw), .inl (by simp), hn, rfl⟩
  · exact .raise _ (.baseAfterAbort s hw) (by simp)

theorem Goes.swap {i : Instr} {s t : State} {c : Cond} {sz : AccessSize} {rn rd : RegNum} {sbz : BitVec 4}
    {rm : RegNum} (h : s.swap c sz rn rd sbz rm = .next t) : Goes i s t := by
  rcases State.swap_next h with ⟨_, hn, rfl⟩ | ⟨_, hd, _, _, _, _, _, h⟩
  · exact .inl ⟨s, .refl s, .inl rfl, hn, rfl⟩
  · rcases State.swapMemory_next h with rfl | ⟨w, _, _, hn, rfl⟩
    · exact .raise _ (.refl s) rfl
    · exact .inl ⟨_, (Keeps.put s _ _ _).trans (.setReg _ _ _ hd), .inl (by simp), hn, rfl⟩

theorem Goes.storeCoprocessor {i : Instr} {s t : State} {word : Word} {index : Index5} {rn : RegNum} {cp : BitVec 4}
    {off : BitVec 8} (h : s.storeCoprocessor word index rn cp off = .next t) : Goes i s t := by
  rcases State.storeCoprocessor_next h with ⟨_, rfl⟩ | ⟨ws, next, _, hb, h⟩
  · exact .raise _ (.refl s) rfl
  · have hw := s.mode5_wbNotR15 off hb
    rcases h with ⟨k, u, hs, rfl⟩ | ⟨u, hs, h⟩
    · obtain ⟨hk, hc⟩ := Keeps.storeBlock_aborted hs
      refine .raise _ (hk.trans ((Keeps.coprocAfterAbort u cp next).trans (.baseAfterAbort _ hw))) ?_
      rw [State.baseAfterAbort_cpsr, ← hc]
      unfold State.coprocAfterAbort State.setCoprocState
      split
      · rfl
      · split <;> rfl
    · obtain ⟨hk, hc⟩ := Keeps.storeBlock_done hs
      refine .advance (hk.trans ((Keeps.setCoprocState u cp next).trans (.writeback _ hw))) ?_ h
      rw [State.writeback_cpsr, ← hc]
      unfold State.setCoprocState
      split <;> rfl

theorem Goes.sub {s t : State} {c : Cond} {sf : Bool} {rn rd : RegNum} {op : Operand1}
    (h : execSub c sf rn rd op s = .next t) : Goes (.sub c sf rn rd op) s t := by
  refine Goes.whenPassed h fun hb => ?_
  clear h
  split at hb
  · cases hb
  · simp only at hb
    split at hb
    · rename_i h15
      subst h15
      cases sf with
      | false =>
        obtain ⟨hp, rfl⟩ := State.branchTo_next hb
        exact .inr (.inl ⟨c, rn, op, _, rfl, hp, rfl⟩)
      | true =>
        obtain ⟨saved, hs, hT, hM, hp, rfl⟩ := State.exceptionReturn_next hb
        exact .inr (.inr (.inl ⟨c, rn, op, _, saved, rfl, hs, hT, hM, hp, rfl⟩))
    · rename_i h15
      have hk := Keeps.setReg s rd (s.opnd rn - (s.shifterOperand op).1) h15
      cases sf with
      | false => exact .advance hk (by simp) hb
      | true =>
        obtain ⟨hn, rfl⟩ := State.advance_next hb
        refine .inl ⟨_, hk.trans ?_, .inr ⟨?_, ?_⟩, hn, rfl⟩
        · exact .of_eq rfl rfl rfl rfl rfl rfl
        · simp [setsFlags, h15]
        · simp [psrKeptBelowFlags]

theorem Goes.stm1 {s t : State} {c : Cond} {m : Mode4} {w : Bool} {rn : RegNum} {list : BitVec 16}
    (h : execStm1 c m w rn list s = .next t) : Goes (.stm1 c m w rn list) s t := by
  refine Goes.whenPassed h fun h => ?_
  split at h
  · cases h
  · rename_i h15
    iterate 2
      split at h
      · cases h
    · have hw : wbNotR15 (if w then some (rn, final4 m (s.reg rn) list) else none) := by
        intro r v hr
        cases w with
        | false => cases hr
        | true => simp only [if_true, Option.some.injEq, Prod.mk.injEq] at hr; exact hr.1 ▸ h15
      rcases State.storeMultiple_next h with ⟨k, u, hs, rfl⟩ | ⟨u, hs, h⟩
      · obtain ⟨hk, hc⟩ := Keeps.storeBlock_aborted hs
        exact .raise _ (hk.trans (.baseAfterAbort _ hw)) (by rw [State.baseAfterAbort_cpsr, hc])
      · obtain ⟨hk, hc⟩ := Keeps.storeBlock_done hs
        exact .advance (hk.trans (.writeback _ hw)) (by rw [State.writeback_cpsr, hc]) h

theorem Goes.stm2 {s t : State} {c : Cond} {m : Mode4} {w : Bool} {rn : RegNum} {list : BitVec 16}
    (h : execStm2 c m w rn list s = .next t) : Goes (.stm2 c m w rn list) s t := by
  refine Goes.whenPassed h fun h => ?_
  iterate 4
    split at h
    · cases h
  rcases State.storeUserMultiple_next h with ⟨k, u, hs, rfl⟩ | ⟨u, hs, h⟩
  · obtain ⟨hk, hc⟩ := Keeps.storeBlock_aborted hs
    exact .raise _ hk hc
  · obtain ⟨hk, hc⟩ := Keeps.storeBlock_done hs
    exact .advance (u := { u with afterStm2 := true }) (hk.trans (.of_eq rfl rfl rfl rfl rfl rfl)) hc h

theorem Goes.str {i : Instr} {s t : State} {sz : AccessSize} {pr : Privilege} {x : Index2} {up : Bool}
    {rn : RegNum} {off : Offset2} {a v : Word} (hf : fault2 (writesBack2 x) rn off = none)
    (h : s.storeOne pr sz a v (s.writeback2 x up rn off) = .next t) : Goes i s t :=
  .storeOne (s.writeback2_wbNotR15 hf) h

/-- R266: every way an instruction answers a next state. -/
theorem exec_next {i : Instr} {s t : State} (h : exec i s = .next t) : Goes i s t := by
  cases i with
  | smull c sf hi lo rs rm => exact Goes.longMultiply id h
  | umlal c sf hi lo rs rm => exact Goes.longMultiply id h
  | sub c sf rn rd op => exact Goes.sub h
  | teq c rn z op => exact Goes.logicTest rfl h
  | tst c rn z op => exact Goes.logicTest rfl h
  | swi c n =>
    refine Goes.whenPassed h fun h => ?_
    injection h with h
    exact h ▸ .raise _ (.refl s) rfl
  | swp c rn rd z rm => exact Goes.swap h
  | swpb c rn rd z rm => exact Goes.swap h
  | stm1 c m w rn l => exact Goes.stm1 h
  | stm2 c m w rn l => exact Goes.stm2 h
  | stc c x n rn crd cp off => exact Goes.whenPassed h Goes.storeCoprocessor
  | stc2 x n rn crd cp off =>
    change (if _ then _ else _) = _ at h
    split at h
    · cases h
    · exact Goes.storeCoprocessor h
  | str c x up rn rd off =>
    refine Goes.whenPassed h fun h => ?_
    split at h
    · cases h
    · rename_i hf
      split at h
      · cases h
      · exact Goes.str hf h
  | strb c x up rn rd off =>
    refine Goes.whenPassed h fun h => ?_
    split at h
    · cases h
    · split at h
      · cases h
      · rename_i hf
        split at h
        · cases h
        · exact Goes.str hf h
  | strt c up rn rd off =>
    refine Goes.whenPassed h fun h => ?_
    split at h
    · cases h
    · rename_i hf
      split at h
      · cases h
      · exact Goes.str (x := .postIndexed) hf h

/-! ## Steps -/

theorem State.notExecutable_none {s : State} (h : s.notExecutable = none) : s.executable := by
  unfold State.notExecutable at h
  split at h
  · cases h
  · rename_i hT
    split at h
    · cases h
    · rename_i hM
      split at h
      · cases h
      · rename_i hA
        exact ⟨by simpa using hT, hM, by simpa using hA⟩

theorem State.notExecutable_of_executable {s : State} (h : s.executable) : s.notExecutable = none := by
  simp [State.notExecutable, h.1, h.2.1, h.2.2]

/-- R227: what an asserted input does. -/
theorem State.interrupt_some {s t : State} {x : InputSample} (h : s.interrupt x = some t) :
    x.reset = true ∧ t = s.resetInput ∨ x.reset = false ∧ ∃ e : Exc, t = s.raise e := by
  unfold State.interrupt at h
  split at h
  · rename_i hr; injection h with h; exact .inl ⟨hr, h.symm⟩
  · rename_i hr
    split at h
    · injection h with h; exact .inr ⟨by simpa using hr, _, h.symm⟩
    · split at h
      · injection h with h; exact .inr ⟨by simpa using hr, _, h.symm⟩
      · cases h

/-- Every way a step answers a next state: the reset input; an exception entry before any instruction (an interrupt or a
Prefetch Abort); or an instruction of the architecture version. -/
theorem step_next {s t : State} (h : step s = .next t) :
    s.executable ∧
      ((s.inputNow.reset = true ∧ t = s.takeInput.resetInput) ∨
        (∃ e : Exc, t = s.takeInput.raise e) ∨
        (∃ i, availableIn s.config.arch i = true ∧ exec i s.takeInput.clearAfterStm2 = .next t)) := by
  unfold step at h
  cases he : s.notExecutable with
  | some stop =>
    rw [he] at h
    unfold State.notExecutable at he
    split at he
    · injection he with he; subst he; cases h
    · split at he
      · injection he with he; subst he; cases h
      · split at he
        · injection he with he; subst he; cases h
        · cases he
  | none =>
    rw [he] at h
    refine ⟨State.notExecutable_none he, ?_⟩
    simp only at h
    cases hi : s.takeInput.interrupt s.inputNow with
    | some u =>
      rw [hi] at h
      injection h with h
      subst h
      rcases State.interrupt_some hi with ⟨hr, ht⟩ | ⟨_, e, ht⟩
      · exact .inl ⟨hr, ht⟩
      · exact .inr (.inl ⟨e, ht⟩)
    | none =>
      rw [hi] at h
      refine .inr ?_
      simp only [State.runInstruction] at h
      split at h
      · injection h with h; exact .inl ⟨_, h.symm⟩
      · cases h
      · cases h
      · rename_i w _
        split at h
        · cases h
        · cases h
        · rename_i i hd
          split at h
          · cases h
          · refine .inr ⟨i, ?_, h⟩
            unfold State.decodeWord at hd
            split at hd
            · cases hd
            · split at hd
              · cases hd
              · split at hd
                · rename_i ha
                  injection hd with hd
                  exact hd ▸ ha
                · cases hd

end Sys2Proof.Machine
end

