-- ==== Sys2Proof/Tests/Slice0.lean ====
section
/-!
SUPPORT. Tests. Expected values are the spec's own (spec/95_test_vectors.md, or the examples in the rules named); then, for
every obligation that has hypotheses, one theorem that shows a state and operands that meet them.
-/

namespace Sys2Proof.Tests

open Sys2Proof Sys2Proof.Machine

/-! ## Ill-formed terms are refused (R98, R100, R102, R104) -/

theorem test_lsl_32_ill_formed : WellFormed (.sub .al false 1#4 0#4 (.immShift 2#4 .lsl 32)) = false := by decide
theorem test_lsr_0_ill_formed : WellFormed (.teq .al 1#4 0#4 (.immShift 2#4 .lsr 0)) = false := by decide
theorem test_lsr_33_ill_formed : WellFormed (.tst .al 1#4 0#4 (.immShift 2#4 .lsr 33)) = false := by decide
theorem test_asr_0_ill_formed : WellFormed (.str .al .offset true 1#4 0#4 (.scaled 2#4 .asr 0)) = false := by decide
theorem test_asr_33_ill_formed : WellFormed (.strb .al .offset true 1#4 0#4 (.scaled 2#4 .asr 33)) = false := by decide
theorem test_ror_0_ill_formed : WellFormed (.strt .al true 1#4 0#4 (.scaled 2#4 .ror 0)) = false := by decide
theorem test_ror_32_ill_formed : WellFormed (.sub .al false 1#4 0#4 (.immShift 2#4 .ror 32)) = false := by decide

/-! ## Decoding words of the spec -/

theorem test_decode_smull : decode 0xE0D10392#32 = .instr (.smull .al true 1#4 0#4 3#4 2#4) := by decide
theorem test_decode_umlal : decode 0xE0A54796#32 = .instr (.umlal .al false 5#4 4#4 7#4 6#4) := by decide
theorem test_decode_stc : decode 0xED832102#32 = .instr (.stc .al (.offset true) false 3#4 2#4 1#4 2#8) := by decide
theorem test_decode_stc2 : decode 0xFD832101#32 = .instr (.stc2 (.offset true) false 3#4 2#4 1#4 1#8) := by decide
theorem test_decode_stm1 : decode 0xE92D4010#32 = .instr (.stm1 .al .db true 13#4 0x4010#16) := by decide
theorem test_decode_stm2 : decode 0xE8C06000#32 = .instr (.stm2 .al .ia false 0#4 0x6000#16) := by decide
theorem test_decode_str : decode 0xE7210102#32 = .instr (.str .al .preIndexed false 1#4 0#4 (.scaled 2#4 .lsl 2)) := by
  decide
theorem test_decode_strb : decode 0xE4C10001#32 = .instr (.strb .al .postIndexed true 1#4 0#4 (.imm 1#12)) := by decide
theorem test_decode_strt : decode 0xE4A43004#32 = .instr (.strt .al true 4#4 3#4 (.imm 4#12)) := by decide
theorem test_decode_sub : decode 0xE0443635#32 = .instr (.sub .al false 4#4 3#4 (.regShift 5#4 .lsr 6#4)) := by decide
theorem test_decode_swi : decode 0xEF123456#32 = .instr (.swi .al 0x123456#24) := by decide
theorem test_decode_swp : decode 0xE1020091#32 = .instr (.swp .al 2#4 0#4 0#4 1#4) := by decide
theorem test_decode_swpb : decode 0xE1453094#32 = .instr (.swpb .al 5#4 3#4 0#4 4#4) := by decide
theorem test_decode_teq : decode 0xE1310002#32 = .instr (.teq .al 1#4 0#4 (.immShift 2#4 .lsl 0)) := by decide
theorem test_decode_tst : decode 0xE3100102#32 = .instr (.tst .al 0#4 0#4 (.imm 1#4 2#8)) := by decide

theorem test_reject_r126 : decode 0xE0410092#32 = .rejected .extensionSpace := by decide
theorem test_reject_r127 : decode 0xE3000001#32 = .rejected .otherDataProcessing := by decide
theorem test_reject_r128 : decode 0xE6810012#32 = .rejected .notAddressingMode2 := by decide
theorem test_reject_r129 : decode 0xEC032102#32 = .rejected .coprocessorExtension := by decide
theorem test_reject_section_4146 : decode 0xE4E10004#32 = .rejected .section4146 := by decide

theorem test_table_word : decodeTableWord 32 0xE2500001 = some (.sub .al true 0#4 0#4 (.imm 0#4 1#8)) := by decide

/-! ## One step -/

/-- A machine at 0x8000 with the given status word, registers of its mode, and memory. -/
def machine (psr : Word) (regs : List (RegNum × Word)) (mem : Memory) : State :=
  regs.foldl (fun s p => s.setReg p.1 p.2) { State.reset with cpsr := psr, pc := 0x8000#32, mem := mem }

/-- The next state's answer to a question; false where the step stops. -/
def shows (r : Result) (question : State → Bool) : Bool :=
  match r with
  | .next t => question t
  | .fault _ => false
  | .refused _ => false

/-- One step on a word at the program counter. -/
def ran (w : Word) (s : State) : Result := step (s.placeWordAtPC w)

/-- The reason a step stops with a fault, if it does. -/
def faultOf : Result → Option Fault
  | .next _ => none
  | .fault f => some f
  | .refused _ => none

/-- 95 section 2.4: 0x80000000 times 0x7FFFFFFF, N set, C and V kept. -/
theorem test_smulls : shows (ran 0xE0D10392#32 (machine 0x30000010#32 [(2, 0x80000000#32), (3, 0x7FFFFFFF#32)] []))
    (fun t => t.reg 1 == 0xC0000000#32 && t.reg 0 == 0x80000000#32 && t.cpsr == 0xB0000010#32 && t.pc == 0x8004#32) =
    true := by decide

/-- 95 section 2.4: Rs = RdLo, read before RdLo is written. -/
theorem test_umlal_overlap : shows (ran 0xE0A54496#32 (machine 0x10#32 [(4, 3#32), (5, 0#32), (6, 5#32)] []))
    (fun t => t.reg 5 == 0#32 && t.reg 4 == 0x12#32 && t.cpsr == 0x10#32) = true := by decide

/-- 95 section 2.4: the carry out of bit 63 is lost. -/
theorem test_umlals_wraps : shows (ran 0xE0B54796#32
      (machine 0x10#32 [(4, 0xFFFFFFFF#32), (5, 0xFFFFFFFF#32), (6, 1#32), (7, 1#32)] []))
    (fun t => t.reg 5 == 0#32 && t.reg 4 == 0#32 && t.cpsr == 0x40000010#32) = true := by decide

/-- 95 section 2.7: a coprocessor p1 that supplies two words where N = 1 and one where N = 0. -/
def device : Coprocessor :=
  { state := 0
    rows := [{ state := 0, mask := 0x00400000#32, value := 0x00400000#32, first := 0xC0C0C0C0#32,
               rest := [0xC1C1C1C1#32], next := 7 },
             { state := 0, mask := 0x00400000#32, value := 0#32, first := 0xC0C0C0C0#32, rest := [], next := 9 }] }

/-- A machine in a mode with `device` as p1. -/
def withDevice (psr : Word) (regs : List (RegNum × Word)) : State :=
  { machine psr regs [] with coprocs := (Vector.replicate 16 none).set 1 (some device) }

/-- 95 section 2.7: `STCL p1, c2, [R3], #16`. -/
theorem test_stcl_post_indexed : shows (ran 0xECE32104#32 (withDevice 0x10#32 [(3, 0x1000#32)]))
    (fun t => t.mem.readWord false 0x1000 == some 0xC0C0C0C0#32 && t.mem.readWord false 0x1004 == some 0xC1C1C1C1#32 &&
      t.reg 3 == 0x1010#32 && t.coprocs[1] == some { device with state := 7 }) = true := by decide

/-- 95 section 2.7: with no coprocessor, from User mode at 0x8000. -/
theorem test_stc_undefined : shows (ran 0xED832102#32 (machine 0x10#32 [(3, 0x1000#32)] []))
    (fun t => t.reg 14 == 0x8004#32 && t.spsr == some 0x10#32 && t.cpsr == 0x9B#32 && t.pc == 4#32 && t.reg 3 == 0x1000#32) =
    true := by decide

/-- 95 section 2.7: `STC2 p1, c2, [R3, #4]`. -/
theorem test_stc2 : shows (ran 0xFD832101#32 (withDevice 0x10#32 [(3, 0x1000#32)]))
    (fun t => t.mem.readWord false 0x1004 == some 0xC0C0C0C0#32 && t.reg 3 == 0x1000#32 && t.pc == 0x8004#32) = true := by
  decide

/-- 95 section 3, P2: `STMDB R13!, {R4, R14}`. -/
theorem test_stmdb : shows (ran 0xE92D4010#32 (machine 0x10#32 [(13, 0x8000#32), (4, 0x44444444#32), (14, 0xCAFE#32)] []))
    (fun t => t.mem.readWord false 0x7FF8 == some 0x44444444#32 && t.mem.readWord false 0x7FFC == some 0xCAFE#32 &&
      t.reg 13 == 0x7FF8#32) = true := by decide

/-- 95 section 2.6: `STMIA R0, {R1, R2}` at 0xFFFFFFFC, and `STMIA R1!, {R0, R1}`, the base in the list but not lowest. -/
theorem test_stm_stops :
    faultOf (ran 0xE8800006#32 (machine 0x10#32 [(0, 0xFFFFFFFC#32)] [])) = some .addressWrap ∧
      faultOf (ran 0xE8A10003#32 (machine 0x10#32 [(1, 0x1000#32)] [])) = some .baseInListNotLowest := by decide

/-- R13_usr = 0x3000 and, in Supervisor mode, R13_svc = 0x7000. -/
def twoStacks : State :=
  State.setReg { machine 0x10#32 [(13, 0x3000#32)] [] with cpsr := 0xD3#32 } 13 0x7000#32

/-- 95 section 2.6: `STMDB R13, {R13}^`, the base from R13_svc, the word from R13_usr. -/
theorem test_stm2 : shows (ran 0xE94D2000#32 twoStacks)
    (fun t => t.mem.readWord false 0x6FFC == some 0x3000#32 && t.reg 13 == 0x7000#32 && t.afterStm2) = true := by decide

/-- 95 section 2.5: `STR R0, [R1, -R2, LSL #2]!`. -/
theorem test_str : shows (ran 0xE7210102#32 (machine 0x10#32 [(0, 0x11223344#32), (1, 0x2000#32), (2, 3#32)] []))
    (fun t => t.mem.readWord false 0x1FF4 == some 0x11223344#32 && t.reg 1 == 0x1FF4#32) = true := by decide

/-- 95 section 2.5: `STR R0, [R1, R2]` to 0x2003 ignores the low address bits. -/
theorem test_str_unaligned : shows (ran 0xE7810002#32 (machine 0x10#32 [(0, 0x11223344#32), (1, 0x2000#32), (2, 3#32)] []))
    (fun t => t.mem.read 0x2000 == some 0x44#8 && t.mem.read 0x2003 == some 0x11#8 && t.mem.read 0x2004 == none) = true := by
  decide

/-- 95 section 2.5: `STRB R0, [R1], #1`. -/
theorem test_strb : shows (ran 0xE4C10001#32 (machine 0x10#32 [(0, 0x11223344#32), (1, 0x2000#32)] []))
    (fun t => t.mem.read 0x2000 == some 0x44#8 && t.mem.read 0x2001 == none && t.reg 1 == 0x2001#32) = true := by decide

/-- 95 section 2.5: `STRT R0, [R1], -R2`. -/
theorem test_strt : shows (ran 0xE6210002#32 (machine 0xD3#32 [(0, 0x11223344#32), (1, 0x2000#32), (2, 3#32)] []))
    (fun t => t.mem.readWord false 0x2000 == some 0x11223344#32 && t.reg 1 == 0x1FFD#32) = true := by decide

/-- 95 section 2.3: 0x7FFFFFFF minus 0xFFFFFFFF. -/
theorem test_subs_overflow : shows (ran 0xE0510002#32 (machine 0x10#32 [(1, 0x7FFFFFFF#32), (2, 0xFFFFFFFF#32)] []))
    (fun t => t.reg 0 == 0x80000000#32 && t.cpsr == 0x90000010#32) = true := by decide

/-- 95 section 2.10: `SUBS PC, R14, #0` in Supervisor mode. -/
theorem test_subs_return : shows (ran 0xE25EF000#32
      { machine 0xD3#32 [(14, 0x8008#32)] [] with spsrs := (Vector.replicate 5 0#32).set 0 0x40000010#32 })
    (fun t => t.pc == 0x8008#32 && t.cpsr == 0x40000010#32) = true := by decide

/-- 95 section 2.3: `TEQ R1, R2, LSL #1` with R1 = 2, R2 = 0x80000001. -/
theorem test_teq : shows (ran 0xE1310082#32 (machine 0x10000010#32 [(1, 2#32), (2, 0x80000001#32)] []))
    (fun t => t.cpsr == 0x70000010#32) = true := by decide

/-- 95 section 2.3: `TST R0, #0x80000000` with R0 = 0x7FFFFFFF. -/
theorem test_tst : shows (ran 0xE3100102#32 (machine 0x10#32 [(0, 0x7FFFFFFF#32)] []))
    (fun t => t.cpsr == 0x60000010#32) = true := by decide

/-- 95 section 2.8: `SWI 0x123456` at 0x8000 in User mode. -/
theorem test_swi : shows (ran 0xEF123456#32 (machine 0x60000010#32 [] []))
    (fun t => t.reg 14 == 0x8004#32 && t.spsr == some 0x60000010#32 && t.cpsr == 0x60000093#32 && t.pc == 8#32) = true := by
  decide

/-- The bytes 11 22 33 44 at 0x3000. -/
def swapMemory : Memory := [(0x3000, 0x11#8), (0x3001, 0x22#8), (0x3002, 0x33#8), (0x3003, 0x44#8)]

/-- 95 section 2.9: `SWP R0, R1, [R2]` at 0x3001. -/
theorem test_swp : shows (ran 0xE1020091#32 (machine 0x10#32 [(1, 0xAABBCCDD#32), (2, 0x3001#32)] swapMemory))
    (fun t => t.reg 0 == 0x11443322#32 && t.mem.readWord false 0x3000 == some 0xAABBCCDD#32) = true := by decide

/-- 95 section 2.9: `SWPB R0, R1, [R2]` at 0x3001. -/
theorem test_swpb : shows (ran 0xE1420091#32 (machine 0x10#32 [(1, 0xAABBCCDD#32), (2, 0x3001#32)] swapMemory))
    (fun t => t.reg 0 == 0x22#32 && t.mem.readWord false 0x3000 == some 0x4433DD11#32) = true := by decide

/-- The reset state runs a word that is placed at the reset vector. -/
theorem test_first_instruction : shows (step (State.reset.withFetchWord 32 0xE2400001))
    (fun t => t.reg 0 == 0xFFFFFFFF#32 && t.pc == 4#32) = true := by decide

/-! ## States that meet the hypotheses of the obligations -/

/-- User mode, C and V set. -/
def user : State :=
  machine 0x30000010#32 [(0, 0x11223344#32), (1, 0x2000#32), (2, 3#32), (3, 0x1000#32), (13, 0x7000#32), (14, 0x8008#32)]
    swapMemory

/-- Supervisor mode with an SPSR to return to User mode with. -/
def svc : State := { user with cpsr := 0x300000D3#32, spsrs := (Vector.replicate 5 0#32).set 0 0x40000010#32 }

/-- The same state under another configuration. -/
def under (s : State) (change : MachineConfig → MachineConfig) : State := { s with config := change s.config }

/-- An architecture version. -/
def version (n : Nat) (c : MachineConfig) : MachineConfig := { c with arch := { version := n, mVariant := true } }

/-- A memory system that refuses one kind of access everywhere. -/
def refusing (kind : AccessKind) (c : MachineConfig) : MachineConfig :=
  { c with memSys := [{ first := 0, last := 0xFFFFFFFF, sizes := [.byte, .word], kinds := [kind],
                        privileges := [.user, .privileged] }] }

/-- A memory system that refuses the write of the word at 0x1004 alone. -/
def refusingSecond (c : MachineConfig) : MachineConfig :=
  { c with memSys := [{ first := 0x1004, last := 0x1007, sizes := [.word], kinds := [.write],
                        privileges := [.user, .privileged] }] }

/-- Alignment checking on. -/
def checking (c : MachineConfig) : MachineConfig := { c with alignCheck := true }

/-- A platform input at the next step. -/
def given (s : State) (sample : InputSample) : State := { s with inputs := [sample] }

theorem witness_DecodeOfEncode : WellFormed (.strt .le false 15#4 15#4 (.scaled 15#4 .asr 32)) = true := by decide

theorem witness_EncodeOfDecode :
    decode 0xD62FFF5F#32 = .rejected .notAddressingMode2 ∧
      decode 0xD62FF04F#32 = .instr (.strt .le false 15#4 15#4 (.scaled 15#4 .asr 32)) := by decide

theorem witness_SmullResult :
    user.condPassed .vs = true ∧ user.hasNext ∧ 14#4 ≠ 15#4 ∧ 0#4 ≠ 15#4 ∧ 14#4 ≠ 0#4 ∧ 14#4 ≠ 1#4 ∧ 0#4 ≠ 1#4 ∧
      (true = true → 5 ≤ user.config.arch.version) := by simp only [State.hasNext]; decide

theorem witness_UmlalResult :
    user.condPassed .cs = true ∧ user.hasNext ∧ 14#4 ≠ 15#4 ∧ 0#4 ≠ 15#4 ∧ 14#4 ≠ 0#4 ∧ 14#4 ≠ 1#4 ∧ 0#4 ≠ 1#4 ∧
      (true = true → 5 ≤ user.config.arch.version) ∧
      0x800811229344 = ((user.reg 1#4).toNat * (user.reg 2#4).toNat +
        ((user.reg 14#4).toNat * 2 ^ 32 + (user.reg 0#4).toNat)) % 2 ^ 64 := by
  simp only [State.hasNext]; decide +kernel

theorem witness_LongMultiplyBeforeVersion5 :
    (under user (version 4)).condPassed .al = true ∧ (under user (version 4)).hasNext ∧ 14#4 ≠ 15#4 ∧ 0#4 ≠ 15#4 ∧
      14#4 ≠ 0#4 ∧ 14#4 ≠ 1#4 ∧ 0#4 ≠ 1#4 ∧ (under user (version 4)).config.arch.version < 5 := by
  simp only [State.hasNext]; decide

/-- R15 as each field, and each of the three overlaps of (RdHi, RdLo, Rs, Rm). -/
theorem witness_LongMultiplyStops :
    user.condPassed .al = true ∧
      (15#4 = 15#4 ∨ 1#4 = 15#4 ∨ 2#4 = 15#4 ∨ 3#4 = 15#4) ∧ (1#4 = 15#4 ∨ 15#4 = 15#4 ∨ 2#4 = 15#4 ∨ 3#4 = 15#4) ∧
      (1#4 = 15#4 ∨ 2#4 = 15#4 ∨ 15#4 = 15#4 ∨ 3#4 = 15#4) ∧ (1#4 = 15#4 ∨ 2#4 = 15#4 ∨ 3#4 = 15#4 ∨ 15#4 = 15#4) ∧
      (14#4 ≠ 15#4 ∧ 2#4 ≠ 15#4 ∧ 3#4 ≠ 15#4 ∧ (14#4 = 14#4 ∨ 14#4 = 3#4 ∨ 14#4 = 3#4)) ∧
      (3#4 = 2#4 ∨ 3#4 = 3#4 ∨ 2#4 = 3#4) ∧ (2#4 = 3#4 ∨ 2#4 = 3#4 ∨ 3#4 = 3#4) := by decide

/-- An immediate operand with Rn = R15, and a register-shift operand. -/
theorem witness_SubResult :
    user.condPassed .al = true ∧ user.hasNext ∧ 14#4 ≠ 15#4 ∧ operand1NamesR15 (.imm 15#4 255#8) [15#4, 14#4] = false ∧
      operand1NamesR15 (.regShift 14#4 .ror 2#4) [14#4, 14#4] = false ∧ user.opnd 15#4 = 0x8008#32 ∧
      (user.shifterOperand (.imm 15#4 255#8)).1 = 0x3FC#32 := by simp only [State.hasNext]; decide

/-- A target that is word aligned and one that is not, from version 4 on and before it. -/
theorem witness_SubBranch :
    user.condPassed .al = true ∧ operand1NamesR15 (.imm 0#4 16#8) [15#4, 15#4] = false ∧
      misaligned (user.opnd 15#4 - (user.shifterOperand (.imm 0#4 16#8)).1) = false ∧
      misaligned (user.opnd 15#4 - (user.shifterOperand (.imm 0#4 1#8)).1) = true := by decide

theorem witness_ExceptionReturn :
    svc.condPassed .al = true ∧ operand1NamesR15 (.imm 0#4 0#8) [14#4, 15#4] = false ∧ svc.mode = some .supervisor ∧
      Mode.supervisor.spsrIndex = some 0 ∧ psrT svc.spsrs[0] = false ∧
      isModeNumber svc.config.arch (psrM svc.spsrs[0]) ∧
      misaligned (svc.opnd 14#4 - (svc.shifterOperand (.imm 0#4 0#8)).1) = false := by simp only [isModeNumber]; decide

/-- `svc` with another saved status word. -/
def saved (w : Word) : State := { svc with spsrs := svc.spsrs.set 0 w }

/-- One state for each way of stopping. -/
theorem witness_ExceptionReturnStops :
    user.condPassed .al = true ∧ operand1NamesR15 (.imm 0#4 0#8) [14#4, 15#4] = false ∧ user.mode = some .user ∧
      (saved 0x30#32).mode = some .supervisor ∧ Mode.supervisor.spsrIndex = some 0 ∧
      psrT (saved 0x30#32).spsrs[0] = true ∧
      psrT (saved 0x40000000#32).spsrs[0] = false ∧ ¬ isModeNumber svc.config.arch (psrM (saved 0x40000000#32).spsrs[0]) ∧
      ¬ isModeNumber (under svc (version 3)).config.arch (psrM (saved 0x1F#32).spsrs[0]) ∧
      psrT svc.spsrs[0] = false ∧ isModeNumber svc.config.arch (psrM svc.spsrs[0]) ∧
      misaligned (svc.opnd 14#4 - (svc.shifterOperand (.imm 0#4 2#8)).1) = true := by
  simp only [isModeNumber]; decide

theorem witness_ComparisonAfterSubs :
    user.condPassed .al = true ∧ user.hasNext ∧ 0#4 ≠ 15#4 ∧
      operand1NamesR15 (.immShift 1#4 .lsr 32) [15#4, 0#4] = false := by simp only [State.hasNext]; decide

theorem witness_TeqTstResult :
    user.condPassed .al = true ∧ user.hasNext ∧ operand1NamesR15 (.rrx 0#4) [15#4] = false ∧
      (0x889119A2#32, false) = user.shifterOperand (.rrx 0#4) := by simp only [State.hasNext]; decide

/-- A non-zero SBZ field, and R15 as each register field of a register-shift form. -/
theorem witness_DataProcessingStops :
    user.condPassed .al = true ∧ 15#4 ≠ 0#4 ∧
      Operand1.regShift 1#4 .lsl 2#4 = .regShift 1#4 .lsl 2#4 ∧ (15#4 = 15#4 ∨ 1#4 = 15#4 ∨ 2#4 = 15#4) ∧
      (0#4 = 15#4 ∨ 15#4 = 15#4 ∨ 2#4 = 15#4) ∧ (0#4 = 15#4 ∨ 1#4 = 15#4 ∨ 15#4 = 15#4) ∧
      (0#4 = 15#4 ∨ 15#4 = 15#4 ∨ 1#4 = 15#4 ∨ 2#4 = 15#4) := by decide

/-- The four shift types at shift_imm 0 and 31. -/
theorem witness_ShiftByImmediate :
    [0xE1A00001#32, 0xE1A00F81#32, 0xE1A00021#32, 0xE1A00FA1#32, 0xE1A00041#32, 0xE1A00FC1#32, 0xE1A00061#32,
        0xE1A00FE1#32].map (fun w => (w.getLsbD 25, w.getLsbD 4, field w 5 2, field w 7 5)) =
      [(false, false, 0#2, 0#5), (false, false, 0#2, 31#5), (false, false, 1#2, 0#5), (false, false, 1#2, 31#5),
        (false, false, 2#2, 0#5), (false, false, 2#2, 31#5), (false, false, 3#2, 0#5), (false, false, 3#2, 31#5)] := by
  decide

/-- The four shift types by R3, which holds each boundary amount in turn. -/
theorem witness_ShiftByRegister :
    [0xE1A00311#32, 0xE1A00331#32, 0xE1A00351#32, 0xE1A00371#32].map
        (fun w => (w.getLsbD 25, w.getLsbD 7, w.getLsbD 4, field w 5 2, field w 8 4)) =
      [(false, false, true, 0#2, 3#4), (false, false, true, 1#2, 3#4), (false, false, true, 2#2, 3#4),
        (false, false, true, 3#2, 3#4)] ∧
    [0x100#32, 1#32, 31#32, 32#32, 33#32, 0xFFFFFFFF#32].map (fun v => ((user.setReg 3#4 v).reg 3#4).toNat % 256) =
      [0, 1, 31, 32, 33, 255] := by decide

theorem witness_ImmediateOperand :
    (0xE3100102#32).getLsbD 25 = true ∧ 1 = (field 0xE3100102#32 8 4).toNat ∧ (0xE31000FF#32).getLsbD 25 = true ∧
      0 = (field 0xE31000FF#32 8 4).toNat := by decide

/-- A word for each form: immediate, register, the four shift types with shift_imm 0 and not 0; and an `idx` up and down. -/
theorem witness_StoreAddressing :
    (0xE5810FFF#32).getLsbD 25 = false ∧
    [0xE7810002#32, 0xE7810F82#32, 0xE7810022#32, 0xE7810FA2#32, 0xE7810042#32, 0xE7810FC2#32, 0xE7810062#32,
        0xE7810FE2#32].map (fun w => (w.getLsbD 25, field w 5 2, field w 7 5)) =
      [(true, 0#2, 0#5), (true, 0#2, 31#5), (true, 1#2, 0#5), (true, 1#2, 31#5), (true, 2#2, 0#5), (true, 2#2, 31#5),
        (true, 3#2, 0#5), (true, 3#2, 31#5)] ∧
    field 0xE7810002#32 4 8 = 0#8 ∧
    (∀ up : Bool, (if up then 0x2003#32 else 0x1FFD#32).toNat =
      (if up then (user.opnd 1#4).toNat + (user.offset2 (decodeOffset2 0xE7810002#32)).toNat
        else 2 ^ 32 + (user.opnd 1#4).toNat - (user.offset2 (decodeOffset2 0xE7810002#32)).toNat) % 2 ^ 32) := by decide

/-- `STR R15, [R15, R2]`, and `STR R0, [R1, -R2]!` to a misaligned address with alignment checking off. -/
theorem witness_StrResult :
    (user.condPassed .al = true ∧ user.hasNext ∧ offset2Rm (.scaled 2#4 .lsl 0) ≠ some 15#4 ∧
      (Index2.offset ≠ .offset → 15#4 ≠ 15#4 ∧ offset2Rm (.scaled 2#4 .lsl 0) ≠ some 15#4 ∧ 15#4 ≠ 15#4) ∧
      user.wordAllowed user.privilege .write (user.address2 .offset true 15#4 (.scaled 2#4 .lsl 0))) ∧
    ((Index2.preIndexed ≠ .offset → 1#4 ≠ 15#4 ∧ offset2Rm (.scaled 2#4 .lsl 0) ≠ some 1#4 ∧ 0#4 ≠ 1#4) ∧
      user.wordAllowed user.privilege .write (user.address2 .preIndexed false 1#4 (.scaled 2#4 .lsl 0))) := by
  simp only [State.hasNext, State.wordAllowed]; decide

theorem witness_StrbResult :
    user.condPassed .al = true ∧ user.hasNext ∧ 0#4 ≠ 15#4 ∧ offset2Rm (.imm 0xFFF#12) ≠ some 15#4 ∧
      (Index2.postIndexed ≠ .offset → 1#4 ≠ 15#4 ∧ offset2Rm (.imm 0xFFF#12) ≠ some 1#4 ∧ 0#4 ≠ 1#4) ∧
      0x2000#32 = user.address2 .postIndexed false 1#4 (.imm 0xFFF#12) ∧
      user.byteAllowed user.privilege .write 0x2000#32 := by simp only [State.hasNext, State.byteAllowed]; decide

theorem witness_StrtResult :
    svc.condPassed .al = true ∧ svc.hasNext ∧ 1#4 ≠ 15#4 ∧ offset2Rm (.rrx 2#4) ≠ some 15#4 ∧
      offset2Rm (.rrx 2#4) ≠ some 1#4 ∧ 15#4 ≠ 1#4 ∧ svc.wordAllowed .user .write (svc.reg 1#4) := by
  simp only [State.hasNext, State.wordAllowed]; decide

/-- Operands for each clause, in the clauses' order. -/
theorem witness_StoreStops :
    user.condPassed .al = true ∧ Index2.preIndexed ≠ .offset ∧
      ((Index2.offset ≠ .offset → 15#4 ≠ 15#4) ∧ offset2Rm (.rrx 15#4) = some 15#4) ∧
      ((Index2.postIndexed ≠ .offset → 1#4 ≠ 15#4) ∧ offset2Rm (.scaled 15#4 .lsl 0) = some 15#4) ∧
      (1#4 ≠ 15#4 ∧ offset2Rm (.scaled 1#4 .lsl 0) = some 1#4) ∧
      (offset2Rm (.imm 4#12) ≠ some 15#4 ∧ offset2Rm (.imm 4#12) ≠ some 1#4) := by decide

/-- A refused word, a refused byte, a misaligned word under checking, and a refused User access of STRT. -/
theorem witness_StoreAborts :
    user.condPassed .al = true ∧ offset2Rm (.imm 4#12) ≠ some 15#4 ∧
      (Index2.postIndexed ≠ .offset → 1#4 ≠ 15#4 ∧ offset2Rm (.imm 4#12) ≠ some 1#4 ∧ 0#4 ≠ 1#4) ∧
      ¬ (under user (refusing .write)).wordAllowed .user .write
        ((under user (refusing .write)).address2 .postIndexed true 1#4 (.imm 4#12)) ∧
      ¬ (under user (refusing .write)).byteAllowed .user .write
        ((under user (refusing .write)).address2 .postIndexed true 1#4 (.imm 4#12)) ∧
      ¬ (under user checking).wordAllowed .user .write ((under user checking).address2 .preIndexed true 1#4 (.imm 1#12)) ∧
      ¬ (under svc (refusing .write)).wordAllowed .user .write ((under svc (refusing .write)).reg 1#4) := by
  simp only [State.wordAllowed, State.byteAllowed]; decide

theorem witness_MultipleAddresses : 16#32 = BitVec.ofNat 32 (listCount 0xFFFF#16) := by decide

/-- The whole list without writeback, and a base register that is lowest with writeback. -/
theorem witness_Stm1Result :
    (user.condPassed .al = true ∧ user.hasNext ∧ 3#4 ≠ 15#4 ∧ 0xFFFF#16 ≠ 0#16 ∧
      user.blockAllowed (start4 .db (user.reg 3#4) 0xFFFF#16) (listCount 0xFFFF#16)) ∧
    (0xFFF8#16 ≠ 0#16 ∧
      (true = true → (0xFFF8#16).getLsbD (3#4).toNat = true → ∀ j < (3#4).toNat, (0xFFF8#16).getLsbD j = false) ∧
      user.blockAllowed (start4 .ia (user.reg 3#4) 0xFFF8#16) (listCount 0xFFF8#16)) := by
  simp only [State.hasNext, State.blockAllowed]; decide

/-- The base last in the list, with and without writeback. -/
theorem witness_Stm1BaseNotLowest :
    user.condPassed .al = true ∧ user.hasNext ∧ 3#4 ≠ 15#4 ∧ (0x000F#16).getLsbD (3#4).toNat = true ∧
      (∃ j < (3#4).toNat, (0x000F#16).getLsbD j = true) ∧
      ¬ (false = true ∧ ∃ j < (3#4).toNat, (0x000F#16).getLsbD j = true) ∧
      user.blockAllowed (start4 .da (user.reg 3#4) 0x000F#16) (listCount 0x000F#16) := by
  simp only [State.hasNext, State.blockAllowed]; decide

theorem witness_Stm2Result :
    svc.condPassed .al = true ∧ svc.hasNext ∧ svc.mode ≠ some .user ∧ svc.mode ≠ some .system ∧ 13#4 ≠ 15#4 ∧
      0xE000#16 ≠ 0#16 ∧ svc.blockAllowed (start4 .ib (svc.reg 13#4) 0xE000#16) (listCount 0xE000#16) := by
  simp only [State.hasNext, State.blockAllowed]; decide

/-- Modes and operands for each clause, and a block of two words at the last word of the address space. -/
theorem witness_StmStops :
    user.condPassed .al = true ∧ user.mode = some .user ∧ svc.condPassed .al = true ∧ svc.mode ≠ some .user ∧
      svc.mode ≠ some .system ∧ (0x000F#16).getLsbD (3#4).toNat = true ∧ (0x000F#16).getLsbD 2 = true ∧
      (let top := svc.setReg 3#4 0xFFFFFFFC#32
       ¬ (top.config.alignCheck = true ∧ misaligned (start4 .ia (top.reg 3#4) 0x0003#16) = true) ∧
         2 ^ 32 < (alignWord (start4 .ia (top.reg 3#4) 0x0003#16)).toNat + 4 * listCount 0x0003#16 ∧
         (0x0003#16).getLsbD (3#4).toNat = false ∧
         top.condPassed .al = true ∧ top.mode ≠ some .user ∧ top.mode ≠ some .system) := by decide

/-- The second of two words refused, and a misaligned start under checking. -/
theorem witness_StmAborts :
    svc.condPassed .al = true ∧ 3#4 ≠ 15#4 ∧ 0x0003#16 ≠ 0#16 ∧ (0x0003#16).getLsbD (3#4).toNat = false ∧
      (0x0003#16).getLsbD (2#4).toNat = false ∧
      (under svc refusingSecond).blockRefused (start4 .ia ((under svc refusingSecond).reg 3#4) 0x0003#16)
        (listCount 0x0003#16) ∧
      (under svc checking).blockRefused (start4 .ia ((under svc checking).reg 2#4) 0x0003#16) (listCount 0x0003#16) ∧
      svc.mode ≠ some .user ∧ svc.mode ≠ some .system := by simp only [State.blockRefused]; decide

theorem witness_CoprocessorAddresses :
    ∀ up : Bool, (if up then 0x23FC#32 else 0x1C04#32).toNat = (if up then (user.opnd 1#4).toNat + 4 * (255#8).toNat
      else 2 ^ 32 + (user.opnd 1#4).toNat - 4 * (255#8).toNat) % 2 ^ 32 := by decide

/-- `user` with `device` as p1. -/
def devUser : State := { user with coprocs := (Vector.replicate 16 none).set 1 (some device) }

/-- An STC and an STC2 that the device accepts, with writeback. -/
theorem witness_StcResult :
    devUser.condPassed .al = true ∧ 5 ≤ devUser.config.arch.version ∧ devUser.hasNext ∧
      devUser.accepts 1#4 (encode (.stc .al (.preIndexed true) true 3#4 2#4 1#4 2#8)) [0xC0C0C0C0#32, 0xC1C1C1C1#32] 7 ∧
      devUser.accepts 1#4 (encode (.stc2 (.preIndexed true) true 3#4 2#4 1#4 2#8)) [0xC0C0C0C0#32, 0xC1C1C1C1#32] 7 ∧
      (writesBack5 (.preIndexed true) = true → 3#4 ≠ 15#4) ∧
      devUser.blockAllowed (devUser.mode5 (.preIndexed true) 3#4 2#8).1 [0xC0C0C0C0#32, 0xC1C1C1C1#32].length := by
  simp only [State.hasNext, State.blockAllowed, State.accepts_iff_askCoprocessor]; decide

/-- An absent coprocessor, and one that is present and has no row for its state. -/
theorem witness_StcUndefined :
    user.condPassed .al = true ∧ 5 ≤ user.config.arch.version ∧ user.coprocs[(1#4).toNat] = none ∧
      (∀ row ∈ device.rows, ¬ (row.state = ({ device with state := 7 } : Coprocessor).state ∧
        encode (.stc .al (.preIndexed true) true 3#4 2#4 1#4 2#8) &&& row.mask = row.value)) := by decide

theorem witness_StcAborts :
    devUser.condPassed .al = true ∧ 5 ≤ devUser.config.arch.version ∧
      (under devUser refusingSecond).accepts 1#4 (encode (.stc .al .unindexed true 3#4 2#4 1#4 2#8))
        [0xC0C0C0C0#32, 0xC1C1C1C1#32] 7 ∧
      (writesBack5 .unindexed = true → 3#4 ≠ 15#4) ∧
      (under devUser refusingSecond).blockRefused ((under devUser refusingSecond).mode5 .unindexed 3#4 2#8).1 2 := by
  simp only [State.blockRefused, State.accepts_iff_askCoprocessor]; decide

/-- An old version; writeback to R15; a block of two words at the last word of the address space. -/
theorem witness_StcStops :
    (under devUser (version 4)).config.arch.version < 5 ∧ devUser.condPassed .al = true ∧
      devUser.accepts 1#4 (encode (.stc .al (.postIndexed true) false 15#4 2#4 1#4 1#8)) [0xC0C0C0C0#32] 9 ∧
      writesBack5 (.postIndexed true) = true ∧
      (let top := devUser.setReg 3#4 0xFFFFFFFC#32
       top.condPassed .al = true ∧ top.accepts 1#4 (encode (.stc .al .unindexed true 3#4 2#4 1#4 1#8))
           [0xC0C0C0C0#32, 0xC1C1C1C1#32] 7 ∧ (writesBack5 .unindexed = true → 3#4 ≠ 15#4) ∧
         ¬ (top.config.alignCheck = true ∧ misaligned (top.mode5 .unindexed 3#4 1#8).1 = true) ∧
         2 ^ 32 < (alignWord (top.mode5 .unindexed 3#4 1#8).1).toNat + 4 * 2) := by
  simp only [State.accepts_iff_askCoprocessor]; decide

/-- `user` with R1 at the bytes of `swapMemory`, not word aligned. -/
def swapping : State := user.setReg 1#4 0x3003#32

theorem witness_SwpResult :
    swapping.condPassed .al = true ∧ swapping.hasNext ∧ 0#4 ≠ 15#4 ∧ 1#4 ≠ 15#4 ∧ 1#4 ≠ 0#4 ∧
      swapping.wordAllowed swapping.privilege .read (swapping.reg 1#4) ∧
      swapping.wordAllowed swapping.privilege .write (swapping.reg 1#4) ∧
      swapping.mem.readWord swapping.config.bigEndian (alignWord (swapping.reg 1#4)).toNat = some 0x44332211#32 := by
  simp only [State.hasNext, State.wordAllowed]; decide

theorem witness_SwpbResult :
    swapping.condPassed .al = true ∧ swapping.hasNext ∧ 0#4 ≠ 15#4 ∧ 2#4 ≠ 15#4 ∧ 1#4 ≠ 15#4 ∧ 1#4 ≠ 2#4 ∧ 1#4 ≠ 0#4 ∧
      swapping.byteAllowed swapping.privilege .read (swapping.reg 1#4) ∧
      swapping.byteAllowed swapping.privilege .write (swapping.reg 1#4) ∧
      swapping.mem.read (swapping.reg 1#4).toNat = some 0x44#8 := by
  simp only [State.hasNext, State.byteAllowed]; decide

/-- A refused load, a refused store after a load, and a misaligned word under checking. -/
theorem witness_SwapAborts :
    swapping.condPassed .al = true ∧ 0#4 ≠ 15#4 ∧ 2#4 ≠ 15#4 ∧ 1#4 ≠ 15#4 ∧ 1#4 ≠ 2#4 ∧ 1#4 ≠ 0#4 ∧
      ¬ (under swapping (refusing .read)).wordAllowed .user .read (swapping.reg 1#4) ∧
      ¬ (under swapping checking).wordAllowed .user .read (swapping.reg 1#4) ∧
      (swapping.mem.readWord false (alignWord (swapping.reg 1#4)).toNat = some 0x44332211#32 ∧
        ¬ (under swapping (refusing .write)).wordAllowed .user .write (swapping.reg 1#4)) ∧
      ¬ (under swapping (refusing .read)).byteAllowed .user .read (swapping.reg 1#4) ∧
      (swapping.mem.read (swapping.reg 1#4).toNat = some 0x44#8 ∧
        ¬ (under swapping (refusing .write)).byteAllowed .user .write (swapping.reg 1#4)) := by
  simp only [State.wordAllowed, State.byteAllowed]; decide

/-- Operands for each clause, and an address whose bytes hold no value. -/
theorem witness_SwapStops :
    user.condPassed .al = true ∧
      (0#4 = 15#4 ∨ 2#4 = 15#4 ∨ 15#4 = 15#4) ∧ (15#4 = 15#4 ∨ 2#4 = 15#4 ∨ 1#4 = 15#4) ∧
      (0#4 = 15#4 ∨ 15#4 = 15#4 ∨ 1#4 = 15#4) ∧ (1#4 = 1#4 ∨ 1#4 = 0#4) ∧ (1#4 = 2#4 ∨ 1#4 = 1#4) ∧
      (0#4 ≠ 15#4 ∧ 2#4 ≠ 15#4 ∧ 1#4 ≠ 15#4 ∧ 1#4 ≠ 2#4 ∧ 1#4 ≠ 0#4 ∧ 15#4 ≠ 0#4) ∧
      user.wordAllowed user.privilege .read (user.reg 1#4) ∧
      user.mem.readWord user.config.bigEndian (alignWord (user.reg 1#4)).toNat = none ∧
      user.byteAllowed user.privilege .read (user.reg 1#4) ∧ user.mem.read (user.reg 1#4).toNat = none := by
  simp only [State.wordAllowed, State.byteAllowed]; decide

theorem witness_SwiResult : user.condPassed .vs = true := by decide

theorem witness_ExceptionEntry :
    (Exc.fiq, Mode.fiq, 4#32, 0x1C#32, true) ∈
      [(Exc.undefinedInstruction, Mode.undefined, 4#32, 0x04#32, false),
       (Exc.softwareInterrupt, Mode.supervisor, 4#32, 0x08#32, false),
       (Exc.prefetchAbort, Mode.abort, 4#32, 0x0C#32, false),
       (Exc.dataAbort, Mode.abort, 8#32, 0x10#32, false),
       (Exc.irq, Mode.irq, 4#32, 0x18#32, false),
       (Exc.fiq, Mode.fiq, 4#32, 0x1C#32, true)] := by decide

theorem witness_ReturnAfterEntry : user.executable := by simp only [State.executable]; decide

/-- One state with a next instruction and one at the last word of the address space. -/
theorem witness_FailedCondition :
    condOf (.swi .eq 0#24) = some .eq ∧ user.condPassed .eq = false ∧ user.hasNext ∧
      ({ user with pc := 0xFFFFFFFC#32 } : State).condPassed .eq = false ∧
      ¬ ({ user with pc := 0xFFFFFFFC#32 } : State).hasNext := by simp only [State.hasNext]; decide

/-- `SUB R0, R0, #1` at the program counter. -/
theorem witness_StepRunsDecoded :
    (let s := user.placeWordAtPC 0xE2400001#32
     s.executable ∧ s.undisturbed ∧ s.fetches 0xE2400001#32 ∧
       decode 0xE2400001#32 = .instr (.sub .al false 0#4 0#4 (.imm 0#4 1#8)) ∧
       availableIn s.config.arch (.sub .al false 0#4 0#4 (.imm 0#4 1#8)) = true ∧
       (field 0xE2400001#32 28 4 = 15#4 → 5 ≤ s.config.arch.version) ∧
       ¬ (s.afterStm2 = true ∧ accessesBanked (.sub .al false 0#4 0#4 (.imm 0#4 1#8)) s.mode = true)) := by
  simp only [State.executable, State.undisturbed, State.fetches]; decide

/-- FIQ with its mask clear; and, FIQ being asserted and masked, IRQ with its mask clear. -/
theorem witness_Interrupts :
    (let s := given user { reset := false, fiq := true, irq := true }
     s.executable ∧ s.inputNow.reset = false ∧ s.inputNow.fiq = true ∧ psrF s.cpsr = false) ∧
    (let s := given { user with cpsr := 0x50#32 } { reset := false, fiq := true, irq := true }
     s.executable ∧ s.inputNow.reset = false ∧ ¬ (s.inputNow.fiq = true ∧ psrF s.cpsr = false) ∧
       s.inputNow.irq = true ∧ psrI s.cpsr = false) := by simp only [State.executable]; decide

theorem witness_PrefetchAborts :
    (let s := under user (refusing .read)
     s.executable ∧ s.undisturbed ∧ s.memSysAborts s.privilege .word .read s.pc = true) ∧ user.config.memSys = [] := by
  simp only [State.executable, State.undisturbed]; decide

/-- After an STM (2): `SUB R13, R13, #8`, and `SUB R0, R0, #0`. -/
theorem witness_HazardAfterStm2 :
    (∀ p ∈ [(0xE24DD008#32, Instr.sub .al false 13#4 13#4 (.imm 0#4 8#8)),
        (0xE2400000#32, Instr.sub .al false 0#4 0#4 (.imm 0#4 0#8))],
      let s := { svc with afterStm2 := true }.placeWordAtPC p.1
      s.executable ∧ s.undisturbed ∧ s.fetches p.1 ∧ decode p.1 = .instr p.2 ∧ availableIn s.config.arch p.2 = true ∧
        (field p.1 28 4 = 15#4 → 5 ≤ s.config.arch.version) ∧ s.afterStm2 = true) ∧
      namesRegister (.sub .al false 13#4 13#4 (.imm 0#4 8#8)) 0xE24DD008#32 13#4 ∧
      ∀ r, namesRegister (.sub .al false 0#4 0#4 (.imm 0#4 0#8)) 0xE2400000#32 r → r ≠ 13#4 ∧ r ≠ 14#4 := by
  simp only [State.executable, State.undisturbed, State.fetches, namesRegister]; decide

/-- The word 0xFFFFFFFF before version 5 and from it on; a branch; and SMULL in a version without long multiplies. -/
theorem witness_UnconditionalSpace :
    (∀ n ∈ [4, 5],
      let s := (under user (version n)).placeWordAtPC 0xFFFFFFFF#32
      s.executable ∧ s.undisturbed ∧ s.fetches 0xFFFFFFFF#32 ∧ field 0xFFFFFFFF#32 28 4 = 15#4 ∧
        s.config.arch.version = n) ∧ decode 0xFFFFFFFF#32 = .rejected .unconditionalSpace ∧
      (let s := user.placeWordAtPC 0xEA000000#32
       s.executable ∧ s.undisturbed ∧ s.fetches 0xEA000000#32 ∧ field 0xEA000000#32 28 4 ≠ 15#4 ∧
         decode 0xEA000000#32 = .rejected .branchOrCoprocessor) ∧
      (let s := { user with config.arch.mVariant := false }.placeWordAtPC 0xE0D10392#32
       s.executable ∧ s.undisturbed ∧ s.fetches 0xE0D10392#32 ∧ s.config.arch.mVariant = false ∧
         decode 0xE0D10392#32 = .instr (.smull .al true 1#4 0#4 3#4 2#4)) := by
  simp only [State.executable, State.undisturbed, State.fetches]; decide

/-- One state for each stop. -/
theorem witness_StepStops :
    psrT ({ user with cpsr := 0x30#32 } : State).cpsr = true ∧
      (psrT ({ user with cpsr := 0#32 } : State).cpsr = false ∧ ({ user with cpsr := 0#32 } : State).mode = none) ∧
      (psrT user.cpsr = false ∧ user.mode ≠ none ∧ misaligned ({ user with pc := 0x8002#32 } : State).pc = true) ∧
      (user.executable ∧ user.undisturbed ∧ user.memSysAborts user.privilege .word .read user.pc = false ∧
        ({ user with stored := [0x8000] } : State).pc.toNat ∈ ({ user with stored := [0x8000] } : State).stored ∧
        user.pc.toNat ∉ user.stored ∧ user.mem.readWord user.config.bigEndian user.pc.toNat = none) := by
  simp only [State.executable, State.undisturbed]; decide

/-- The invariant holds in a state that takes a step. -/
theorem witness_StepKeepsInv :
    (user.placeWordAtPC 0xE2400001#32).Inv ∧ shows (ran 0xE2400001#32 user) (fun _ => true) = true :=
  ⟨⟨by decide, by decide, by decide, by decide, by decide⟩, by decide⟩

theorem witness_ResetValues :
    (given user { reset := true, fiq := true, irq := true }).executable ∧
      (given user { reset := true, fiq := true, irq := true }).inputNow.reset = true := by
  simp only [State.executable]; decide

theorem witness_UserModeConfined :
    (user.placeWordAtPC 0xEF000000#32).mode = some .user ∧ shows (ran 0xEF000000#32 user) (fun _ => true) = true := by decide

/-- An instruction that goes on, a branch, and an exception. -/
theorem witness_ControlTransfer :
    ∀ i ∈ [Instr.teq .al 0#4 0#4 (.rrx 1#4), .sub .al false 15#4 15#4 (.imm 0#4 16#8), .swi .al 0#24],
      shows (exec i user) (fun _ => true) = true := by decide

/-- A flag setter, an exception return, and an exception, each of which changes the CPSR. -/
theorem witness_CpsrWriters :
    ∀ i ∈ [Instr.teq .al 0#4 0#4 (.rrx 1#4), .sub .al true 14#4 15#4 (.imm 0#4 0#8), .stc .al .unindexed true 0#4 0#4 0#4 0#8],
      shows (exec i svc) (fun t => t.cpsr != svc.cpsr) = true := by decide

/-- A step that changes a byte. -/
theorem witness_StoresAreRecorded :
    shows (ran 0xE5810000#32 user) (fun t => t.mem.read 0x2000 != user.mem.read 0x2000 && t.stored == [0x2000]) = true := by
  decide

theorem witness_RegisterBanks :
    14#4 ≠ 15#4 ∧ 0#4 ≠ 15#4 ∧ psrM user.cpsr = 0b10000#5 ∧ (Mode.user = .system → 4 ≤ user.config.arch.version) := by
  decide

end Sys2Proof.Tests
end

section
/-!
PROOFS. The scope statements (spec/00_scope.md): what an instruction whose condition fails does, and what a step runs where
nothing disturbs it. The lemmas on `step` say once how each of its parts answers on a path that goes on, for every statement
about a step.
-/

namespace Sys2Proof.Machine

/-! ## Instructions under a condition -/

/-- R12: the meaning of every instruction with a condition field is a body under that condition. -/
theorem exec_eq_whenPassed {i : Instr} {c : Cond} (s : State) (h : condOf i = some c) :
    ∃ body, exec i s = whenPassed c s body := by
  cases i with
  | stc2 => cases h
  | _ => cases h; exact ⟨_, rfl⟩

theorem exec_of_not_condPassed {i : Instr} {c : Cond} {s : State} (h : condOf i = some c)
    (hc : s.condPassed c = false) : exec i s = s.advance := by
  obtain ⟨body, hb⟩ := exec_eq_whenPassed s h
  rw [hb, whenPassed_neg body hc]

/-! ## A step, part by part -/

/-- R227: where the platform asserts nothing that would be taken, nothing is taken. -/
theorem State.interrupt_of_undisturbed {s : State} (h : s.undisturbed) :
    s.takeInput.interrupt s.inputNow = none := by
  obtain ⟨hreset, hfiq, hirq⟩ := h
  have hfiq' : (s.inputNow.fiq && !psrF s.cpsr) = false := by simpa using hfiq
  have hirq' : (s.inputNow.irq && !psrI s.cpsr) = false := by simpa using hirq
  simp [State.interrupt, hreset, hfiq', hirq']

theorem step_of_undisturbed {s : State} (he : s.executable) (hu : s.undisturbed) :
    step s = s.takeInput.runInstruction := by
  simp only [step, State.notExecutable_of_executable he, State.interrupt_of_undisturbed hu]

/-- Taking the sample of the inputs changes nothing that a fetch looks at. -/
@[simp] theorem State.takeInput_fetch (s : State) : s.takeInput.fetch = s.fetch := rfl

theorem State.fetch_of_fetches {s : State} {w : Word} (h : s.fetches w) : s.fetch = .word w := by
  obtain ⟨hallowed, hnotStored, hread⟩ := h
  simp [State.fetch, hallowed, hnotStored, hread]

theorem State.decodeWord_of_decode {s : State} {w : Word} {i : Instr} (hd : decode w = .instr i)
    (ha : availableIn s.config.arch i = true) (hv : field w 28 4 = 15#4 → 5 ≤ s.config.arch.version) :
    s.decodeWord w = .instr i := by
  have hnv : ¬ (field w 28 4 = 15#4 ∧ s.config.arch.version < 5) := fun ⟨hf, hlt⟩ => absurd (hv hf) (by omega)
  simp only [State.decodeWord, if_neg hnv, hd, if_pos ha]

theorem State.hazard_eq_false {s : State} {i : Instr} (h : ¬ (s.afterStm2 = true ∧ accessesBanked i s.mode = true)) :
    s.hazard i = false := by
  simpa [State.hazard] using h

/-- R60, R86, R268: what is executed once the fetch and the decoding have gone through and the hazard rule admits it. -/
theorem State.runInstruction_of_admitted {s : State} {w : Word} {i : Instr} (hf : s.fetch = .word w)
    (hd : s.decodeWord w = .instr i) (hh : s.hazard i = false) : s.runInstruction = exec i s.clearAfterStm2 := by
  simp [State.runInstruction, hf, hd, hh]

end Sys2Proof.Machine

namespace Sys2Proof.Proofs

open Sys2Proof.Machine

/-- Settles O44: the condition is the outermost test of every meaning, so a failed one leaves the program counter's advance
alone, which stops at the top of the address space. -/
theorem failedCondition : Obligations.FailedCondition := by
  intro i c s hcond hfails
  rw [exec_of_not_condPassed hcond hfails]
  exact ⟨State.advance_of_hasNext, State.advance_of_not_hasNext⟩

/-- Settles O45: each part of the step answers "go on", so the step is the meaning of the instruction. -/
theorem stepRunsDecoded : Obligations.StepRunsDecoded := by
  intro s w i hexecutable hundisturbed hfetches hdecode havailable hversion hadmitted
  have hfetch : s.takeInput.fetch = .word w := by rw [State.takeInput_fetch, State.fetch_of_fetches hfetches]
  have hword : s.takeInput.decodeWord w = .instr i := State.decodeWord_of_decode hdecode havailable hversion
  have hhazard : s.takeInput.hazard i = false := State.hazard_eq_false hadmitted
  rw [step_of_undisturbed hexecutable hundisturbed, State.runInstruction_of_admitted hfetch hword hhazard]
  rfl

end Sys2Proof.Proofs
end

section
/-!
PROOFS. The statements on the state (spec/10_state.md): the invariant that every step keeps, the states that no instruction is
executed in, the values after reset, what may change the CPSR, and which registers a number names.
-/

namespace Sys2Proof.Machine

/-! ## The invariant -/

/-- The invariant is that instructions can be executed and that what the stores have left is in canonical form. -/
theorem State.inv_iff {s : State} : s.Inv ↔ s.executable ∧ s.storesWf :=
  ⟨fun ⟨hT, hM, hA, hm, hr⟩ => ⟨⟨hT, hM, hA⟩, hm, hr⟩, fun ⟨⟨hT, hM, hA⟩, hm, hr⟩ => ⟨hT, hM, hA, hm, hr⟩⟩

/-- A change that leaves memory and the record of stores alone leaves their form alone. -/
theorem State.storesWf_congr {s t : State} (hm : t.mem = s.mem) (hr : t.stored = s.stored) :
    t.storesWf ↔ s.storesWf := by
  simp [State.storesWf, hm, hr]

/-! ## States that can execute -/

/-- R31, R33: below the flags, a bit is what it was. -/
theorem getLsbD_of_psrKeptBelowFlags {s t : State} (h : psrKeptBelowFlags s t) {i : Nat} (hi : i < 28) :
    t.cpsr.getLsbD i = s.cpsr.getLsbD i := by
  simpa [hi] using congrArg (fun b => b.getLsbD i) h

theorem psrT_of_psrKeptBelowFlags {s t : State} (h : psrKeptBelowFlags s t) : psrT t.cpsr = psrT s.cpsr :=
  getLsbD_of_psrKeptBelowFlags h (by decide)

theorem psrM_of_psrKeptBelowFlags {s t : State} (h : psrKeptBelowFlags s t) : psrM t.cpsr = psrM s.cpsr := by
  ext i hi
  simpa [psrM] using getLsbD_of_psrKeptBelowFlags h (show i < 28 by omega)

/-- The flags have no part in whether a state can execute. -/
theorem State.executable_of_psrKeptBelowFlags {s t : State} (hs : s.executable) (hpsr : psrKeptBelowFlags s t)
    (hconfig : t.config = s.config) (hpc : misaligned t.pc = false) : t.executable := by
  obtain ⟨hT, hM, _⟩ := hs
  refine ⟨?_, ?_, hpc⟩
  · rw [psrT_of_psrKeptBelowFlags hpsr, hT]
  · rwa [State.mode_of_psrM (psrM_of_psrKeptBelowFlags hpsr) hconfig]

/-- R221, R222: an exception is entered in ARM state, in its own mode and at a word-aligned vector. -/
theorem State.raise_executable (s : State) (e : Exc) : (s.raise e).executable :=
  ⟨by simp, by simp, s.raise_aligned e⟩

/-! ## Reset -/

/-- R40: the control bits of the CPSR after reset, which do not depend on the configuration. -/
theorem psr_atReset : psrM 0x000000D3#32 = Mode.supervisor.bits ∧ psrT 0x000000D3#32 = false ∧
    psrF 0x000000D3#32 = true ∧ psrI 0x000000D3#32 = true := by
  decide

@[simp] theorem State.resetWith_cpsr (config : MachineConfig) (coprocs : Vector (Option Coprocessor) 16) :
    (State.resetWith config coprocs).cpsr = 0x000000D3#32 := rfl

@[simp] theorem State.resetWith_mode (config : MachineConfig) (coprocs : Vector (Option Coprocessor) 16) :
    (State.resetWith config coprocs).mode = some .supervisor := by
  rw [State.mode, State.resetWith_cpsr, psr_atReset.1]
  exact Mode.ofBitsIn_bits _ (by decide)

theorem State.resetWith_executable (config : MachineConfig) (coprocs : Vector (Option Coprocessor) 16) :
    (State.resetWith config coprocs).executable := by
  obtain ⟨_, hT, _⟩ := psr_atReset
  refine ⟨hT, by simp, ?_⟩
  change misaligned (if config.highVectors then 0xFFFF0000#32 else 0x00000000#32) = false
  split <;> decide

theorem State.resetInput_mode (s : State) : s.resetInput.mode = some .supervisor :=
  State.resetWith_mode s.config s.coprocs

theorem State.resetInput_executable (s : State) : s.resetInput.executable :=
  State.resetWith_executable s.config s.coprocs

/-- R230: Reset comes before every other input. -/
theorem step_of_reset {s : State} (he : s.executable) (hr : s.inputNow.reset = true) :
    step s = .next s.takeInput.resetInput := by
  simp only [step, State.notExecutable_of_executable he, State.interrupt, hr, if_true]

/-! ## Every way of going on keeps the invariant -/

theorem State.inv_raise {s : State} (e : Exc) (h : s.storesWf) : (s.raise e).Inv :=
  State.inv_iff.2 ⟨s.raise_executable e, (State.storesWf_congr (by simp) (by simp)).2 h⟩

theorem State.inv_resetInput {s : State} (h : s.storesWf) : s.resetInput.Inv :=
  State.inv_iff.2 ⟨s.resetInput_executable, h⟩

/-- The mark of an STM (2) has no part in the invariant, and neither have the samples of the inputs. -/
theorem State.inv_takeInput_clearAfterStm2 {s : State} (h : s.Inv) : s.takeInput.clearAfterStm2.Inv := by
  obtain ⟨hT, hM, hA, hm, hr⟩ := h
  exact ⟨hT, hM, hA, hm, hr⟩

/-- An instruction keeps the invariant, whichever way it ends. -/
theorem Goes.inv {i : Instr} {s t : State} (h : Goes i s t) (hs : s.Inv) : t.Inv := by
  obtain ⟨hexec, hwf⟩ := State.inv_iff.1 hs
  rcases h with ⟨u, hk, hc, _, rfl⟩ | ⟨_, _, _, p, _, hp, rfl⟩ | ⟨_, _, _, p, saved, _, _, hT, hM, hp, rfl⟩ |
    ⟨e, u, hk, _, rfl⟩
  case inl =>
    have hpsr : psrKeptBelowFlags s u := by
      rcases hc with hc | ⟨_, hc⟩
      · rw [psrKeptBelowFlags, hc]
      · exact hc
    have hpc : misaligned (u.pc + 4#32) = false := misaligned_add_four (by rw [hk.pc]; exact hs.alignedPC)
    exact State.inv_iff.2 ⟨State.executable_of_psrKeptBelowFlags hexec hpsr hk.config hpc, hk.wf hwf⟩
  case inr.inl =>
    obtain ⟨hT, hM, _⟩ := hexec
    exact State.inv_iff.2 ⟨⟨hT, hM, hp⟩, hwf⟩
  case inr.inr.inl => exact State.inv_iff.2 ⟨⟨hT, hM, hp⟩, hwf⟩
  case inr.inr.inr => exact State.inv_raise e (hk.wf hwf)

/-! ## The CPSR's writers -/

/-- R33: the instructions that set flags, by name. -/
theorem setsFlags_cases {i : Instr} (h : setsFlags i = true) :
    (∃ c hi lo rs rm, i = .smull c true hi lo rs rm) ∨ (∃ c hi lo rs rm, i = .umlal c true hi lo rs rm) ∨
      (∃ c rn rd o, i = .sub c true rn rd o ∧ rd ≠ 15#4) ∨ (∃ c rn z o, i = .teq c rn z o) ∨
      (∃ c rn z o, i = .tst c rn z o) := by
  cases i with
  | smull c setFlags hi lo rs rm => cases h; exact .inl ⟨_, _, _, _, _, rfl⟩
  | umlal c setFlags hi lo rs rm => cases h; exact .inr (.inl ⟨_, _, _, _, _, rfl⟩)
  | sub c setFlags rn rd o =>
    obtain ⟨rfl, hrd⟩ : setFlags = true ∧ rd ≠ 15#4 := by simpa [setsFlags] using h
    exact .inr (.inr (.inl ⟨_, _, _, _, rfl, hrd⟩))
  | teq c rn z o => exact .inr (.inr (.inr (.inl ⟨_, _, _, _, rfl⟩)))
  | tst c rn z o => exact .inr (.inr (.inr (.inr ⟨_, _, _, _, rfl⟩)))
  | _ => cases h

theorem State.vectorBase_congr {s t : State} (h : t.config = s.config) : t.vectorBase = s.vectorBase := by
  simp [State.vectorBase, h]

/-- R222: an exception taken by an instruction: the mode entered, the CPSR saved there and the vector, all as of the state
that the instruction started in. -/
theorem raise_of_keeps {s u : State} (e : Exc) (hk : Keeps s u) (hc : u.cpsr = s.cpsr) :
    (u.raise e).mode = some e.mode ∧ (u.raise e).spsr = some s.cpsr ∧
      (u.raise e).pc = s.vectorBase + e.vectorOffset := by
  refine ⟨u.raise_mode e, ?_, ?_⟩
  · rw [u.raise_spsr e, hc]
  · rw [u.raise_pc e, State.vectorBase_congr hk.config]

/-! ## Fetches that stop -/

theorem State.fetch_of_mem_stored {s : State} (ha : s.memSysAborts s.privilege .word .read s.pc = false)
    (h : s.pc.toNat ∈ s.stored) : s.fetch = .stored := by
  simp [State.fetch, ha, h]

theorem State.fetch_of_unwritten {s : State} (ha : s.memSysAborts s.privilege .word .read s.pc = false)
    (h : s.pc.toNat ∉ s.stored) (hr : s.mem.readWord s.config.bigEndian s.pc.toNat = none) : s.fetch = .unwritten := by
  simp [State.fetch, ha, h, hr]

/-! ## Mode numbers and banks -/

/-- R245: when a number names a mode in a version. -/
theorem Mode.ofBitsIn_eq_some_iff (v : ArchVersion) (b : BitVec 5) (m : Mode) :
    Mode.ofBitsIn v b = some m ↔ b = m.bits ∧ (m = .system → 4 ≤ v.version) := by
  constructor
  · intro h
    have hb : b = m.bits := Mode.bits_of_ofBits (Mode.ofBits_of_ofBitsIn h)
    refine ⟨hb, ?_⟩
    rintro rfl
    by_contra hv
    rw [hb, Mode.ofBitsIn, if_pos ⟨rfl, Nat.not_le.1 hv⟩] at h
    cases h
  · rintro ⟨rfl, hv⟩
    by_cases hm : m = .system
    · rw [Mode.ofBitsIn_eq_ofBits (hv hm), Mode.ofBits_bits]
    · exact Mode.ofBitsIn_bits v hm

/-- R21: the mode whose bank holds a register number of a mode: below 8 the User bank, from 8 to 12 FIQ mode's own, and 13 and
14 the mode's own, which System mode shares with User mode. -/
def bankOf (m : Mode) (r : RegNum) : Mode :=
  if r.toNat < 8 then .user
  else if r.toNat < 13 then if m = .fiq then .fiq else .user
  else if m = .system then .user else m

/-- R21: the mode in whose bank a physical register lies. -/
def physBank (i : Fin 30) : Mode :=
  if i.val < 15 then .user
  else if i.val < 22 then .fiq
  else if i.val < 24 then .supervisor
  else if i.val < 26 then .abort
  else if i.val < 28 then .undefined
  else .irq

/-- R21: the number that a physical register has in its bank. -/
def physNumber (i : Fin 30) : Nat :=
  if i.val < 15 then i.val else if i.val < 22 then i.val - 7 else 13 + i.val % 2

theorem physIndex_bankOf (m : Mode) (r : RegNum) : physIndex (some (bankOf m r)) r = physIndex (some m) r := by
  revert r
  cases m <;> decide

theorem physBank_physIndex (m : Mode) {r : RegNum} (h : r ≠ 15#4) : physBank (physIndex (some m) r) = bankOf m r := by
  revert r
  cases m <;> decide

theorem physNumber_physIndex (m : Mode) {r : RegNum} (h : r ≠ 15#4) : physNumber (physIndex (some m) r) = r.toNat := by
  revert r
  cases m <;> decide

/-- R21: a physical register is a number in a bank. -/
theorem physIndex_eq_iff {m m' : Mode} {r r' : RegNum} (hr : r ≠ 15#4) (hr' : r' ≠ 15#4) :
    physIndex (some m) r = physIndex (some m') r' ↔ r = r' ∧ bankOf m r = bankOf m' r := by
  constructor
  · intro h
    have hnumber : r = r' := by
      apply BitVec.eq_of_toNat_eq
      rw [← physNumber_physIndex m hr, h, physNumber_physIndex m' hr']
    subst hnumber
    exact ⟨rfl, by rw [← physBank_physIndex m hr, h, physBank_physIndex m' hr]⟩
  · rintro ⟨rfl, h⟩
    rw [← physIndex_bankOf m, h, physIndex_bankOf m']

/-- R21: which modes share the bank of a number, as the banking table has it. -/
theorem bankOf_eq_iff (m m' : Mode) (r : RegNum) :
    bankOf m r = bankOf m' r ↔
      m = m' ∨ r.toNat < 8 ∨ (r.toNat < 13 ∧ m ≠ .fiq ∧ m' ≠ .fiq) ∨
        (m ∈ [Mode.user, .system] ∧ m' ∈ [Mode.user, .system]) := by
  unfold bankOf
  by_cases h8 : r.toNat < 8
  · simp [h8]
  · by_cases h13 : r.toNat < 13
    · simp only [h8, h13, if_true, if_false, true_and, false_or]
      cases m <;> cases m' <;> decide
    · simp only [h8, h13, if_false, false_and, false_or]
      cases m <;> cases m' <;> decide

/-! ## What R15 is stored as -/

/-- R27: the offset of a stored R15 is one of two. -/
theorem pcStoreOffsetWord_cases : pcStoreOffsetWord = 8#32 ∨ pcStoreOffsetWord = 12#32 := by
  unfold pcStoreOffsetWord
  split <;> simp

end Sys2Proof.Machine

namespace Sys2Proof.Proofs

open Sys2Proof.Machine

/-- Settles O51: a step ends in a reset, in an exception's entry or as an instruction does, and each of the three keeps the
invariant. -/
theorem stepKeepsInv : Obligations.StepKeepsInv := by
  intro s t hs h
  have hwf : s.storesWf := (State.inv_iff.1 hs).2
  obtain ⟨_, ⟨_, rfl⟩ | ⟨e, rfl⟩ | ⟨i, _, hexec⟩⟩ := step_next h
  · exact State.inv_resetInput hwf
  · exact State.inv_raise e hwf
  · exact (exec_next hexec).inv (State.inv_takeInput_clearAfterStm2 hs)

/-- Settles O56: of the four ways that an instruction ends, a branch leaves the CPSR alone and each other one is a disjunct. -/
theorem cpsrWriters : Obligations.CpsrWriters := by
  intro i s t h hne
  rcases exec_next h with ⟨u, _, hc, _, rfl⟩ | ⟨_, _, _, _, _, _, rfl⟩ |
    ⟨c, rn, op, _, saved, hi, hsaved, _, _, _, rfl⟩ | ⟨e, u, hk, hc, rfl⟩
  case inl =>
    obtain ⟨hflags, hbelow⟩ := hc.resolve_left hne
    exact .inl ⟨setsFlags_cases hflags, hbelow⟩
  case inr.inl => exact absurd rfl hne
  case inr.inr.inl => exact .inr (.inl ⟨⟨c, rn, op, hi⟩, hsaved⟩)
  case inr.inr.inr => exact .inr (.inr ⟨e, raise_of_keeps e hk hc⟩)

/-- Settles O50: the first three stops are the tests before a step, the last two are answers of the fetch. -/
theorem stepStops : Obligations.StepStops := by
  intro s
  refine ⟨fun hT => ?_, fun hT hM => ?_, fun hT hM hA => ?_, fun he hu ha => ⟨fun hmem => ?_, fun hmem hread => ?_⟩⟩
  · simp [step, State.notExecutable, hT]
  · simp [step, State.notExecutable, hT, hM]
  · simp [step, State.notExecutable, hT, hM, hA]
  · rw [step_of_undisturbed he hu, State.runInstruction, State.takeInput_fetch, State.fetch_of_mem_stored ha hmem]
  · rw [step_of_undisturbed he hu, State.runInstruction, State.takeInput_fetch, State.fetch_of_unwritten ha hmem hread]

/-- Settles O52. -/
theorem invAtReset : Obligations.InvAtReset :=
  State.inv_iff.2 ⟨State.resetWith_executable _ _, State.storesWf_reset⟩

/-- Settles O53: the reset input puts the machine into the reset state of its own parameters and coprocessors. -/
theorem resetValues : Obligations.ResetValues := by
  obtain ⟨_, hT, hF, hI⟩ := psr_atReset
  constructor
  · rintro config coprocs s rfl
    exact ⟨State.resetWith_mode config coprocs, hT, hF, hI, rfl, rfl, rfl⟩
  · intro s he hr
    exact ⟨_, step_of_reset he hr, State.resetInput_mode _, hT, hF, hI, rfl, rfl, rfl, rfl⟩

/-- Settles O58: a physical register is a number in a bank, and the banking table says which modes share a bank. -/
theorem registerBanks : Obligations.RegisterBanks := by
  constructor
  · intro m m' r r' hr hr'
    rw [physIndex_eq_iff hr hr', bankOf_eq_iff]
  · rintro s ⟨m, b⟩ hp
    have hb : b = m.bits := by
      simp only [List.mem_cons, List.not_mem_nil, or_false, Prod.mk.injEq] at hp
      rcases hp with ⟨rfl, rfl⟩ | ⟨rfl, rfl⟩ | ⟨rfl, rfl⟩ | ⟨rfl, rfl⟩ | ⟨rfl, rfl⟩ | ⟨rfl, rfl⟩ | ⟨rfl, rfl⟩ <;> rfl
    rw [hb]
    exact Mode.ofBitsIn_eq_some_iff _ _ _

/-- Settles O59: the k of every store is the model's one constant. -/
theorem registerReads : Obligations.RegisterReads := by
  refine ⟨fun s => ⟨rfl, rfl⟩, ⟨pcStoreOffsetWord, pcStoreOffsetWord_cases, fun s => ⟨rfl, rfl⟩⟩, fun s r hr => ?_⟩
  simp [State.opnd, State.stval, State.userStval, State.userReg, State.reg, hr]

end Sys2Proof.Proofs
end

section
/-!
PROOFS. The statements on memory (spec/20_memory.md): which bytes a step may change and how it records them, and how the bytes
of memory make words.
-/

namespace Sys2Proof.Machine

/-! ## The record of stores over a step -/

/-- R36, R71: from `s` to `t` the parameters stay, the word of every changed byte is recorded, and the record only grows. -/
structure State.RecordsStores (s t : State) : Prop where
  config   : t.config = s.config
  recorded : ∀ a, t.mem.read a ≠ s.mem.read a → 4 * (a / 4) ∈ t.stored
  grows    : ∀ a ∈ s.stored, a ∈ t.stored

/-- What comes after an instruction's stores (the program counter, the CPSR, an exception's entry, a reset) has no part in
memory and its record. -/
theorem Keeps.recordsStores {s u t : State} (h : Keeps s u) (hconfig : t.config = u.config) (hmem : t.mem = u.mem)
    (hstored : t.stored = u.stored) : s.RecordsStores t where
  config := hconfig.trans h.config
  recorded a ha := by
    rw [hmem] at ha
    rw [hstored]
    exact h.recorded a ha
  grows a ha := by
    rw [hstored]
    exact h.grows a ha

theorem Keeps.recordsStores_raise {s u : State} (e : Exc) (h : Keeps s u) : s.RecordsStores (u.raise e) :=
  h.recordsStores (by simp) (by simp) (by simp)

/-- An instruction records its stores, whichever way it ends. -/
theorem Goes.recordsStores {i : Instr} {s t : State} (h : Goes i s t) : s.RecordsStores t := by
  rcases h with ⟨u, hk, _, _, rfl⟩ | ⟨_, _, _, _, _, _, rfl⟩ | ⟨_, _, _, _, _, _, _, _, _, _, rfl⟩ | ⟨e, u, hk, _, rfl⟩
  case inl => exact hk.recordsStores rfl rfl rfl
  case inr.inl => exact (Keeps.refl s).recordsStores rfl rfl rfl
  case inr.inr.inl => exact (Keeps.refl s).recordsStores rfl rfl rfl
  case inr.inr.inr => exact hk.recordsStores_raise e

/-- Taking the sample of the inputs and clearing the mark of an STM (2) come before any store. -/
theorem State.RecordsStores.of_takeInput_clearAfterStm2 {s t : State}
    (h : s.takeInput.clearAfterStm2.RecordsStores t) : s.RecordsStores t :=
  ⟨h.config, h.recorded, h.grows⟩

theorem step_recordsStores {s t : State} (h : step s = .next t) : s.RecordsStores t := by
  obtain ⟨_, ⟨_, rfl⟩ | ⟨e, rfl⟩ | ⟨i, _, hexec⟩⟩ := step_next h
  · exact (Keeps.refl s).recordsStores rfl rfl rfl
  · exact (Keeps.refl s).recordsStores (by simp) (by simp) (by simp)
  · exact (exec_next hexec).recordsStores.of_takeInput_clearAfterStm2

/-! ## Words and their bytes -/

/-- The number of a concatenation, where the library has it with shifts. -/
theorem toNat_append_eq_add {v w : Nat} (x : BitVec v) (y : BitVec w) :
    (x ++ y).toNat = y.toNat + 2 ^ w * x.toNat := by
  rw [BitVec.toNat_append, ← Nat.shiftLeft_add_eq_or_of_lt y.isLt, Nat.shiftLeft_eq]
  ring

/-- R53: a big-endian word is the sum of its bytes, the last one the least. -/
theorem wordOfBytes_true_toNat (b0 b1 b2 b3 : Byte) :
    (wordOfBytes true b0 b1 b2 b3).toNat = b3.toNat + 2 ^ 8 * b2.toNat + 2 ^ 16 * b1.toNat + 2 ^ 24 * b0.toNat := by
  simp only [wordOfBytes, if_true, BitVec.toNat_cast, toNat_append_eq_add]
  omega

/-- R53: the two byte orders are each other's mirror image. -/
theorem wordOfBytes_false_eq_true (b0 b1 b2 b3 : Byte) :
    wordOfBytes false b0 b1 b2 b3 = wordOfBytes true b3 b2 b1 b0 := rfl

/-- R53: a byte stored one address into a word takes that byte's place and leaves the other three. -/
theorem Memory.readWord_write_second (m : Memory) (big : Bool) (a : Nat) (w : Word) (b : Byte) :
    ((m.writeWord big a w).write (a + 1) b).readWord big a =
      some (wordOfBytes big (byteOfWord big w 0) b (byteOfWord big w 2) (byteOfWord big w 3)) := by
  simp [Memory.readWord, Memory.read_write, Memory.read_writeWord]

end Sys2Proof.Machine

namespace Sys2Proof.Proofs

open Sys2Proof.Machine

/-- Settles O57: of the ways that a step ends, only an instruction's own stores touch memory, and each of them is recorded. -/
theorem storesAreRecorded : Obligations.StoresAreRecorded := by
  intro s t h
  obtain ⟨hconfig, hrecorded, hgrows⟩ := step_recordsStores h
  exact ⟨hconfig, hrecorded, hgrows⟩

/-- Settles O60: words as sums of their bytes, read after write of a word, and one byte of a zeroed word replaced. -/
theorem bytesOfWord : Obligations.BytesOfWord := by
  refine ⟨fun b0 b1 b2 b3 => ⟨?_, wordOfBytes_true_toNat b0 b1 b2 b3⟩, fun m big a w => ⟨?_, fun x hx => ?_⟩,
    fun m a => ⟨?_, ?_⟩⟩
  · rw [wordOfBytes_false_eq_true, wordOfBytes_true_toNat]
  · exact m.readWord_writeWord_same big a w
  · rw [Memory.read_writeWord, if_neg (by omega)]
  · rw [Memory.readWord_write_second]
    decide
  · rw [Memory.readWord_write_second]
    decide

end Sys2Proof.Proofs
end

section
/-!
PROOFS. The statements on instruction words (spec/30_encoding.md R82 to R86): decoding and encoding are each other's
inverse, and which words decode to which instruction. Each format and operand form is said field by field, as an `↔`;
everything else is read off the fields.
-/

namespace Sys2Proof

/-! ## Fields of a word -/

theorem append_eq_append_iff {m n : Nat} {x x' : BitVec m} {y y' : BitVec n} :
    x ++ y = x' ++ y' ↔ x = x' ∧ y = y' := by
  constructor
  · intro h
    exact ⟨by simpa [BitVec.extractLsb'_append_eq_left] using congrArg (BitVec.extractLsb' n m) h,
      by simpa [BitVec.extractLsb'_append_eq_right] using congrArg (BitVec.extractLsb' 0 n) h⟩
  · rintro ⟨rfl, rfl⟩; rfl

theorem cast_eq_cast_iff {m n : Nat} (h : m = n) {x y : BitVec m} : x.cast h = y.cast h ↔ x = y := by
  subst h; rfl

/-- R10: neighbouring fields make one field. -/
theorem field_append (w : Word) {hi lo n : Nat} (m : Nat) (h : hi = lo + n) :
    field w hi m ++ field w lo n = field w lo (m + n) :=
  BitVec.extractLsb'_append_extractLsb'_eq_extractLsb' h

theorem field_one (w : Word) (i : Nat) : field w i 1 = bit (w.getLsbD i) := by
  rw [field_eq_iff]
  intro j hj
  obtain rfl : j = 0 := by omega
  simp [bit]

theorem field_eq_one_iff (w : Word) (i : Nat) : field w i 1 = 1#1 ↔ w.getLsbD i = true := by
  rw [field_one]
  cases w.getLsbD i <;> decide

theorem field_eq_zero_iff (w : Word) (i : Nat) : field w i 1 = 0#1 ↔ w.getLsbD i = false := by
  rw [field_one]
  cases w.getLsbD i <;> decide

theorem field_eq_bit_iff (w : Word) (i : Nat) (b : Bool) : field w i 1 = bit b ↔ w.getLsbD i = b := by
  rw [field_one]
  cases w.getLsbD i <;> cases b <;> decide

/-- A field of a field. -/
theorem field_of_field {w : Word} {lo n : Nat} {v : BitVec n} (h : field w lo n = v) (k m : Nat) (hk : k + m ≤ n) :
    field w (lo + k) m = v.extractLsb' k m := by
  subst h
  ext i hi
  simp [field, show k + i < n by omega, Nat.add_assoc]

/-- A bit of a field. -/
theorem getLsbD_of_field_eq {w : Word} {lo n : Nat} {v : BitVec n} (h : field w lo n = v) (k : Nat) (hk : k < n) :
    w.getLsbD (lo + k) = v.getLsbD k :=
  (field_eq_iff w lo n v).1 h k hk

/-- A field is the field above its lowest bit, and that bit. -/
theorem field_succ (w : Word) (lo n : Nat) : field w lo (n + 1) = field w (lo + 1) n ++ bit (w.getLsbD lo) := by
  rw [← field_one]
  exact (field_append (n := 1) w n rfl).symm

theorem field_cast_eq_self (w : Word) {n : Nat} (h : n = 32) : (field w 0 n).cast h = w := by
  subst h
  exact BitVec.extractLsb'_eq_self

/-! ## The formats, field by field -/

section

variable (c : Cond) (w : Word)

theorem encodeLongMultiply_eq_iff (op : BitVec 7) (sf : Bool) (hi lo rs rm : RegNum) :
    encodeLongMultiply c op sf hi lo rs rm = w ↔
      field w 28 4 = c.bits ∧ field w 21 7 = op ∧ w.getLsbD 20 = sf ∧ field w 16 4 = hi ∧ field w 12 4 = lo ∧
        field w 8 4 = rs ∧ field w 4 4 = 0b1001#4 ∧ field w 0 4 = rm := by
  constructor
  · rintro rfl; simp
  · rintro ⟨hc, rfl, rfl, rfl, rfl, rfl, h4, rfl⟩
    rw [encodeLongMultiply, ← hc, ← h4, ← field_one]
    simp only [field_append]
    exact field_cast_eq_self w rfl

theorem encodeCoprocessor_eq_iff (b : BitVec 4) (x : Index5) (n : Bool) (rn : RegNum) (crd cp : BitVec 4)
    (off : BitVec 8) :
    encodeCoprocessor b x n rn crd cp off = w ↔
      field w 28 4 = b ∧ field w 25 3 = 0b110#3 ∧ (field w 23 2 = x.puw.1 ∧ field w 21 1 = x.puw.2) ∧
        w.getLsbD 22 = n ∧ w.getLsbD 20 = false ∧ field w 16 4 = rn ∧ field w 12 4 = crd ∧ field w 8 4 = cp ∧
        field w 0 8 = off := by
  constructor
  · rintro rfl; simp
  · rintro ⟨rfl, h25, ⟨h23, h21⟩, rfl, h20, rfl, rfl, rfl, rfl⟩
    rw [encodeCoprocessor, ← h25, ← h23, ← h21, ← field_one, ← (field_eq_zero_iff w 20).2 h20]
    simp only [field_append]
    exact field_cast_eq_self w rfl

theorem encodeMultiple_eq_iff (m : Mode4) (sb : BitVec 1) (wb : Bool) (rn : RegNum) (list : BitVec 16) :
    encodeMultiple c m sb wb rn list = w ↔
      field w 28 4 = c.bits ∧ field w 25 3 = 0b100#3 ∧ field w 23 2 = m.pu ∧ field w 22 1 = sb ∧ w.getLsbD 21 = wb ∧
        w.getLsbD 20 = false ∧ field w 16 4 = rn ∧ field w 0 16 = list := by
  constructor
  · rintro rfl; simp
  · rintro ⟨hc, h25, h23, rfl, rfl, h20, rfl, rfl⟩
    rw [encodeMultiple, ← hc, ← h25, ← h23, ← field_one, ← (field_eq_zero_iff w 20).2 h20]
    simp only [field_append]
    exact field_cast_eq_self w rfl

theorem encodeStore_eq_iff (p : BitVec 1) (up : Bool) (b wb : BitVec 1) (rn rd : RegNum) (o : Offset2) :
    encodeStore c p up b wb rn rd o = w ↔
      field w 28 4 = c.bits ∧ field w 26 2 = 0b01#2 ∧ (field w 25 1 = o.encode.1 ∧ field w 0 12 = o.encode.2) ∧
        field w 24 1 = p ∧ w.getLsbD 23 = up ∧ field w 22 1 = b ∧ field w 21 1 = wb ∧ w.getLsbD 20 = false ∧
        field w 16 4 = rn ∧ field w 12 4 = rd := by
  constructor
  · rintro rfl; simp
  · rintro ⟨hc, h26, ⟨h25, h0⟩, rfl, rfl, rfl, rfl, h20, rfl, rfl⟩
    rw [encodeStore, ← hc, ← h26, ← h25, ← h0, ← field_one, ← (field_eq_zero_iff w 20).2 h20]
    simp only [field_append]
    exact field_cast_eq_self w rfl

theorem encodeDataProcessing_eq_iff (op : BitVec 4) (sb : BitVec 1) (rn rd : RegNum) (o : Operand1) :
    encodeDataProcessing c op sb rn rd o = w ↔
      field w 28 4 = c.bits ∧ field w 26 2 = 0b00#2 ∧ (field w 25 1 = o.encode.1 ∧ field w 0 12 = o.encode.2) ∧
        field w 21 4 = op ∧ field w 20 1 = sb ∧ field w 16 4 = rn ∧ field w 12 4 = rd := by
  constructor
  · rintro rfl; simp
  · rintro ⟨hc, h26, ⟨h25, h0⟩, rfl, rfl, rfl, rfl⟩
    rw [encodeDataProcessing, ← hc, ← h26, ← h25, ← h0]
    simp only [field_append]
    exact field_cast_eq_self w rfl

theorem encodeSwap_eq_iff (b : BitVec 1) (rn rd : RegNum) (sbz : BitVec 4) (rm : RegNum) :
    encodeSwap c b rn rd sbz rm = w ↔
      field w 28 4 = c.bits ∧ field w 23 5 = 0b00010#5 ∧ field w 22 1 = b ∧ field w 20 2 = 0b00#2 ∧ field w 16 4 = rn ∧
        field w 12 4 = rd ∧ field w 8 4 = sbz ∧ field w 4 4 = 0b1001#4 ∧ field w 0 4 = rm := by
  constructor
  · rintro rfl; simp
  · rintro ⟨hc, h23, rfl, h20, rfl, rfl, rfl, h4, rfl⟩
    rw [encodeSwap, ← hc, ← h23, ← h20, ← h4]
    simp only [field_append]
    exact field_cast_eq_self w rfl

theorem encodeSwi_eq_iff (n : BitVec 24) :
    (c.bits ++ 0b1111#4 ++ n).cast (by decide) = w ↔
      field w 28 4 = c.bits ∧ field w 24 4 = 0b1111#4 ∧ field w 0 24 = n := by
  have hw : (field w 28 4 ++ field w 24 4 ++ field w 0 24).cast (by decide) = w := by
    simp only [field_append]
    exact field_cast_eq_self w rfl
  constructor
  · intro h
    rw [← hw, cast_eq_cast_iff, append_eq_append_iff, append_eq_append_iff] at h
    obtain ⟨⟨hc, h24⟩, h0⟩ := h
    exact ⟨hc.symm, h24.symm, h0.symm⟩
  · rintro ⟨hc, h24, rfl⟩
    rw [← hc, ← h24, hw]

end

/-! ## Operand forms -/

theorem ShiftType.bits_ofBits (b : BitVec 2) : (ShiftType.ofBits b).bits = b := by revert b; decide

theorem ShiftType.ofNat_amountOf (ty : ShiftType) (n : BitVec 5) : BitVec.ofNat 5 (ty.amountOf n) = n := by
  revert n; cases ty <;> decide

/-- R98 to R104: an amount that a shift type encodes is the amount of its own field, which is not that of RRX. -/
theorem ShiftType.amountOf_ofNat {ty : ShiftType} {n : Nat} (h : ty.encodes n = true) :
    ty.amountOf (BitVec.ofNat 5 n) = n ∧ ¬ (ty.bits = 0b11#2 ∧ BitVec.ofNat 5 n = 0#5) := by
  have hn : n < 33 := by cases ty <;> simp [ShiftType.encodes] at h <;> omega
  have hall : ∀ n < 33, ty.encodes n = true →
      ty.amountOf (BitVec.ofNat 5 n) = n ∧ ¬ (ty.bits = 0b11#2 ∧ BitVec.ofNat 5 n = 0#5) := by
    cases ty <;> decide
  exact hall n hn h

/-- Bits [11:0] of a word, as a shift by an immediate has them (R97 to R107, R110, R111). -/
theorem field_12_eq_shift_iff (w : Word) (n : BitVec 5) (ty : BitVec 2) (b : BitVec 1) (rm : RegNum) :
    field w 0 12 = (n ++ ty ++ b ++ rm).cast (by decide) ↔
      field w 7 5 = n ∧ field w 5 2 = ty ∧ field w 4 1 = b ∧ field w 0 4 = rm := by
  have hw : field w 0 12 = (field w 7 5 ++ field w 5 2 ++ field w 4 1 ++ field w 0 4).cast (by decide) := by
    simp only [field_append]
    rfl
  rw [hw, cast_eq_cast_iff, append_eq_append_iff, append_eq_append_iff, append_eq_append_iff, and_assoc, and_assoc]

theorem field_12_eq_regShift_iff (w : Word) (rs : RegNum) (z : BitVec 1) (ty : BitVec 2) (b : BitVec 1) (rm : RegNum) :
    field w 0 12 = (rs ++ z ++ ty ++ b ++ rm).cast (by decide) ↔
      field w 8 4 = rs ∧ field w 7 1 = z ∧ field w 5 2 = ty ∧ field w 4 1 = b ∧ field w 0 4 = rm := by
  have hw : field w 0 12 =
      (field w 8 4 ++ field w 7 1 ++ field w 5 2 ++ field w 4 1 ++ field w 0 4).cast (by decide) := by
    simp only [field_append]
    rfl
  rw [hw, cast_eq_cast_iff, append_eq_append_iff, append_eq_append_iff, append_eq_append_iff, append_eq_append_iff,
    and_assoc, and_assoc, and_assoc]

theorem field_12_eq_imm_iff (w : Word) (rot : BitVec 4) (imm : BitVec 8) :
    field w 0 12 = (rot ++ imm).cast (by decide) ↔ field w 8 4 = rot ∧ field w 0 8 = imm := by
  have hw : field w 0 12 = (field w 8 4 ++ field w 0 8).cast (by decide) := by
    simp only [field_append]
    rfl
  rw [hw, cast_eq_cast_iff, append_eq_append_iff]

/-- R97 to R104, R110, R111: the shift type and amount that the fields of a word name encode to those fields. -/
theorem shift_fields (w : Word) (h4 : field w 4 1 = 0#1) :
    field w 0 12 = (BitVec.ofNat 5 ((ShiftType.ofBits (field w 5 2)).amountOf (field w 7 5)) ++
      (ShiftType.ofBits (field w 5 2)).bits ++ 0#1 ++ field w 0 4).cast (by decide) := by
  rw [ShiftType.ofNat_amountOf, ShiftType.bits_ofBits]
  exact (field_12_eq_shift_iff ..).2 ⟨rfl, rfl, h4, rfl⟩

/-- R104, R107: bits [6:5] and [11:7] that are not those of RRX name an amount that the shift type encodes. -/
theorem ShiftType.encodes_fields {b : BitVec 2} {n : BitVec 5} (h : ¬ (b = 0b11#2 ∧ n = 0#5)) :
    (ShiftType.ofBits b).encodes ((ShiftType.ofBits b).amountOf n) = true := by
  revert b n; decide

/-- R109 to R111: the words that hold an offset are those without bit 25 and bit 4 together. -/
theorem offset2_fields_iff (w : Word) (o : Offset2) :
    (o.wellFormed = true ∧ field w 25 1 = o.encode.1 ∧ field w 0 12 = o.encode.2) ↔
      ¬ (w.getLsbD 25 = true ∧ w.getLsbD 4 = true) ∧ decodeOffset2 w = o := by
  constructor
  · rintro ⟨hwf, h25, h0⟩
    cases o with
    | imm off =>
      rw [Offset2.encode, field_eq_zero_iff] at h25
      exact ⟨by simp only [h25]; simp, by simp only [decodeOffset2, h25]; exact congrArg _ h0⟩
    | scaled rm ty n =>
      obtain ⟨h7, h5, h4, rfl⟩ := (field_12_eq_shift_iff ..).1 h0
      obtain ⟨hn, hne⟩ := ShiftType.amountOf_ofNat hwf
      rw [Offset2.encode, field_eq_one_iff] at h25
      rw [field_eq_zero_iff] at h4
      simp only [decodeOffset2, h25, h4, h5, h7, if_neg hne, ShiftType.ofBits_bits, hn]
      simp
    | rrx rm =>
      obtain ⟨h7, h5, h4, rfl⟩ := (field_12_eq_shift_iff ..).1 h0
      rw [Offset2.encode, field_eq_one_iff] at h25
      rw [field_eq_zero_iff] at h4
      simp only [decodeOffset2, h25, h4, h5, h7]
      simp
  · rintro ⟨h, rfl⟩
    unfold decodeOffset2
    split
    · rename_i h25
      exact ⟨rfl, (field_eq_zero_iff w 25).2 (by simpa using h25), rfl⟩
    · rename_i h25
      replace h25 : w.getLsbD 25 = true := by simpa using h25
      have h4 : field w 4 1 = 0#1 := (field_eq_zero_iff w 4).2 (by simpa [h25] using h)
      split
      · rename_i hx
        exact ⟨rfl, (field_eq_one_iff w 25).2 h25, (field_12_eq_shift_iff ..).2 ⟨hx.2, hx.1, h4, rfl⟩⟩
      · rename_i hx
        exact ⟨ShiftType.encodes_fields hx, (field_eq_one_iff w 25).2 h25, shift_fields w h4⟩

/-- R95: the words that hold a shifter operand are those without I = 0 and bits 7 and 4 together. -/
theorem operand1_fields_iff (w : Word) (o : Operand1) :
    (o.wellFormed = true ∧ field w 25 1 = o.encode.1 ∧ field w 0 12 = o.encode.2) ↔
      ¬ (w.getLsbD 25 = false ∧ w.getLsbD 7 = true ∧ w.getLsbD 4 = true) ∧ decodeOperand1 w = o := by
  constructor
  · rintro ⟨hwf, h25, h0⟩
    cases o with
    | imm rot imm8 =>
      obtain ⟨rfl, rfl⟩ := (field_12_eq_imm_iff ..).1 h0
      rw [Operand1.encode, field_eq_one_iff] at h25
      simp only [decodeOperand1, h25]
      simp
    | immShift rm ty n =>
      obtain ⟨h7, h5, h4, rfl⟩ := (field_12_eq_shift_iff ..).1 h0
      obtain ⟨hn, hne⟩ := ShiftType.amountOf_ofNat hwf
      rw [Operand1.encode, field_eq_zero_iff] at h25
      rw [field_eq_zero_iff] at h4
      simp only [decodeOperand1, h25, h4, h5, h7, if_neg hne, ShiftType.ofBits_bits, hn]
      simp
    | rrx rm =>
      obtain ⟨h7, h5, h4, rfl⟩ := (field_12_eq_shift_iff ..).1 h0
      rw [Operand1.encode, field_eq_zero_iff] at h25
      rw [field_eq_zero_iff] at h4
      simp only [decodeOperand1, h25, h4, h5, h7]
      simp
    | regShift rm ty rs =>
      obtain ⟨rfl, h7, h5, h4, rfl⟩ := (field_12_eq_regShift_iff ..).1 h0
      rw [Operand1.encode, field_eq_zero_iff] at h25
      rw [field_eq_zero_iff] at h7
      rw [field_eq_one_iff] at h4
      simp only [decodeOperand1, h25, h4, h5, h7, ShiftType.ofBits_bits]
      simp
  · rintro ⟨h, rfl⟩
    unfold decodeOperand1
    split
    · rename_i h25
      exact ⟨rfl, (field_eq_one_iff w 25).2 h25, (field_12_eq_imm_iff ..).2 ⟨rfl, rfl⟩⟩
    · rename_i h25
      replace h25 : w.getLsbD 25 = false := by simpa using h25
      have h25' := (field_eq_zero_iff w 25).2 h25
      split
      · rename_i h4
        have h7 : w.getLsbD 7 = false := by simpa only [h25, h4, true_and, and_true, Bool.not_eq_true] using h
        exact ⟨rfl, h25', (field_12_eq_regShift_iff ..).2
          ⟨rfl, (field_eq_zero_iff w 7).2 h7, (ShiftType.bits_ofBits _).symm, (field_eq_one_iff w 4).2 h4, rfl⟩⟩
      · rename_i h4
        have h4 : field w 4 1 = 0#1 := (field_eq_zero_iff w 4).2 (by simpa using h4)
        split
        · rename_i hx
          exact ⟨rfl, h25', (field_12_eq_shift_iff ..).2 ⟨hx.2, hx.1, h4, rfl⟩⟩
        · rename_i hx
          exact ⟨ShiftType.encodes_fields hx, h25', shift_fields w h4⟩

/-- R83, format LS: the words of stores with a well-formed offset. -/
theorem wellFormed_encodeStore_iff (w : Word) (c : Cond) (p : BitVec 1) (up : Bool) (b wb : BitVec 1) (rn rd : RegNum)
    (o : Offset2) :
    (o.wellFormed = true ∧ encodeStore c p up b wb rn rd o = w) ↔
      field w 28 4 = c.bits ∧ field w 26 2 = 0b01#2 ∧ ¬ (w.getLsbD 25 = true ∧ w.getLsbD 4 = true) ∧
        decodeOffset2 w = o ∧ (field w 24 1 = p ∧ field w 21 1 = wb) ∧ w.getLsbD 23 = up ∧ field w 22 1 = b ∧
        w.getLsbD 20 = false ∧ field w 16 4 = rn ∧ field w 12 4 = rd := by
  have ho := offset2_fields_iff w o
  rw [encodeStore_eq_iff]
  tauto

/-- R83, format DP: the words of data processing with a well-formed operand. -/
theorem wellFormed_encodeDataProcessing_iff (w : Word) (c : Cond) (op : BitVec 4) (sb : BitVec 1) (rn rd : RegNum)
    (o : Operand1) :
    (o.wellFormed = true ∧ encodeDataProcessing c op sb rn rd o = w) ↔
      field w 28 4 = c.bits ∧ field w 26 2 = 0b00#2 ∧
        ¬ (w.getLsbD 25 = false ∧ w.getLsbD 7 = true ∧ w.getLsbD 4 = true) ∧ decodeOperand1 w = o ∧
        field w 21 4 = op ∧ field w 20 1 = sb ∧ field w 16 4 = rn ∧ field w 12 4 = rd := by
  have ho := operand1_fields_iff w o
  rw [encodeDataProcessing_eq_iff]
  tauto

/-- R116: the mode that bits [24:23] name. -/
theorem mode4_fields_iff (w : Word) (m : Mode4) : field w 23 2 = m.pu ↔ decodeMode4 w = m := by
  rw [field_succ w 23 1, field_one, decodeMode4]
  generalize w.getLsbD 24 = p, w.getLsbD 23 = u
  cases m <;> decide +revert

/-- R120 to R123, R129: the form that bits 24, 23 and 21 name. -/
theorem index5_fields_iff (w : Word) (x : Index5) :
    (field w 23 2 = x.puw.1 ∧ field w 21 1 = x.puw.2) ↔ decodeIndex5 w = some x := by
  rw [field_succ w 23 1, field_one, field_one, decodeIndex5]
  generalize w.getLsbD 24 = p, w.getLsbD 23 = u, w.getLsbD 21 = b
  cases x <;> decide +revert

/-! ## The decoder, line by line -/

/-- R88, R90: the words with a condition. -/
theorem ofBits_eq_some_iff (b : BitVec 4) (c : Cond) : Cond.ofBits b = some c ↔ b = c.bits :=
  ⟨fun h => (Cond.bits_of_ofBits h).symm, fun h => by rw [h, Cond.ofBits_bits]⟩

theorem decode_of_cond {c : Cond} {w : Word} (h : field w 28 4 = c.bits) : decode w = decodeConditional c w := by
  simp only [decode, (ofBits_eq_some_iff _ c).2 h]

/-- R86: of bits [27:24], SWI's line looks at all and the others at the upper three. -/
theorem field_24_4_ne {w : Word} (h : field w 25 3 ≠ 0b111#3) : field w 24 4 ≠ 0b1111#4 :=
  fun h' => h (field_of_field h' 1 3 (by decide))

/-- R86: of bits [27:25], the lines of stores and of data processing look at the upper two. -/
theorem field_25_3_ne {w : Word} {v : BitVec 3} (h : field w 26 2 ≠ v.extractLsb' 1 2) : field w 25 3 ≠ v :=
  fun h' => h (field_of_field h' 1 2 (by decide))

section

variable {w : Word} (c : Cond)

theorem decodeConditional_swi (h : field w 24 4 = 0b1111#4) :
    decodeConditional c w = .instr (.swi c (field w 0 24)) := by
  rw [decodeConditional, if_pos h]

theorem decodeConditional_coprocessor (h : field w 25 3 = 0b110#3) :
    decodeConditional c w = decodeCoprocessor (some c) w := by
  rw [decodeConditional, if_neg (field_24_4_ne (by rw [h]; decide)), if_pos h]

theorem decodeConditional_multiple (h : field w 25 3 = 0b100#3) : decodeConditional c w = decodeMultiple c w := by
  rw [decodeConditional, if_neg (field_24_4_ne (by rw [h]; decide)), if_neg (by rw [h]; decide), if_pos h]

theorem decodeConditional_store (h : field w 26 2 = 0b01#2) : decodeConditional c w = decodeStore c w := by
  rw [decodeConditional, if_neg (field_24_4_ne (field_25_3_ne (by rw [h]; decide))),
    if_neg (field_25_3_ne (by rw [h]; decide)), if_neg (field_25_3_ne (by rw [h]; decide)), if_pos h]

theorem decodeConditional_extension (h : field w 25 3 = 0b000#3) (h4 : field w 4 4 = 0b1001#4) :
    decodeConditional c w = decodeExtension c w := by
  have h26 : field w 26 2 = 0b00#2 := field_of_field h 1 2 (by decide)
  rw [decodeConditional, if_neg (field_24_4_ne (by rw [h]; decide)), if_neg (by rw [h]; decide),
    if_neg (by rw [h]; decide), if_neg (by rw [h26]; decide),
    if_pos ⟨h, getLsbD_of_field_eq h4 3 (by decide), getLsbD_of_field_eq h4 0 (by decide)⟩]

theorem decodeConditional_dataProcessing (h : field w 26 2 = 0b00#2)
    (hx : ¬ (w.getLsbD 25 = false ∧ w.getLsbD 7 = true ∧ w.getLsbD 4 = true)) :
    decodeConditional c w = decodeDataProcessing c w := by
  rw [decodeConditional, if_neg (field_24_4_ne (field_25_3_ne (by rw [h]; decide))),
    if_neg (field_25_3_ne (by rw [h]; decide)), if_neg (field_25_3_ne (by rw [h]; decide)),
    if_neg (by rw [h]; decide), if_neg fun ⟨h0, h74⟩ => hx ⟨getLsbD_of_field_eq h0 0 (by decide), h74⟩, if_pos h]

end

/-! ## Decoding what is encoded -/

/-- R86 line 5, R112: the index kinds of STR and STRB, told apart by bit 22. -/
theorem decodeStore_of_index {w : Word} (c : Cond) {x : Index2} (hx : ¬ (w.getLsbD 25 = true ∧ w.getLsbD 4 = true))
    (h20 : w.getLsbD 20 = false) (h24 : field w 24 1 = x.pw.1) (h21 : field w 21 1 = x.pw.2) :
    decodeStore c w = .instr
      (if w.getLsbD 22 then .strb c x (w.getLsbD 23) (field w 16 4) (field w 12 4) (decodeOffset2 w)
      else .str c x (w.getLsbD 23) (field w 16 4) (field w 12 4) (decodeOffset2 w)) := by
  rw [← Bool.and_eq_true, Bool.not_eq_true] at hx
  cases x with
  | offset =>
    rw [Index2.pw, field_eq_one_iff] at h24
    rw [Index2.pw, field_eq_zero_iff] at h21
    simp only [decodeStore, hx, h20, h24, h21]
    cases w.getLsbD 22 <;> rfl
  | preIndexed =>
    rw [Index2.pw, field_eq_one_iff] at h24 h21
    simp only [decodeStore, hx, h20, h24, h21]
    cases w.getLsbD 22 <;> rfl
  | postIndexed =>
    rw [Index2.pw, field_eq_zero_iff] at h24 h21
    simp only [decodeStore, hx, h20, h24, h21]
    cases w.getLsbD 22 <;> rfl

/-- R86 line 5, R112: STRT has the fourth row of index kinds. -/
theorem decodeStore_strt {w : Word} (c : Cond) (hx : ¬ (w.getLsbD 25 = true ∧ w.getLsbD 4 = true))
    (h20 : w.getLsbD 20 = false) (h24 : w.getLsbD 24 = false) (h22 : w.getLsbD 22 = false) (h21 : w.getLsbD 21 = true) :
    decodeStore c w =
      .instr (.strt c (w.getLsbD 23) (field w 16 4) (field w 12 4) (decodeOffset2 w)) := by
  rw [← Bool.and_eq_true, Bool.not_eq_true] at hx
  simp only [decodeStore, hx, h20, h24, h22, h21]
  rfl

/-- R86 line 6: bits [27:20] of SWP and SWPB. -/
theorem field_20_8_eq_swap_iff (w : Word) (b : BitVec 1) :
    field w 20 8 = 0b00010#5 ++ b ++ 0b00#2 ↔
      field w 23 5 = 0b00010#5 ∧ field w 22 1 = b ∧ field w 20 2 = 0b00#2 := by
  have hw : field w 20 8 = field w 23 5 ++ field w 22 1 ++ field w 20 2 := by simp only [field_append]
  rw [hw, append_eq_append_iff, append_eq_append_iff, and_assoc]

/-- R83, R86: the word of a well-formed instruction decodes to it. -/
theorem decode_of_encode {w : Word} {i : Instr} (hwf : WellFormed i = true) (h : encode i = w) :
    decode w = .instr i := by
  cases i with
  | smull c sf hi lo rs rm =>
    obtain ⟨hc, h21, rfl, rfl, rfl, rfl, h4, rfl⟩ := (encodeLongMultiply_eq_iff ..).1 h
    rw [decode_of_cond hc, decodeConditional_extension c (field_of_field h21 4 3 (by decide)) h4, decodeExtension,
      if_pos h4, if_pos h21]
  | umlal c sf hi lo rs rm =>
    obtain ⟨hc, h21, rfl, rfl, rfl, rfl, h4, rfl⟩ := (encodeLongMultiply_eq_iff ..).1 h
    rw [decode_of_cond hc, decodeConditional_extension c (field_of_field h21 4 3 (by decide)) h4, decodeExtension,
      if_pos h4, if_neg (by rw [h21]; decide), if_pos h21]
  | stc c x n rn crd cp off =>
    obtain ⟨hc, h25, hx, rfl, h20, rfl, rfl, rfl, rfl⟩ := (encodeCoprocessor_eq_iff ..).1 h
    simp only [decode_of_cond hc, decodeConditional_coprocessor c h25, decodeCoprocessor, h20,
      (index5_fields_iff w x).1 hx]
    rfl
  | stc2 x n rn crd cp off =>
    obtain ⟨hc, h25, hx, rfl, h20, rfl, rfl, rfl, rfl⟩ := (encodeCoprocessor_eq_iff ..).1 h
    simp only [decode, (Cond.ofBits_eq_none_iff _).2 hc, h25, h20, decodeCoprocessor, (index5_fields_iff w x).1 hx]
    rfl
  | stm1 c m wb rn list =>
    obtain ⟨hc, h25, h23, h22, rfl, h20, rfl, rfl⟩ := (encodeMultiple_eq_iff ..).1 h
    rw [field_eq_zero_iff] at h22
    simp only [decode_of_cond hc, decodeConditional_multiple c h25, decodeMultiple, h20, h22,
      (mode4_fields_iff w m).1 h23]
    rfl
  | stm2 c m wb rn list =>
    obtain ⟨hc, h25, h23, h22, rfl, h20, rfl, rfl⟩ := (encodeMultiple_eq_iff ..).1 h
    rw [field_eq_one_iff] at h22
    simp only [decode_of_cond hc, decodeConditional_multiple c h25, decodeMultiple, h20, h22,
      (mode4_fields_iff w m).1 h23]
    rfl
  | str c x up rn rd o =>
    obtain ⟨hc, h26, hne, rfl, ⟨h24, h21⟩, rfl, h22, h20, rfl, rfl⟩ := (wellFormed_encodeStore_iff ..).1 ⟨hwf, h⟩
    rw [decode_of_cond hc, decodeConditional_store c h26, decodeStore_of_index c hne h20 h24 h21,
      (field_eq_zero_iff w 22).1 h22]
    rfl
  | strb c x up rn rd o =>
    obtain ⟨hc, h26, hne, rfl, ⟨h24, h21⟩, rfl, h22, h20, rfl, rfl⟩ := (wellFormed_encodeStore_iff ..).1 ⟨hwf, h⟩
    rw [decode_of_cond hc, decodeConditional_store c h26, decodeStore_of_index c hne h20 h24 h21,
      (field_eq_one_iff w 22).1 h22]
    rfl
  | strt c up rn rd o =>
    obtain ⟨hc, h26, hne, rfl, ⟨h24, h21⟩, rfl, h22, h20, rfl, rfl⟩ := (wellFormed_encodeStore_iff ..).1 ⟨hwf, h⟩
    rw [field_eq_zero_iff] at h24 h22
    rw [field_eq_one_iff] at h21
    rw [decode_of_cond hc, decodeConditional_store c h26, decodeStore_strt c hne h20 h24 h22 h21]
  | sub c sf rn rd o =>
    obtain ⟨hc, h26, hne, rfl, h21, h20, rfl, rfl⟩ := (wellFormed_encodeDataProcessing_iff ..).1 ⟨hwf, h⟩
    rw [decode_of_cond hc, decodeConditional_dataProcessing c h26 hne, decodeDataProcessing, if_pos h21,
      (field_eq_bit_iff w 20 sf).1 h20]
  | swi c n =>
    obtain ⟨hc, h24, rfl⟩ := (encodeSwi_eq_iff ..).1 h
    rw [decode_of_cond hc, decodeConditional_swi c h24]
  | swp c rn rd sbz rm =>
    obtain ⟨hc, h23, h22, h20, rfl, rfl, rfl, h4, rfl⟩ := (encodeSwap_eq_iff ..).1 h
    have h20' : field w 20 8 = 0b00010000#8 := (field_20_8_eq_swap_iff w _).2 ⟨h23, h22, h20⟩
    have h21 : field w 21 7 = _ := field_of_field h20' 1 7 (by decide)
    rw [decode_of_cond hc, decodeConditional_extension c (field_of_field h23 2 3 (by decide)) h4, decodeExtension,
      if_pos h4, if_neg (by rw [h21]; decide), if_neg (by rw [h21]; decide), if_pos h20']
  | swpb c rn rd sbz rm =>
    obtain ⟨hc, h23, h22, h20, rfl, rfl, rfl, h4, rfl⟩ := (encodeSwap_eq_iff ..).1 h
    have h20' : field w 20 8 = 0b00010100#8 := (field_20_8_eq_swap_iff w _).2 ⟨h23, h22, h20⟩
    have h21 : field w 21 7 = _ := field_of_field h20' 1 7 (by decide)
    rw [decode_of_cond hc, decodeConditional_extension c (field_of_field h23 2 3 (by decide)) h4, decodeExtension,
      if_pos h4, if_neg (by rw [h21]; decide), if_neg (by rw [h21]; decide), if_neg (by rw [h20']; decide), if_pos h20']
  | teq c rn sbz o =>
    obtain ⟨hc, h26, hne, rfl, h21, h20, rfl, rfl⟩ := (wellFormed_encodeDataProcessing_iff ..).1 ⟨hwf, h⟩
    rw [field_eq_one_iff] at h20
    rw [decode_of_cond hc, decodeConditional_dataProcessing c h26 hne, decodeDataProcessing,
      if_neg (by rw [h21]; decide), if_neg (by rw [h21]; exact fun h => absurd h.1 (by decide)), if_pos ⟨h21, h20⟩]
  | tst c rn sbz o =>
    obtain ⟨hc, h26, hne, rfl, h21, h20, rfl, rfl⟩ := (wellFormed_encodeDataProcessing_iff ..).1 ⟨hwf, h⟩
    rw [field_eq_one_iff] at h20
    rw [decode_of_cond hc, decodeConditional_dataProcessing c h26 hne, decodeDataProcessing,
      if_neg (by rw [h21]; decide), if_pos ⟨h21, h20⟩]

/-! ## Encoding what is decoded -/

theorem encode_of_decodeCoprocessor {w : Word} {i : Instr} {cond : Option Cond}
    (hc : Cond.ofBits (field w 28 4) = cond) (h25 : field w 25 3 = 0b110#3)
    (h : decodeCoprocessor cond w = .instr i) : WellFormed i = true ∧ encode i = w := by
  unfold decodeCoprocessor at h
  split at h
  · cases h
  · rename_i h20
    rw [Bool.not_eq_true] at h20
    have henc (b x) (hb : field w 28 4 = b) (hx : decodeIndex5 w = some x) :=
      (encodeCoprocessor_eq_iff w b x _ _ _ _ _).2
        ⟨hb, h25, (index5_fields_iff w x).2 hx, rfl, h20, rfl, rfl, rfl, rfl⟩
    split at h
    · cases h
    · rename_i x c hx
      cases h
      exact ⟨rfl, henc _ x ((ofBits_eq_some_iff _ c).1 hc) hx⟩
    · rename_i x hx
      cases h
      exact ⟨rfl, henc _ x ((Cond.ofBits_eq_none_iff _).1 hc) hx⟩

section

variable {w : Word} {i : Instr} {c : Cond} (hc : field w 28 4 = c.bits)

include hc

theorem encode_of_decodeMultiple (h25 : field w 25 3 = 0b100#3) (h : decodeMultiple c w = .instr i) :
    WellFormed i = true ∧ encode i = w := by
  have h23 := (mode4_fields_iff w _).2 rfl
  unfold decodeMultiple at h
  split at h
  · cases h
  · rename_i h20
    rw [Bool.not_eq_true] at h20
    split at h
    · rename_i h22
      cases h
      exact ⟨rfl, (encodeMultiple_eq_iff ..).2 ⟨hc, h25, h23, (field_eq_one_iff ..).2 h22, rfl, h20, rfl, rfl⟩⟩
    · rename_i h22
      rw [Bool.not_eq_true] at h22
      cases h
      exact ⟨rfl, (encodeMultiple_eq_iff ..).2 ⟨hc, h25, h23, (field_eq_zero_iff ..).2 h22, rfl, h20, rfl, rfl⟩⟩

theorem encode_of_decodeStore (h26 : field w 26 2 = 0b01#2) (h : decodeStore c w = .instr i) :
    WellFormed i = true ∧ encode i = w := by
  unfold decodeStore at h
  split at h
  · cases h
  · rename_i hx
    rw [Bool.and_eq_true] at hx
    split at h
    · cases h
    · rename_i h20
      rw [Bool.not_eq_true] at h20
      have henc (p b wb) (h24 : bit (w.getLsbD 24) = p) (h21 : bit (w.getLsbD 21) = wb)
          (h22 : bit (w.getLsbD 22) = b) :=
        (wellFormed_encodeStore_iff w c p _ b wb _ _ _).2
          ⟨hc, h26, hx, rfl, ⟨field_one w 24 ▸ h24, field_one w 21 ▸ h21⟩, rfl, field_one w 22 ▸ h22, h20, rfl, rfl⟩
      split at h <;> cases h
      all_goals
        rename_i h24 h21 h22
        exact henc _ _ _ (by rw [h24]; rfl) (by rw [h21]; rfl) (by rw [h22]; rfl)

theorem encode_of_decodeExtension (h : decodeExtension c w = .instr i) :
    WellFormed i = true ∧ encode i = w := by
  unfold decodeExtension at h
  split at h
  case isFalse => cases h
  rename_i h4
  have hmul (op) (h21 : field w 21 7 = op) :=
    (encodeLongMultiply_eq_iff c w op _ _ _ _ _).2 ⟨hc, h21, rfl, rfl, rfl, rfl, h4, rfl⟩
  have hswap (b : BitVec 1) (h20 : field w 20 8 = 0b00010#5 ++ b ++ 0b00#2) :=
    have ⟨h23, hb, h20⟩ := (field_20_8_eq_swap_iff w b).1 h20
    (encodeSwap_eq_iff c w b _ _ _ _).2 ⟨hc, h23, hb, h20, rfl, rfl, rfl, h4, rfl⟩
  split at h
  · rename_i h21
    cases h
    exact ⟨rfl, hmul _ h21⟩
  split at h
  · rename_i h21
    cases h
    exact ⟨rfl, hmul _ h21⟩
  split at h
  · rename_i h20
    cases h
    exact ⟨rfl, hswap 0#1 h20⟩
  split at h
  · rename_i h20
    cases h
    exact ⟨rfl, hswap 1#1 h20⟩
  · cases h

theorem encode_of_decodeDataProcessing (h26 : field w 26 2 = 0b00#2)
    (hx : ¬ (w.getLsbD 25 = false ∧ w.getLsbD 7 = true ∧ w.getLsbD 4 = true))
    (h : decodeDataProcessing c w = .instr i) : WellFormed i = true ∧ encode i = w := by
  have henc (op sb) (h21 : field w 21 4 = op) (h20 : field w 20 1 = sb) :=
    (wellFormed_encodeDataProcessing_iff w c op sb _ _ _).2 ⟨hc, h26, hx, rfl, h21, h20, rfl, rfl⟩
  unfold decodeDataProcessing at h
  split at h
  · rename_i h21
    cases h
    exact henc _ _ h21 (field_one w 20)
  split at h
  · rename_i h21
    cases h
    exact henc _ _ h21.1 ((field_eq_one_iff w 20).2 h21.2)
  split at h
  · rename_i h21
    cases h
    exact henc _ _ h21.1 ((field_eq_one_iff w 20).2 h21.2)
  · cases h

theorem encode_of_decodeConditional (h : decodeConditional c w = .instr i) : WellFormed i = true ∧ encode i = w := by
  unfold decodeConditional at h
  split at h
  · rename_i h24
    cases h
    exact ⟨rfl, (encodeSwi_eq_iff ..).2 ⟨hc, h24, rfl⟩⟩
  split at h
  · rename_i h25
    exact encode_of_decodeCoprocessor ((ofBits_eq_some_iff ..).2 hc) h25 h
  split at h
  · rename_i h25
    exact encode_of_decodeMultiple hc h25 h
  split at h
  · rename_i h26
    exact encode_of_decodeStore hc h26 h
  split at h
  · exact encode_of_decodeExtension hc h
  rename_i hx
  split at h
  · rename_i h26
    have hx' : ¬ (w.getLsbD 25 = false ∧ w.getLsbD 7 = true ∧ w.getLsbD 4 = true) := by
      rintro ⟨h25, h74⟩
      exact hx ⟨by rw [field_succ w 25 2, h26, h25]; rfl, h74⟩
    exact encode_of_decodeDataProcessing hc h26 hx' h
  · cases h

end

/-- R83, R86: a word decodes to an instruction exactly where it is the word of that instruction. -/
theorem decode_eq_instr_iff (w : Word) (i : Instr) : decode w = .instr i ↔ WellFormed i = true ∧ encode i = w := by
  refine ⟨fun h => ?_, fun ⟨hwf, h⟩ => decode_of_encode hwf h⟩
  unfold decode at h
  split at h
  · rename_i c hc
    exact encode_of_decodeConditional ((ofBits_eq_some_iff ..).1 hc) h
  · rename_i hc
    split at h
    · rename_i h25
      exact encode_of_decodeCoprocessor hc h25.1 h
    · cases h

/-! ## Masks -/

/-- R86: a field of an encoding that has one value: its lowest bit, its width and the value. -/
structure FixedField where
  lo : Nat
  width : Nat
  value : BitVec width

/-- Bit `i` of a word lies in the field. -/
def FixedField.covers (f : FixedField) (i : Nat) : Bool := decide (f.lo ≤ i) && decide (i < f.lo + f.width)

/-- R86: a mask and a match stand for these fields: the fields cover the bits of the mask, and the match holds their
values and nothing outside the mask. -/
def standFor (m v : Word) (fields : List FixedField) : Bool :=
  (List.range 32).all (fun i => m.getLsbD i == fields.any fun f => f.covers i) &&
    fields.all (fun f => field v f.lo f.width == f.value) && v &&& m == v

/-- R86: a word matches under a mask exactly where its fields under the mask have their values. -/
theorem and_eq_iff_fields (fields : List FixedField) {w m v : Word} (h : standFor m v fields = true) :
    w &&& m = v ↔ ∀ f ∈ fields, field w f.lo f.width = f.value := by
  simp only [standFor, Bool.and_eq_true, List.all_eq_true, List.mem_range, beq_iff_eq] at h
  obtain ⟨⟨hm, hf⟩, hv⟩ := h
  constructor
  · rintro rfl f hfm
    rw [← hf f hfm, field_eq_iff]
    intro i hi
    simp only [field, BitVec.getLsbD_extractLsb', hi, decide_true, Bool.true_and, BitVec.getLsbD_and]
    by_cases h32 : f.lo + i < 32
    · have : m.getLsbD (f.lo + i) = true := by
        rw [hm _ h32, List.any_eq_true]
        exact ⟨f, hfm, by simp [FixedField.covers, hi]⟩
      rw [this, Bool.and_true]
    · rw [BitVec.getLsbD_of_ge w _ (by omega), Bool.false_and]
  · intro h
    rw [← hv]
    refine BitVec.eq_of_getLsbD_eq fun i hi => ?_
    rw [BitVec.getLsbD_and, BitVec.getLsbD_and, hm i hi]
    by_cases hc : (fields.any fun f => f.covers i) = true
    · obtain ⟨f, hfm, hfi⟩ := List.any_eq_true.1 hc
      simp only [FixedField.covers, Bool.and_eq_true, decide_eq_true_eq] at hfi
      obtain ⟨k, rfl⟩ := Nat.exists_eq_add_of_le hfi.1
      have hk : k < f.width := by omega
      rw [getLsbD_of_field_eq (h f hfm) k hk, getLsbD_of_field_eq (hf f hfm) k hk]
    · rw [Bool.not_eq_true] at hc
      rw [hc, Bool.and_false, Bool.and_false]

/-! The exclusions of R86, each shared by several rows. -/

/-- R129: no form of addressing mode 5. -/
theorem and_eq_noIndex5_iff (w : Word) : w &&& 0x01A00000#32 = 0#32 ↔ field w 23 2 = 0b00#2 ∧ field w 21 1 = 0#1 := by
  rw [and_eq_iff_fields [⟨23, 2, 0b00#2⟩, ⟨21, 1, 0#1⟩] (by decide)]
  simp

/-- R112: the bits P and W of STRT. -/
theorem and_eq_strtIndex_iff (w : Word) :
    w &&& 0x01200000#32 = 0x00200000#32 ↔ field w 24 1 = 0#1 ∧ field w 21 1 = 1#1 := by
  rw [and_eq_iff_fields [⟨24, 1, 0#1⟩, ⟨21, 1, 1#1⟩] (by decide)]
  simp

/-- R128: no offset of addressing mode 2. -/
theorem and_eq_noOffset2_iff (w : Word) :
    w &&& 0x02000010#32 = 0x02000010#32 ↔ w.getLsbD 25 = true ∧ w.getLsbD 4 = true := by
  rw [and_eq_iff_fields [⟨25, 1, 1#1⟩, ⟨4, 1, 1#1⟩] (by decide), ← field_eq_one_iff, ← field_eq_one_iff]
  simp

/-- R126: no shifter operand. -/
theorem and_eq_noOperand1_iff (w : Word) :
    w &&& 0x02000090#32 = 0x00000090#32 ↔ w.getLsbD 25 = false ∧ w.getLsbD 7 = true ∧ w.getLsbD 4 = true := by
  rw [and_eq_iff_fields [⟨25, 1, 0#1⟩, ⟨7, 1, 1#1⟩, ⟨4, 1, 1#1⟩] (by decide), ← field_eq_zero_iff, ← field_eq_one_iff,
    ← field_eq_one_iff]
  simp

/-- R88, R90: four bits name a condition unless they are 0b1111. -/
theorem exists_cond_bits_iff (b : BitVec 4) : (∃ c : Cond, b = c.bits) ↔ b ≠ 15#4 := by
  rw [Ne, ← Cond.ofBits_eq_none_iff, ← Ne, Option.ne_none_iff_exists']
  simp only [ofBits_eq_some_iff]

/-- R129: bits 24, 23 and 21 name a form of addressing mode 5 unless all are 0. -/
theorem exists_index5_puw_iff (p : BitVec 2) (b : BitVec 1) :
    (∃ x : Index5, p = x.puw.1 ∧ b = x.puw.2) ↔ ¬ (p = 0#2 ∧ b = 0#1) := by
  constructor
  · rintro ⟨x, rfl, rfl⟩
    cases x <;> decide +revert
  · intro h
    have hall : ∀ p b, ¬ (p = 0#2 ∧ b = 0#1) → ∃ x ∈ [Index5.offset false, .offset true, .preIndexed false,
        .preIndexed true, .postIndexed false, .postIndexed true, .unindexed], p = x.puw.1 ∧ b = x.puw.2 := by
      decide
    obtain ⟨x, _, hx⟩ := hall p b h
    exact ⟨x, hx⟩

/-- R112: bits 24 and 21 name an index kind of STR and STRB unless they are those of STRT. -/
theorem exists_index2_pw_iff (p b : BitVec 1) :
    (∃ x : Index2, p = x.pw.1 ∧ b = x.pw.2) ↔ ¬ (p = 0#1 ∧ b = 1#1) := by
  constructor
  · rintro ⟨x, rfl, rfl⟩
    cases x <;> decide
  · intro h
    have hall : ∀ p b, ¬ (p = 0#1 ∧ b = 1#1) →
        ∃ x ∈ [Index2.offset, .preIndexed, .postIndexed], p = x.pw.1 ∧ b = x.pw.2 := by
      decide
    obtain ⟨x, _, hx⟩ := hall p b h
    exact ⟨x, hx⟩

/-- R116: any two bits name a mode of addressing mode 4. -/
theorem exists_mode4_pu (b : BitVec 2) : ∃ m : Mode4, b = m.pu := by
  have hall : ∀ b, ∃ m ∈ [Mode4.ia, .ib, .da, .db], b = m.pu := by decide
  obtain ⟨m, _, hm⟩ := hall b
  exact ⟨m, hm⟩

end Sys2Proof

namespace Sys2Proof.Proofs

/-- Settles O2: one direction of the round trip. -/
theorem decodeOfEncode : Obligations.DecodeOfEncode :=
  fun i hwf => (decode_eq_instr_iff _ i).2 ⟨hwf, rfl⟩

/-- Settles O3: the other direction of the round trip. -/
theorem encodeOfDecode : Obligations.EncodeOfDecode :=
  fun w i h => (decode_eq_instr_iff w i).1 h

/-- Settles O4: a word decodes to an instruction where it is the word of one, which its fields say; and the match and
mask of each row say what the fixed fields are. -/
theorem decodeFollowsMasks : Obligations.DecodeFollowsMasks := by
  intro w
  simp only [decode_eq_instr_iff, WellFormed, encode, encodeLongMultiply_eq_iff, encodeCoprocessor_eq_iff,
    encodeMultiple_eq_iff, wellFormed_encodeStore_iff, wellFormed_encodeDataProcessing_iff, encodeSwi_eq_iff,
    encodeSwap_eq_iff, exists_and_left, exists_and_right, exists_eq', and_true, true_and, exists_cond_bits_iff,
    exists_index5_puw_iff, exists_index2_pw_iff, exists_mode4_pu, field_eq_bit_iff]
  simp only [Ne, and_eq_noIndex5_iff, and_eq_strtIndex_iff, and_eq_noOffset2_iff, and_eq_noOperand1_iff,
    ← field_eq_zero_iff w 20]
  rw [
    and_eq_iff_fields [⟨21, 7, 0b0000110#7⟩, ⟨4, 4, 0b1001#4⟩] (by decide),
    and_eq_iff_fields [⟨21, 7, 0b0000101#7⟩, ⟨4, 4, 0b1001#4⟩] (by decide),
    and_eq_iff_fields [⟨25, 3, 0b110#3⟩, ⟨20, 1, 0#1⟩] (by decide),
    and_eq_iff_fields [⟨28, 4, 0b1111#4⟩, ⟨25, 3, 0b110#3⟩, ⟨20, 1, 0#1⟩] (by decide),
    and_eq_iff_fields [⟨25, 3, 0b100#3⟩, ⟨22, 1, 0#1⟩, ⟨20, 1, 0#1⟩] (by decide),
    and_eq_iff_fields [⟨25, 3, 0b100#3⟩, ⟨22, 1, 1#1⟩, ⟨20, 1, 0#1⟩] (by decide),
    and_eq_iff_fields [⟨26, 2, 0b01#2⟩, ⟨22, 1, 0#1⟩, ⟨20, 1, 0#1⟩] (by decide),
    and_eq_iff_fields [⟨26, 2, 0b01#2⟩, ⟨22, 1, 1#1⟩, ⟨20, 1, 0#1⟩] (by decide),
    and_eq_iff_fields [⟨26, 2, 0b01#2⟩, ⟨24, 1, 0#1⟩, ⟨22, 1, 0#1⟩, ⟨21, 1, 1#1⟩, ⟨20, 1, 0#1⟩] (by decide),
    and_eq_iff_fields [⟨26, 2, 0b00#2⟩, ⟨21, 4, 0b0010#4⟩] (by decide),
    and_eq_iff_fields [⟨24, 4, 0b1111#4⟩] (by decide),
    and_eq_iff_fields [⟨23, 5, 0b00010#5⟩, ⟨22, 1, 0#1⟩, ⟨20, 2, 0b00#2⟩, ⟨4, 4, 0b1001#4⟩] (by decide),
    and_eq_iff_fields [⟨23, 5, 0b00010#5⟩, ⟨22, 1, 1#1⟩, ⟨20, 2, 0b00#2⟩, ⟨4, 4, 0b1001#4⟩] (by decide),
    and_eq_iff_fields [⟨26, 2, 0b00#2⟩, ⟨21, 4, 0b1001#4⟩, ⟨20, 1, 1#1⟩] (by decide),
    and_eq_iff_fields [⟨26, 2, 0b00#2⟩, ⟨21, 4, 0b1000#4⟩, ⟨20, 1, 1#1⟩] (by decide)]
  simp only [List.forall_mem_cons]
  refine ⟨?_, ?_, ?_, ?_, ?_, ?_, ?_, ?_, ?_, ?_, ?_, ?_, ?_, ?_, ?_⟩ <;> tauto

end Sys2Proof.Proofs
end

section
/-!
PROOFS. The statements on operand forms (spec/30_encoding.md R95 to R123): the values and carries of addressing mode 1,
and the addresses and written-back values of addressing modes 2, 4 and 5.
-/

namespace Sys2Proof.Machine

/-! ## The shifter, by amount (R98 to R105) -/

section

variable (v : Word) (c : Bool) {n : Nat}

@[simp] theorem shiftWithCarry_zero (ty : ShiftType) : shiftWithCarry ty v 0 c = (v, c) := by cases ty <;> rfl

theorem shiftWithCarry_lsl (h0 : 0 < n) (h32 : n < 32) :
    (shiftWithCarry .lsl v n c).1.toNat = v.toNat * 2 ^ n % 2 ^ 32 ∧
      (shiftWithCarry .lsl v n c).2 = v.getLsbD (32 - n) := by
  rw [shiftWithCarry, if_neg (by omega), if_pos h32]
  exact ⟨by rw [BitVec.toNat_shiftLeft, Nat.shiftLeft_eq], rfl⟩

theorem shiftWithCarry_lsl_beyond (h : 32 < n) : shiftWithCarry .lsl v n c = (0#32, false) := by
  rw [shiftWithCarry, if_neg (by omega), if_neg (by omega), if_neg (by omega)]

theorem shiftWithCarry_lsr (h0 : 0 < n) (h32 : n < 32) :
    (shiftWithCarry .lsr v n c).1.toNat = v.toNat / 2 ^ n ∧ (shiftWithCarry .lsr v n c).2 = v.getLsbD (n - 1) := by
  rw [shiftWithCarry, if_neg (by omega), if_pos h32]
  exact ⟨by rw [BitVec.toNat_ushiftRight, Nat.shiftRight_eq_div_pow], rfl⟩

theorem shiftWithCarry_lsr_beyond (h : 32 < n) : shiftWithCarry .lsr v n c = (0#32, false) := by
  rw [shiftWithCarry, if_neg (by omega), if_neg (by omega), if_neg (by omega)]

theorem shiftWithCarry_asr (h0 : 0 < n) (h32 : n < 32) :
    (shiftWithCarry .asr v n c).1.toInt = v.toInt / 2 ^ n ∧ (shiftWithCarry .asr v n c).2 = v.getLsbD (n - 1) := by
  rw [shiftWithCarry, if_neg (by omega), if_pos h32]
  exact ⟨by rw [BitVec.toInt_sshiftRight, Int.shiftRight_eq_div_pow]; rfl, rfl⟩

theorem shiftWithCarry_asr_signs (h : 32 ≤ n) :
    shiftWithCarry .asr v n c = (if v.getLsbD 31 then 0xFFFFFFFF#32 else 0#32, v.getLsbD 31) := by
  rw [shiftWithCarry, if_neg (by omega), if_neg (by omega)]

theorem shiftWithCarry_ror_whole (h0 : 0 < n) (h : n % 32 = 0) : shiftWithCarry .ror v n c = (v, v.getLsbD 31) := by
  rw [shiftWithCarry, if_neg (by omega), if_pos h]

/-- Bits of a word rotated right. -/
theorem getLsbD_rotateRight_word (n : Nat) {i : Nat} (hi : i < 32) :
    (v.rotateRight n).getLsbD i = v.getLsbD ((i + n) % 32) := by
  rw [BitVec.getLsbD_rotateRight]
  by_cases h : i < 32 - n % 32
  · rw [decide_eq_true h, cond_true]
    congr 1; omega
  · rw [decide_eq_false h, cond_false, decide_eq_true hi, Bool.true_and]
    congr 1; omega

theorem shiftWithCarry_ror (h : 0 < n % 32) :
    (∀ i < 32, (shiftWithCarry .ror v n c).1.getLsbD i = v.getLsbD ((i + n % 32) % 32)) ∧
      (shiftWithCarry .ror v n c).2 = v.getLsbD (n % 32 - 1) := by
  rw [shiftWithCarry, if_neg (by rintro rfl; simp at h), if_neg (by omega)]
  exact ⟨fun i hi => getLsbD_rotateRight_word v _ hi, rfl⟩

theorem shiftWithCarry_ror_lt (h0 : 0 < n) (h32 : n < 32) :
    (∀ i < 32, (shiftWithCarry .ror v n c).1.getLsbD i = v.getLsbD ((i + n) % 32)) ∧
      (shiftWithCarry .ror v n c).2 = v.getLsbD (n - 1) := by
  have h := shiftWithCarry_ror v c (n := n)
  rw [Nat.mod_eq_of_lt h32] at h
  exact h h0

/-- R107: RRX moves the C flag in at the top. -/
theorem rotateWithExtend_toNat : (rotateWithExtend v c).1.toNat = (if c then 2 ^ 31 else 0) + v.toNat / 2 := by
  simp only [rotateWithExtend, BitVec.toNat_cast, toNat_append_eq_add, BitVec.extractLsb'_toNat]
  have := v.isLt
  cases c <;> simp <;> omega

end

/-! ## Shifts by an immediate -/

theorem toNat_eq_zero_iff {m : Nat} (k : BitVec m) : k.toNat = 0 ↔ k = 0#m := by
  rw [← BitVec.toNat_inj, BitVec.toNat_ofNat, Nat.zero_mod]

theorem toNat_pos_of_ne_zero {m : Nat} {k : BitVec m} (h : k ≠ 0#m) : 0 < k.toNat :=
  Nat.pos_of_ne_zero fun h0 => h ((toNat_eq_zero_iff k).1 h0)

/-- R97 to R107, R111: a value shifted as the fields of a word (bits [6:5] and [11:7]) say, with the carry. -/
def shiftedByFields (ty : BitVec 2) (k : BitVec 5) (v : Word) (c : Bool) : Word × Bool :=
  if ty = 0b11#2 ∧ k = 0#5 then rotateWithExtend v c
  else shiftWithCarry (.ofBits ty) v ((ShiftType.ofBits ty).amountOf k) c

/-- R100, R102: the operand that a word with a shift by an immediate other than RRX holds. -/
theorem decodeOperand1_of_immShift {w : Word} (h25 : w.getLsbD 25 = false) (h4 : w.getLsbD 4 = false)
    (h5 : field w 5 2 ≠ 0b11#2) :
    decodeOperand1 w = .immShift (field w 0 4) (.ofBits (field w 5 2))
      ((ShiftType.ofBits (field w 5 2)).amountOf (field w 7 5)) := by
  simp only [decodeOperand1, h25, h4, h5, Bool.false_eq_true, if_false, false_and]

theorem State.shifterOperand_of_immShift (s : State) {w : Word} (h25 : w.getLsbD 25 = false)
    (h4 : w.getLsbD 4 = false) :
    s.shifterOperand (decodeOperand1 w) =
      shiftedByFields (field w 5 2) (field w 7 5) (s.opnd (field w 0 4)) (psrC s.cpsr) := by
  rw [decodeOperand1, h25, h4, shiftedByFields]
  split
  · simp at *
  split <;> rfl

/-- R106: of Rs the low byte counts. -/
theorem State.shifterOperand_of_regShift (s : State) {w : Word} (h25 : w.getLsbD 25 = false) (h4 : w.getLsbD 4 = true) :
    s.shifterOperand (decodeOperand1 w) =
      shiftWithCarry (.ofBits (field w 5 2)) (s.reg (field w 0 4)) ((s.reg (field w 8 4)).toNat % 256)
        (psrC s.cpsr) := by
  have hdec : decodeOperand1 w = .regShift (field w 0 4) (.ofBits (field w 5 2)) (field w 8 4) := by
    simp only [decodeOperand1, h25, h4, Bool.false_eq_true, if_false, if_true]
  rw [hdec, State.shifterOperand, BitVec.extractLsb'_toNat, Nat.shiftRight_zero]

theorem State.offset2_of_scaled (s : State) {w : Word} (h25 : w.getLsbD 25 = true) :
    s.offset2 (decodeOffset2 w) =
      (shiftedByFields (field w 5 2) (field w 7 5) (s.reg (field w 0 4)) (psrC s.cpsr)).1 := by
  rw [decodeOffset2, h25, shiftedByFields]
  simp only [Bool.not_true, Bool.false_eq_true, if_false]
  split <;> rfl

theorem State.offset2_of_imm (s : State) {w : Word} (h25 : w.getLsbD 25 = false) :
    (s.offset2 (decodeOffset2 w)).toNat = (field w 0 12).toNat := by
  have hdec : decodeOffset2 w = .imm (field w 0 12) := by simp only [decodeOffset2, h25, Bool.not_false, if_true]
  rw [hdec, State.offset2, BitVec.toNat_setWidth]
  have := (field w 0 12).isLt
  omega

section

variable (v : Word) (c : Bool)

/-- R98 to R104: a shift_imm other than 0 is the amount. -/
theorem shiftedByFields_of_ne_zero (ty : BitVec 2) {k : BitVec 5} (h : k ≠ 0#5) :
    shiftedByFields ty k v c = shiftWithCarry (.ofBits ty) v k.toNat c := by
  have hk : (ShiftType.ofBits ty).amountOf k = k.toNat := by
    cases ShiftType.ofBits ty <;> simp [ShiftType.amountOf, h]
  rw [shiftedByFields, if_neg fun ⟨_, h0⟩ => h h0, hk]

theorem shiftedByFields_lsl_zero : shiftedByFields 0b00#2 0#5 v c = (v, c) := rfl

theorem shiftedByFields_lsr_zero : shiftedByFields 0b01#2 0#5 v c = (0#32, v.getLsbD 31) := rfl

theorem shiftedByFields_asr_zero :
    shiftedByFields 0b10#2 0#5 v c = (if v.getLsbD 31 then 0xFFFFFFFF#32 else 0#32, v.getLsbD 31) := rfl

theorem shiftedByFields_asr_zero_toInt :
    (shiftedByFields 0b10#2 0#5 v c).1.toInt = if v.msb then -1 else 0 := by
  rw [shiftedByFields_asr_zero, BitVec.msb_eq_getLsbD_last]
  cases v.getLsbD (32 - 1) <;> rfl

theorem shiftedByFields_ror_zero : shiftedByFields 0b11#2 0#5 v c = rotateWithExtend v c := rfl

/-- R98: shift_imm 0 is no exception for LSL's value. -/
theorem shiftedByFields_lsl_toNat (k : BitVec 5) :
    (shiftedByFields 0b00#2 k v c).1.toNat = v.toNat * 2 ^ k.toNat % 2 ^ 32 := by
  by_cases h : k = 0#5
  · subst h
    rw [shiftedByFields_lsl_zero]
    have := v.isLt
    simp; omega
  · rw [shiftedByFields_of_ne_zero v c _ h]
    exact (shiftWithCarry_lsl v c (toNat_pos_of_ne_zero h) k.isLt).1

end

/-- The immediate operand (R96), bit by bit. -/
theorem getLsbD_rotatedImmediate (rot : BitVec 4) (imm : BitVec 8) (c : Bool) {i : Nat} (hi : i < 32) :
    (rotatedImmediate rot imm c).1.getLsbD i = imm.getLsbD ((i + 2 * rot.toNat) % 32) := by
  rw [rotatedImmediate, getLsbD_rotateRight_word _ _ hi, BitVec.getLsbD_setWidth,
    decide_eq_true (Nat.mod_lt _ (by decide)), Bool.true_and]

/-! ## Addresses -/

/-- R112, R119: a base moved up or down, as numbers. -/
theorem moveBase_eq_iff (up : Bool) (base offset idx : Word) :
    moveBase up base offset = idx ↔
      idx.toNat = (if up then base.toNat + offset.toNat else 2 ^ 32 + base.toNat - offset.toNat) % 2 ^ 32 := by
  have ho := offset.isLt
  rw [← BitVec.toNat_inj, moveBase]
  cases up <;> simp [BitVec.toNat_sub, BitVec.toNat_add] <;> omega

/-- R119, R87: the offset of addressing mode 5 is four times its field. -/
theorem offset5_toNat (off : BitVec 8) : (offset5 off).toNat = 4 * off.toNat := by
  have := off.isLt
  simp [offset5, BitVec.toNat_mul]
  omega

/-- R115: the registers of a list are as many as its bits. -/
theorem length_listRegs (list : BitVec 16) : (listRegs list).length = listCount list := by
  simp [listRegs, listCount, listRank]

theorem listBytes_eq (list : BitVec 16) : listBytes list = 4#32 * BitVec.ofNat 32 (listCount list) := by
  rw [listBytes, length_listRegs, BitVec.ofNat_mul]

end Sys2Proof.Machine

namespace Sys2Proof.Proofs

open Sys2Proof.Machine

/-- Settles O16: with shift_imm other than 0 the operand is Rm shifted by it, and with 0 it is the exception of each
shift type. -/
theorem shiftByImmediate : Obligations.ShiftByImmediate := by
  rintro s w v n c r h25 h4 rfl rfl rfl rfl
  have hdec := decodeOperand1_of_immShift h25 h4
  rw [s.shifterOperand_of_immShift h25 h4]
  simp only [toNat_eq_zero_iff, Ne]
  have hlt : (field w 7 5).toNat < 32 := (field w 7 5).isLt
  refine ⟨fun h5 => ?lsl, fun h5 => ?lsr, fun h5 => ?asr, fun h5 => ?ror⟩ <;> rw [h5] <;> rw [h5] at hdec
  case lsl =>
    refine ⟨fun h0 => ?_, fun h0 => ?_⟩
    · rw [h0, shiftedByFields_lsl_zero]
    · rw [shiftedByFields_of_ne_zero _ _ _ h0]
      exact shiftWithCarry_lsl _ _ (toNat_pos_of_ne_zero h0) hlt
  case lsr =>
    refine ⟨hdec (by decide), fun h0 => ?_, fun h0 => ?_⟩
    · rw [h0, shiftedByFields_lsr_zero]
    · rw [shiftedByFields_of_ne_zero _ _ _ h0]
      exact shiftWithCarry_lsr _ _ (toNat_pos_of_ne_zero h0) hlt
  case asr =>
    refine ⟨hdec (by decide), fun h0 => ?_, fun h0 => ?_⟩
    · rw [h0, shiftedByFields_asr_zero]
    · rw [shiftedByFields_of_ne_zero _ _ _ h0]
      exact shiftWithCarry_asr _ _ (toNat_pos_of_ne_zero h0) hlt
  case ror =>
    refine ⟨fun h0 => ?_, fun h0 => ?_⟩
    · rw [h0, shiftedByFields_ror_zero]
      exact ⟨rotateWithExtend_toNat _ _, rfl⟩
    · rw [shiftedByFields_of_ne_zero _ _ _ h0]
      exact shiftWithCarry_ror_lt _ _ (toNat_pos_of_ne_zero h0) hlt

/-- Settles O17: the amount is the low byte of Rs, whatever its size. -/
theorem shiftByRegister : Obligations.ShiftByRegister := by
  rintro s w v n c r h25 - h4 rfl hn rfl rfl
  rw [s.shifterOperand_of_regShift h25 h4, ← hn]
  refine ⟨fun h0 => by rw [h0, shiftWithCarry_zero], fun h5 => ?lsl, fun h5 => ?lsr, fun h5 => ?asr, fun h5 => ?ror⟩ <;>
    rw [h5]
  case lsl => exact ⟨shiftWithCarry_lsl _ _, fun h32 => by rw [h32]; rfl, shiftWithCarry_lsl_beyond _ _⟩
  case lsr => exact ⟨shiftWithCarry_lsr _ _, fun h32 => by rw [h32]; rfl, shiftWithCarry_lsr_beyond _ _⟩
  case asr => exact ⟨shiftWithCarry_asr _ _, shiftWithCarry_asr_signs _ _⟩
  case ror => exact ⟨shiftWithCarry_ror_whole _ _, shiftWithCarry_ror _ _⟩

/-- Settles O18: the immediate is one rotation, and its carry the top bit where the rotation is not by 0. -/
theorem immediateOperand : Obligations.ImmediateOperand := by
  rintro s w n r h25 rfl rfl
  have hdec : decodeOperand1 w = .imm (field w 8 4) (field w 0 8) := by rw [decodeOperand1, if_pos h25]
  rw [hdec]
  refine ⟨fun i hi => getLsbD_rotatedImmediate _ _ _ hi, ?_⟩
  simp only [toNat_eq_zero_iff]
  rfl

/-- Settles O19: the offset is an immediate or Rm shifted by the fields of the word, and the index kinds all move the
base by it. -/
theorem storeAddressing : Obligations.StoreAddressing := by
  rintro s w v offset n up rn rfl rfl rfl
  have hlt : (field w 7 5).toNat < 32 := (field w 7 5).isLt
  simp only [toNat_eq_zero_iff, Ne]
  refine ⟨fun h25 => ?imm, fun h25 h4 => ?plain, fun h25 h5 => ?lsl, fun h25 h5 => ?lsr, fun h25 h5 => ?asr,
    fun h25 h5 h0 => ?rrx, fun h25 h5 h0 => ?ror, fun idx hidx => ?kinds⟩
  case kinds =>
    have hmove := (moveBase_eq_iff up _ _ idx).2 hidx
    simp only [State.address2, State.writeback2, writesBack2, State.idx2, hmove]
    simp
  case imm => exact s.offset2_of_imm h25
  case plain =>
    have h7 : field w 7 5 = 0#5 := field_of_field h4 3 5 (by decide)
    have h5 : field w 5 2 = 0#2 := field_of_field h4 1 2 (by decide)
    rw [s.offset2_of_scaled h25, h7, h5, shiftedByFields_lsl_zero]
  all_goals rw [s.offset2_of_scaled h25, h5]
  case lsl => exact shiftedByFields_lsl_toNat _ _ _
  case lsr =>
    split
    · rename_i h0
      rw [h0, shiftedByFields_lsr_zero]
      rfl
    · rename_i h0
      rw [shiftedByFields_of_ne_zero _ _ _ h0]
      exact (shiftWithCarry_lsr _ _ (toNat_pos_of_ne_zero h0) hlt).1
  case asr =>
    split
    · rename_i h0
      rw [h0, shiftedByFields_asr_zero_toInt]
    · rename_i h0
      rw [shiftedByFields_of_ne_zero _ _ _ h0]
      exact (shiftWithCarry_asr _ _ (toNat_pos_of_ne_zero h0) hlt).1
  case rrx =>
    rw [h0, shiftedByFields_ror_zero]
    exact rotateWithExtend_toNat _ _
  case ror =>
    rw [shiftedByFields_of_ne_zero _ _ _ h0]
    exact (shiftWithCarry_ror_lt _ _ (toNat_pos_of_ne_zero h0) hlt).1

/-- Settles O25: with the number of registers as one word, the statement is arithmetic modulo 2^32. -/
theorem multipleAddresses : Obligations.MultipleAddresses := by
  rintro base list n rfl
  simp only [start4, final4, listBytes_eq, true_and]
  generalize 4#32 * BitVec.ofNat 32 (listCount list) = k
  refine ⟨?_, ?_, ?_⟩ <;> bv_omega

/-- Settles O31: the four forms move the base by the same offset or not at all. -/
theorem coprocessorAddresses : Obligations.CoprocessorAddresses := by
  intro s rn off up idx hidx
  have hmove : moveBase up (s.opnd rn) (offset5 off) = idx := by
    rw [moveBase_eq_iff, offset5_toNat, hidx]
  simp [State.mode5, hmove]

end Sys2Proof.Proofs
end

section
/-!
PROOFS. The statements of spec/30_encoding.md on meanings (R88 to R90, R106, R113, R125, R130, R132): the conditions,
the register restrictions of the operand forms, the coprocessor stores that stop or are undefined, and the words that no
step executes.
-/

namespace Sys2Proof.Machine

/-! ## Data processing -/

section

variable {s : State} {c : Cond} (hc : s.condPassed c = true)

include hc

theorem State.logicTest_of_sbz {rn : RegNum} {sbz : BitVec 4} {operand : Operand1} (x : Word) (h : sbz ≠ 0#4) :
    s.logicTest c rn sbz operand x = .fault .sbz := by
  rw [State.logicTest, whenPassed_pos _ hc, if_pos h]

theorem State.logicTest_of_namesR15 {rn : RegNum} {operand : Operand1} (x : Word)
    (h : operand1NamesR15 operand [rn] = true) : s.logicTest c rn 0#4 operand x = .fault .r15Operand := by
  rw [State.logicTest, whenPassed_pos _ hc, if_neg (by simp), if_pos h]

theorem execSub_of_namesR15 {rn rd : RegNum} {setFlags : Bool} {operand : Operand1}
    (h : operand1NamesR15 operand [rn, rd] = true) : execSub c setFlags rn rd operand s = .fault .r15Operand := by
  rw [execSub, whenPassed_pos _ hc, if_pos h]

end

/-! ## The restrictions of addressing mode 2 -/

theorem writesBack2_eq_true_iff (index : Index2) : writesBack2 index = true ↔ index ≠ .offset := by
  cases index <;> decide

section

variable {wb : Bool} {rn : RegNum} {offset : Offset2}

theorem fault2_of_r15Base (hw : wb = true) (hrn : rn = 15#4) : fault2 wb rn offset = some .r15Base := by
  simp [fault2, hw, hrn]

theorem fault2_of_rm15 (hrn : wb = true → rn ≠ 15#4) (hrm : offset2Rm offset = some 15#4) :
    fault2 wb rn offset = some .r15Operand := by
  have h : ¬ (wb && rn == 15#4) = true := by simpa using hrn
  rw [fault2, if_neg h, if_pos (by simp [hrm])]

theorem fault2_of_rm_eq_rn (hw : wb = true) (hrn : rn ≠ 15#4) (hrm : offset2Rm offset = some rn) :
    fault2 wb rn offset = some .operandRestriction := by
  simp [fault2, hw, hrn, hrm]

theorem fault2_eq_none (hrn : rn ≠ 15#4) (h15 : offset2Rm offset ≠ some 15#4) (hrm : offset2Rm offset ≠ some rn) :
    fault2 wb rn offset = none := by
  simp [fault2, hrn, h15, hrm]

end

section

variable {s : State} {c : Cond} {index : Index2} (up : Bool) {rn rd : RegNum} {offset : Offset2} {f : Fault}
  (hc : s.condPassed c = true)

include hc

theorem exec_str_of_fault2 (h : fault2 (writesBack2 index) rn offset = some f) :
    exec (.str c index up rn rd offset) s = .fault f := by
  simp only [exec, execStr, whenPassed_pos _ hc, h]

theorem exec_strb_of_fault2 (hrd : rd ≠ 15#4) (h : fault2 (writesBack2 index) rn offset = some f) :
    exec (.strb c index up rn rd offset) s = .fault f := by
  simp only [exec, execStrb, whenPassed_pos _ hc, if_neg hrd, h]

theorem exec_strb_of_rd15 : exec (.strb c index up rn 15#4 offset) s = .fault .r15Operand := by
  simp only [exec, execStrb, whenPassed_pos _ hc, if_true]

theorem exec_strt_of_fault2 (h : fault2 true rn offset = some f) :
    exec (.strt c up rn rd offset) s = .fault f := by
  simp only [exec, execStrt, whenPassed_pos _ hc, h]

end

/-! ## Exception entry -/

/-- R222: an entry writes R14 of the mode entered and no other register. -/
theorem State.raise_regs_of_ne (s : State) {e : Exc} {k : Fin 30} (h : k ≠ physIndex (some e.mode) 14#4) :
    (s.raise e).regs[k.val] = s.regs[k.val] := by
  rw [s.raise_regs, Vector.getElem_set_ne]
  exact fun hv => h (Fin.ext hv.symm)

/-- R222: an entry writes the SPSR of the mode entered and no other. -/
theorem State.raise_spsrs_of_ne (s : State) {e : Exc} {j k : Fin 5} (hj : e.mode.spsrIndex = some j) (h : k ≠ j) :
    (s.raise e).spsrs[k.val] = s.spsrs[k.val] := by
  simp only [s.raise_spsrs, State.setSpsrOf, hj]
  rw [Vector.getElem_set_ne]
  exact fun hv => h (Fin.ext hv.symm)

/-! ## Coprocessor stores -/

/-- R150, R151: STC under its condition, and STC2 from version 5 on, are one operation on the instruction word. -/
theorem exec_eq_storeCoprocessor {i : Instr} {index : Index5} {long : Bool} {rn : RegNum} {crd cp : BitVec 4}
    {off : BitVec 8} {s : State}
    (h : (∃ cond, i = .stc cond index long rn crd cp off ∧ s.condPassed cond = true) ∨
      (i = .stc2 index long rn crd cp off ∧ 5 ≤ s.config.arch.version)) :
    exec i s = s.storeCoprocessor (encode i) index rn cp off := by
  rcases h with ⟨cond, rfl, hc⟩ | ⟨rfl, hv⟩
  · simp only [exec, execStc, whenPassed_pos _ hc]
  · simp only [exec, execStc2, if_neg (Nat.not_lt.2 hv)]

/-- R152: a coprocessor that is absent, or none of whose rows fits, accepts nothing. -/
theorem State.askCoprocessor_eq_none {s : State} {cp : BitVec 4} {word : Word}
    (h : ∀ device, s.coprocs[cp.toNat] = some device →
      ∀ row ∈ device.rows, ¬ (row.state = device.state ∧ word &&& row.mask = row.value)) :
    s.askCoprocessor cp word = none := by
  rw [Option.eq_none_iff_forall_not_mem]
  rintro ⟨ws, next⟩ hask
  obtain ⟨device, row, hdevice, hrow, _⟩ := State.askCoprocessor_eq_some_iff.1 hask
  obtain ⟨hfits, before, after, hrows, _⟩ := Coprocessor.rowFor_eq_some_iff.1 hrow
  exact h device hdevice row (by simp [hrows]) hfits

section

variable {s : State} {word : Word} {index : Index5} {rn : RegNum} {cp : BitVec 4} {off : BitVec 8}

theorem State.storeCoprocessor_of_none (h : s.askCoprocessor cp word = none) :
    s.storeCoprocessor word index rn cp off = .next (s.raise .undefinedInstruction) := by
  rw [State.storeCoprocessor, h]

variable {ws : List Word} {next : Nat} (h : s.askCoprocessor cp word = some (ws, next))

include h

theorem State.storeCoprocessor_of_r15Base (hw : writesBack5 index = true) (hrn : rn = 15#4) :
    s.storeCoprocessor word index rn cp off = .fault .r15Base := by
  simp [State.storeCoprocessor, h, hw, hrn]

theorem State.storeCoprocessor_of_wraps (hrn : writesBack5 index = true → rn ≠ 15#4)
    (hb : s.storeBlock (s.mode5 index rn off).1 ws = .wraps) :
    s.storeCoprocessor word index rn cp off = .fault .addressWrap := by
  have hr : ¬ (writesBack5 index && rn == 15#4) = true := by simpa using hrn
  simp only [State.storeCoprocessor, h, if_neg hr, hb]

end

/-- R29, R58: past the alignment check, a block that crosses the top of the address space is not stored. -/
theorem State.storeBlock_of_wraps {s : State} {start : Word} {ws : List Word}
    (ha : ¬ (s.config.alignCheck = true ∧ misaligned start = true))
    (hw : 2 ^ 32 < (alignWord start).toNat + 4 * ws.length) : s.storeBlock start ws = .wraps := by
  rw [State.storeBlock, if_neg (by simpa using ha), if_pos hw]

/-! ## Words that no step executes -/

/-- R81: an instruction that a word decodes to has the word's condition field. -/
theorem field_28_4_of_decode {w : Word} {i : Instr} (h : decode w = .instr i) : field w 28 4 = Laws.condBits i := by
  obtain ⟨_, rfl⟩ := (decode_eq_instr_iff w i).1 h
  cases i with
  | swi c n => exact Laws.CondField.swi c n
  | _ => simp [encode, Laws.condBits]

/-- R90: of the instructions in scope, only STC2 has the condition field 0b1111. -/
theorem eq_stc2_of_decode {w : Word} {i : Instr} (h : decode w = .instr i) (h15 : field w 28 4 = 15#4) :
    ∃ x n rn crd cp off, i = .stc2 x n rn crd cp off := by
  rw [field_28_4_of_decode h] at h15
  cases i with
  | stc2 x n rn crd cp off => exact ⟨x, n, rn, crd, cp, off, rfl⟩
  | _ => exact absurd h15 ((exists_cond_bits_iff _).1 ⟨_, rfl⟩)

theorem exists_rejected_of_forall_ne {w : Word} (h : ∀ i, decode w ≠ .instr i) : ∃ why, decode w = .rejected why := by
  cases hd : decode w with
  | instr i => exact absurd hd (h i)
  | rejected why => exact ⟨why, rfl⟩

section

variable {s : State} {w : Word}

theorem State.decodeWord_of_condNV (h15 : field w 28 4 = 15#4) (hv : s.config.arch.version < 5) :
    s.decodeWord w = .condNV := by
  rw [State.decodeWord, if_pos ⟨h15, hv⟩]

theorem State.decodeWord_of_rejected {why : Reject} (hv : field w 28 4 = 15#4 → 5 ≤ s.config.arch.version)
    (hd : decode w = .rejected why) : s.decodeWord w = .rejected why := by
  simp only [State.decodeWord, if_neg fun (h : _ ∧ _) => absurd (hv h.1) (Nat.not_le.2 h.2), hd]

theorem State.decodeWord_of_unavailable {i : Instr} (hv : field w 28 4 = 15#4 → 5 ≤ s.config.arch.version)
    (hd : decode w = .instr i) (ha : availableIn s.config.arch i = false) :
    s.decodeWord w = .rejected .notInVersion := by
  simp only [State.decodeWord, if_neg fun (h : _ ∧ _) => absurd (hv h.1) (Nat.not_le.2 h.2), hd, ha]
  rfl

/-- Taking the sample of the inputs changes nothing that the decoding looks at. -/
@[simp] theorem State.takeInput_decodeWord (s : State) (w : Word) : s.takeInput.decodeWord w = s.decodeWord w := rfl

variable (he : s.executable) (hu : s.undisturbed) (hf : s.fetches w)

include he hu hf

theorem step_of_condNV (hd : s.decodeWord w = .condNV) : step s = .fault .condNV := by
  simp only [step_of_undisturbed he hu, State.runInstruction, State.takeInput_fetch, State.fetch_of_fetches hf,
    State.takeInput_decodeWord, hd]

theorem step_of_rejected {why : Reject} (hd : s.decodeWord w = .rejected why) :
    step s = .refused (.notInSpec why) := by
  simp only [step_of_undisturbed he hu, State.runInstruction, State.takeInput_fetch, State.fetch_of_fetches hf,
    State.takeInput_decodeWord, hd]

end

end Sys2Proof.Machine

namespace Sys2Proof.Proofs

open Sys2Proof.Machine

/-- Settles O33: where the coprocessor does not answer, the next state is the entry of the exception. -/
theorem stcUndefined : Obligations.StcUndefined := by
  intro i index long rn crd cp off s hi hnone
  refine ⟨s.raise .undefinedInstruction, ?_, s.raise_mode _, s.raise_reg14 _, s.raise_spsr _, ?_, ?_, ?_, ?_, ?_,
    fun k hk => ?_, fun k hk => ?_, ⟨fun a => by rw [s.raise_mem], s.raise_stored _⟩, s.raise_coprocs _,
    s.raise_inputs _, s.raise_config _, s.raise_freeCount _, s.raise_afterStm2 _⟩
  · rw [exec_eq_storeCoprocessor hi, State.storeCoprocessor_of_none (State.askCoprocessor_eq_none hnone)]
  · rw [s.raise_cpsr, psrT_onEntry]
  · rw [s.raise_cpsr, psrI_onEntry]
  · rw [s.raise_cpsr, psrF_onEntry]; rfl
  · rw [s.raise_cpsr, above_onEntry]
  · rw [s.raise_pc, State.vectorBase]
    split <;> rfl
  · exact s.raise_regs_of_ne hk
  · exact s.raise_spsrs_of_ne (e := .undefinedInstruction) rfl hk

/-- Settles O35: STC2's version comes first; what the coprocessor accepts then meets the base register and the block. -/
theorem stcStops : Obligations.StcStops := by
  intro i index long rn crd cp off s
  refine ⟨fun hv => ?_, fun hi ws next hacc => ?_⟩
  · simp only [exec, execStc2, if_pos hv]
  · rw [State.accepts_iff_askCoprocessor] at hacc
    rw [exec_eq_storeCoprocessor hi]
    exact ⟨fun hw hrn => State.storeCoprocessor_of_r15Base hacc hw hrn, fun hrn ha hwrap =>
      State.storeCoprocessor_of_wraps hacc hrn (State.storeBlock_of_wraps ha hwrap)⟩

/-- Settles O1: the decoder, run on each word. -/
theorem sampleWordsDecode : Obligations.SampleWordsDecode := by
  unfold Obligations.SampleWordsDecode
  decide

/-- Settles O15: the SBZ field is tested before R15, and a register-shift form hands over all its register fields. -/
theorem dataProcessingStops : Obligations.DataProcessingStops := by
  intro cond setFlags rn rd sbz operand s hc
  refine ⟨fun h => ⟨State.logicTest_of_sbz hc _ h, State.logicTest_of_sbz hc _ h⟩, ?_⟩
  rintro rm rs ty rfl
  refine ⟨fun h15 => ?_, fun h15 => ?_⟩
  · have hr : operand1NamesR15 (.regShift rm ty rs) [rn] = true := by
      rcases h15 with rfl | rfl | rfl <;> simp [operand1NamesR15]
    exact ⟨State.logicTest_of_namesR15 hc _ hr, State.logicTest_of_namesR15 hc _ hr⟩
  · have hr : operand1NamesR15 (.regShift rm ty rs) [rn, rd] = true := by
      rcases h15 with rfl | rfl | rfl | rfl <;> simp [operand1NamesR15]
    exact execSub_of_namesR15 hc hr

/-- Settles O23: the tests of R113 come first, after STRB's own of Rd, and the test of Rd against the base last. -/
theorem storeStops : Obligations.StoreStops := by
  intro cond index up rn rd offset s hc
  simp only [Ne, ← writesBack2_eq_true_iff]
  refine ⟨exec_strb_of_rd15 up hc, fun hw hrn => ?base, fun hrn => ?baseT, fun hb hrm => ?index, fun hrn hrm => ?same,
    fun hrn h15 hrm hrd => ?rd⟩
  case base =>
    have hf := fault2_of_r15Base (offset := offset) hw hrn
    exact ⟨exec_str_of_fault2 up hc hf, fun hrd => exec_strb_of_fault2 up hc hrd hf⟩
  case baseT => exact exec_strt_of_fault2 up hc (fault2_of_r15Base rfl hrn)
  case index =>
    have hf := fault2_of_rm15 hb hrm
    refine ⟨exec_str_of_fault2 up hc hf, ?_, fun hrn => exec_strt_of_fault2 up hc (fault2_of_rm15 (fun _ => hrn) hrm)⟩
    by_cases hrd : rd = 15#4
    · rw [hrd, exec_strb_of_rd15 up hc]
    · exact exec_strb_of_fault2 up hc hrd hf
  case same =>
    refine ⟨fun hw => ?_, exec_strt_of_fault2 up hc (fault2_of_rm_eq_rn rfl hrn hrm)⟩
    have hf := fault2_of_rm_eq_rn hw hrn hrm
    exact ⟨exec_str_of_fault2 up hc hf, fun hrd => exec_strb_of_fault2 up hc hrd hf⟩
  case rd =>
    have hf (wb) := fault2_eq_none (wb := wb) hrn h15 hrm
    subst hrd
    refine ⟨fun hw => ⟨?_, ?_⟩, ?_⟩
    · simp [exec, execStr, whenPassed_pos _ hc, hf, hw]
    · simp [exec, execStrb, whenPassed_pos _ hc, hf, hw, hrn]
    · simp [exec, execStrt, whenPassed_pos _ hc, hf]

/-- Settles O43: each row of R88 is a connective of Booleans, and the numbers are the rows in order. -/
theorem conditionTable : Obligations.ConditionTable := by
  intro s
  simp only [State.condPassed, condHolds, Bool.not_eq_true', Bool.and_eq_true, Bool.or_eq_true, beq_iff_eq, bne_iff_ne,
    Ne, true_and]
  decide

/-- Settles O49: the decoder's answer decides the step, and only STC2 has the condition field 0b1111. -/
theorem unconditionalSpace : Obligations.UnconditionalSpace := by
  intro s w he hu hf
  refine ⟨fun h15 hv => ?_, fun hv hno => ?_, fun h15 hv hno => ?_, fun i hd hlacks => ?_⟩
  · exact step_of_condNV he hu hf (State.decodeWord_of_condNV h15 hv)
  · obtain ⟨why, hd⟩ := exists_rejected_of_forall_ne hno
    exact ⟨why, hd, step_of_rejected he hu hf (State.decodeWord_of_rejected hv hd)⟩
  · obtain ⟨why, hd⟩ := exists_rejected_of_forall_ne fun i hd => by
      obtain ⟨x, n, rn, crd, cp, off, rfl⟩ := eq_stc2_of_decode hd h15
      exact hno x n rn crd cp off hd
    exact ⟨why, step_of_rejected he hu hf (State.decodeWord_of_rejected (fun _ => hv) hd)⟩
  · have hlacking : availableIn s.config.arch i = false ∧ ∀ x n rn crd cp off, i ≠ .stc2 x n rn crd cp off := by
      rcases hlacks with ⟨hm, ⟨_, _, _, _, _, _, rfl⟩ | ⟨_, _, _, _, _, _, rfl⟩⟩ | ⟨hv, _, _, _, _, _, _, _, rfl⟩ |
        ⟨hv, ⟨_, _, _, _, _, rfl⟩ | ⟨_, _, _, _, _, rfl⟩⟩ <;> simp [availableIn, *]
    obtain ⟨ha, hne⟩ := hlacking
    refine step_of_rejected he hu hf (State.decodeWord_of_unavailable (fun h15 => ?_) hd ha)
    obtain ⟨x, n, rn, crd, cp, off, h⟩ := eq_stc2_of_decode hd h15
    exact absurd h (hne x n rn crd cp off)

end Sys2Proof.Proofs
end

section
/-!
PROOFS. The statements of spec/40_multiply_long.md: what SMULL and UMLAL leave in their two registers and in the flags
(R140 to R142, R145, R146), and the operands that they stop on (R143).
-/

namespace Sys2Proof.Machine

/-! ## The restrictions of R143 -/

section

variable {rdHi rdLo rs rm : RegNum}

theorem longMultiplyNamesR15_eq_true_iff :
    longMultiplyNamesR15 rdHi rdLo rs rm = true ↔ rdHi = 15#4 ∨ rdLo = 15#4 ∨ rs = 15#4 ∨ rm = 15#4 := by
  rw [longMultiplyNamesR15, List.contains_iff_mem]
  simp [eq_comm (a := 15#4), or_comm (a := rm = 15#4)]

theorem not_longMultiplyNamesR15 (hHi : rdHi ≠ 15#4) (hLo : rdLo ≠ 15#4) (hRs : rs ≠ 15#4) (hRm : rm ≠ 15#4) :
    ¬ longMultiplyNamesR15 rdHi rdLo rs rm = true := by
  simp [longMultiplyNamesR15_eq_true_iff, hHi, hLo, hRs, hRm]

theorem longMultiplyOverlaps_eq_true_iff :
    longMultiplyOverlaps rdHi rdLo rm = true ↔ rdHi = rdLo ∨ rdHi = rm ∨ rdLo = rm := by
  simp [longMultiplyOverlaps, or_assoc]

variable {s : State} {c : Cond} {setFlags : Bool} (r : BitVec 64) (hc : s.condPassed c = true)

include hc

theorem State.longMultiply_of_namesR15 (h15 : longMultiplyNamesR15 rdHi rdLo rs rm = true) :
    s.longMultiply c setFlags rdHi rdLo rs rm r = .fault .r15Operand := by
  rw [State.longMultiply, whenPassed_pos _ hc, if_pos h15]

theorem State.longMultiply_of_overlaps (h15 : ¬ longMultiplyNamesR15 rdHi rdLo rs rm = true)
    (hov : longMultiplyOverlaps rdHi rdLo rm = true) :
    s.longMultiply c setFlags rdHi rdLo rs rm r = .fault .operandRestriction := by
  rw [State.longMultiply, whenPassed_pos _ hc, if_neg h15, if_pos hov]

theorem State.longMultiply_of_admitted (h15 : ¬ longMultiplyNamesR15 rdHi rdLo rs rm = true)
    (hov : ¬ longMultiplyOverlaps rdHi rdLo rm = true) :
    s.longMultiply c setFlags rdHi rdLo rs rm r = s.finishLongMultiply setFlags rdHi rdLo r := by
  rw [State.longMultiply, whenPassed_pos _ hc, if_neg h15, if_neg hov]

end

/-! ## The 64-bit results -/

/-- The product of two 32-bit signed numbers fits 64 bits. -/
theorem toInt_signExtend_mul (a b : Word) : (a.signExtend 64 * b.signExtend 64).toInt = a.toInt * b.toInt := by
  have hlow : -2 ^ 62 ≤ a.toInt * b.toInt := BitVec.le_toInt_mul_toInt
  have hhigh : a.toInt * b.toInt ≤ 2 ^ 62 := BitVec.toInt_mul_toInt_le
  rw [BitVec.toInt_mul, BitVec.toInt_signExtend_of_le (by decide), BitVec.toInt_signExtend_of_le (by decide)]
  exact Int.bmod_eq_of_le (by omega) (by omega)

/-- R140: the product is exact. -/
theorem State.toInt_signedProduct (s : State) (rm rs : RegNum) :
    (s.signedProduct rm rs).toInt = (s.reg rm).toInt * (s.reg rs).toInt :=
  toInt_signExtend_mul ..

/-- R141, R146: the sum is that of the numbers, without its carry out of bit 63. -/
theorem State.toNat_unsignedAccumulate (s : State) (rdHi rdLo rs rm : RegNum) :
    (s.unsignedAccumulate rdHi rdLo rs rm).toNat =
      ((s.reg rm).toNat * (s.reg rs).toNat + ((s.reg rdHi).toNat * 2 ^ 32 + (s.reg rdLo).toNat)) % 2 ^ 64 := by
  have hacc : (s.reg rdHi ++ s.reg rdLo).toNat = (s.reg rdHi).toNat * 2 ^ 32 + (s.reg rdLo).toNat := by
    rw [toNat_append_eq_add, Nat.mul_comm, Nat.add_comm]
  rw [State.unsignedAccumulate, BitVec.toNat_add, BitVec.toNat_mul, BitVec.toNat_setWidth_of_le (by decide),
    BitVec.toNat_setWidth_of_le (by decide), BitVec.toNat_cast, hacc, Nat.mod_add_mod]

/-! ## The two halves of a 64-bit result -/

section

variable (r : BitVec 64)

theorem upper_append_lower : (r.extractLsb' 32 32 ++ r.extractLsb' 0 32 : BitVec (32 + 32)) = r := by
  rw [BitVec.extractLsb'_append_extractLsb'_eq_extractLsb' (by decide)]
  exact BitVec.extractLsb'_eq_self

theorem toNat_upper : (r.extractLsb' 32 32).toNat = r.toNat / 2 ^ 32 := by
  have := r.isLt
  rw [BitVec.extractLsb'_toNat, Nat.shiftRight_eq_div_pow]
  omega

theorem toNat_lower : (r.extractLsb' 0 32).toNat = r.toNat % 2 ^ 32 := by
  rw [BitVec.extractLsb'_toNat, Nat.shiftRight_zero]

theorem msb_upper : (r.extractLsb' 32 32).msb = r.msb := by
  simp [BitVec.msb_eq_getLsbD_last]

theorem eq_zero_iff_halves : r = 0#64 ↔ r.extractLsb' 32 32 = 0#32 ∧ r.extractLsb' 0 32 = 0#32 := by
  simp only [← BitVec.toNat_inj, toNat_upper, toNat_lower, BitVec.toNat_ofNat]
  omega

end

/-! ## The state that a long multiply goes on in -/

/-- R145: the CPSR after a long multiply with result `r`. -/
def State.longPsr (s : State) (setFlags : Bool) (r : BitVec 64) : Word :=
  if setFlags then longFlags s.cpsr r s.longMultiplyCV.1.1 s.longMultiplyCV.1.2 else s.cpsr

/-- R145: the count of free values after a long multiply, which C and V raise before version 5. -/
def State.longFreeCount (s : State) (setFlags : Bool) : Nat :=
  if setFlags then s.longMultiplyCV.2.freeCount else s.freeCount

/-- R140, R141: the next state of a long multiply that stops nowhere. -/
def State.longDone (s : State) (setFlags : Bool) (rdHi rdLo : RegNum) (r : BitVec 64) : State :=
  { (s.setReg rdHi (r.extractLsb' 32 32)).setReg rdLo (r.extractLsb' 0 32) with
    cpsr := s.longPsr setFlags r
    freeCount := s.longFreeCount setFlags
    pc := s.pc + 4#32 }

theorem State.finishLongMultiply_false (s : State) (rdHi rdLo : RegNum) (r : BitVec 64) :
    s.finishLongMultiply false rdHi rdLo r =
      ((s.setReg rdHi (r.extractLsb' 32 32)).setReg rdLo (r.extractLsb' 0 32)).advance := rfl

theorem State.finishLongMultiply_true (s : State) (rdHi rdLo : RegNum) (r : BitVec 64) :
    s.finishLongMultiply true rdHi rdLo r =
      let drawn := ((s.setReg rdHi (r.extractLsb' 32 32)).setReg rdLo (r.extractLsb' 0 32)).longMultiplyCV
      { drawn.2 with cpsr := longFlags s.cpsr r drawn.1.1 drawn.1.2 }.advance := rfl

/-- C and V after a long multiply depend on the CPSR, the version and the count of free values only. -/
theorem State.longMultiplyCV_setReg (s : State) (rd : RegNum) (v : Word) :
    (s.setReg rd v).longMultiplyCV.1 = s.longMultiplyCV.1 ∧
      (s.setReg rd v).longMultiplyCV.2.freeCount = s.longMultiplyCV.2.freeCount := by
  unfold State.longMultiplyCV
  simp only [State.setReg_config, State.setReg_cpsr, State.setReg_freeCount]
  split <;> simp

theorem State.longPsr_of_version5 {s : State} {setFlags : Bool} (hv : setFlags = true → 5 ≤ s.config.arch.version)
    (r : BitVec 64) :
    s.longPsr setFlags r = if setFlags then longFlags s.cpsr r (psrC s.cpsr) (psrV s.cpsr) else s.cpsr := by
  cases setFlags with
  | false => simp [State.longPsr]
  | true => simp only [State.longPsr, State.longMultiplyCV_of_version5 (hv rfl)]

theorem State.longFreeCount_of_version5 {s : State} {setFlags : Bool}
    (hv : setFlags = true → 5 ≤ s.config.arch.version) : s.longFreeCount setFlags = s.freeCount := by
  cases setFlags with
  | false => rfl
  | true => rw [State.longFreeCount, State.longMultiplyCV_of_version5 (hv rfl), if_pos rfl]

section

variable (s : State) (setFlags : Bool) {rdHi rdLo : RegNum} (r : BitVec 64)

theorem State.psrN_longPsr : psrN (s.longPsr true r) = r.msb := psrN_withFlags ..

theorem State.psrZ_longPsr : psrZ (s.longPsr true r) = decide (r = 0#64) := psrZ_withFlags ..

theorem State.longDone_keepsBelowFlags : psrKeptBelowFlags s (s.longDone setFlags rdHi rdLo r) := by
  cases setFlags with
  | false => rfl
  | true => exact below_longFlags ..

@[simp] theorem State.longDone_config : (s.longDone setFlags rdHi rdLo r).config = s.config := by simp [State.longDone]

@[simp] theorem State.longDone_spsrs : (s.longDone setFlags rdHi rdLo r).spsrs = s.spsrs := by simp [State.longDone]

@[simp] theorem State.longDone_coprocs : (s.longDone setFlags rdHi rdLo r).coprocs = s.coprocs := by
  simp [State.longDone]

@[simp] theorem State.longDone_inputs : (s.longDone setFlags rdHi rdLo r).inputs = s.inputs := by simp [State.longDone]

@[simp] theorem State.longDone_mode : (s.longDone setFlags rdHi rdLo r).mode = s.mode :=
  State.mode_of_psrM (psrM_of_psrKeptBelowFlags (s.longDone_keepsBelowFlags setFlags r)) (by simp)

theorem State.longDone_storesNothing : storesNothing s (s.longDone setFlags rdHi rdLo r) :=
  ⟨fun a => by simp [State.longDone], by simp [State.longDone]⟩

theorem State.longDone_wentOn : wentOn s (s.longDone setFlags rdHi rdLo r) := ⟨rfl, by simp [State.longDone]⟩

theorem State.longDone_specialKept (hv : setFlags = true → 5 ≤ s.config.arch.version) :
    specialKept s (s.longDone setFlags rdHi rdLo r) :=
  ⟨by simp, by simp, by simp, by simp, State.longFreeCount_of_version5 hv⟩

theorem State.longDone_reg {rd : RegNum} (h : rd ≠ 15#4) :
    (s.longDone setFlags rdHi rdLo r).reg rd =
      ((s.setReg rdHi (r.extractLsb' 32 32)).setReg rdLo (r.extractLsb' 0 32)).reg rd :=
  State.reg_congr_of_ne h rfl (by simp)

variable (hHi : rdHi ≠ 15#4) (hLo : rdLo ≠ 15#4)

include hLo

theorem State.longDone_reg_lower : (s.longDone setFlags rdHi rdLo r).reg rdLo = r.extractLsb' 0 32 := by
  rw [s.longDone_reg setFlags r hLo, State.reg_setReg_same]

include hHi

theorem State.longDone_regsKeptBut : regsKeptBut s (s.longDone setFlags rdHi rdLo r) [rdHi, rdLo] :=
  regsKeptBut_trans (s.regsKeptBut_setReg rdHi _ hHi) (State.regsKeptBut_setReg _ rdLo _ hLo) (by simp)

theorem State.longDone_reg_upper (hne : rdHi ≠ rdLo) :
    (s.longDone setFlags rdHi rdLo r).reg rdHi = r.extractLsb' 32 32 := by
  rw [s.longDone_reg setFlags r hHi, State.reg_setReg_of_ne _ _ hLo hne.symm, State.reg_setReg_same]

/-- R140, R141: writing the result answers that state. -/
theorem State.finishLongMultiply_eq (hn : s.hasNext) :
    s.finishLongMultiply setFlags rdHi rdLo r = .next (s.longDone setFlags rdHi rdLo r) := by
  have hpc : ((s.setReg rdHi (r.extractLsb' 32 32)).setReg rdLo (r.extractLsb' 0 32)).pc = s.pc := by
    rw [State.setReg_pc _ _ _ hLo, State.setReg_pc _ _ _ hHi]
  cases setFlags with
  | false =>
    rw [State.finishLongMultiply_false, State.advance_of_hasNext ((State.hasNext_congr hpc).2 hn), hpc]
    simp [State.longDone, State.longPsr, State.longFreeCount]
  | true =>
    rw [State.finishLongMultiply_true, State.advance_of_hasNext ((State.hasNext_congr (by simpa using hpc)).2 hn)]
    simp [State.longDone, State.longPsr, State.longFreeCount, State.longMultiplyCV_setReg, hpc]

/-- R140, R141: on operands that R143 admits, a long multiply answers that state. -/
theorem State.longMultiply_eq_longDone {rs rm : RegNum} {c : Cond} (hc : s.condPassed c = true) (hn : s.hasNext)
    (hRs : rs ≠ 15#4) (hRm : rm ≠ 15#4) (hne : rdHi ≠ rdLo) (hHiRm : rdHi ≠ rm) (hLoRm : rdLo ≠ rm) :
    s.longMultiply c setFlags rdHi rdLo rs rm r = .next (s.longDone setFlags rdHi rdLo r) := by
  have hov : ¬ longMultiplyOverlaps rdHi rdLo rm = true := by
    simp [longMultiplyOverlaps_eq_true_iff, hne, hHiRm, hLoRm]
  rw [State.longMultiply_of_admitted r hc (not_longMultiplyNamesR15 hHi hLo hRs hRm) hov,
    s.finishLongMultiply_eq setFlags r hHi hLo hn]

end

/-! ## The two instructions -/

section

variable (c : Cond) (setFlags : Bool) (rdHi rdLo rs rm : RegNum) (s : State)

theorem exec_smull : exec (.smull c setFlags rdHi rdLo rs rm) s =
    s.longMultiply c setFlags rdHi rdLo rs rm (s.signedProduct rm rs) := rfl

theorem exec_umlal : exec (.umlal c setFlags rdHi rdLo rs rm) s =
    s.longMultiply c setFlags rdHi rdLo rs rm (s.unsignedAccumulate rdHi rdLo rs rm) := rfl

/-- What the two instructions share. -/
theorem exec_eq_longMultiply {i : Instr}
    (hi : i ∈ [Instr.smull c setFlags rdHi rdLo rs rm, Instr.umlal c setFlags rdHi rdLo rs rm]) :
    exec i s = s.longMultiply c setFlags rdHi rdLo rs rm
      (if i = .smull c setFlags rdHi rdLo rs rm then s.signedProduct rm rs
        else s.unsignedAccumulate rdHi rdLo rs rm) := by
  rcases List.mem_pair.1 hi with rfl | rfl
  · rw [if_pos rfl, exec_smull]
  · rw [if_neg nofun, exec_umlal]

end

end Sys2Proof.Machine

namespace Sys2Proof.Proofs

open Sys2Proof.Machine

/-- Settles O7: the result and its flags do not depend on which values C and V are given. -/
theorem longMultiplyBeforeVersion5 : Obligations.LongMultiplyBeforeVersion5 := by
  intro c rdHi rdLo rs rm s hc hn hHi hLo hRs hRm hne hHiRm hLoRm _ i hi
  rw [exec_eq_longMultiply c true rdHi rdLo rs rm s hi,
    s.longMultiply_eq_longDone true _ hHi hLo hc hn hRs hRm hne hHiRm hLoRm]
  generalize hr : (if i = Instr.smull c true rdHi rdLo rs rm then s.signedProduct rm rs
    else s.unsignedAccumulate rdHi rdLo rs rm) = r
  have hupper : (s.longDone true rdHi rdLo r).reg rdHi = r.extractLsb' 32 32 := s.longDone_reg_upper true r hHi hLo hne
  have hlower : (s.longDone true rdHi rdLo r).reg rdLo = r.extractLsb' 0 32 := s.longDone_reg_lower true r hLo
  refine ⟨_, rfl, ?result, ?negative, ?zero, s.longDone_keepsBelowFlags true r, s.longDone_regsKeptBut true r hHi hLo,
    s.longDone_storesNothing true r, s.longDone_wentOn true r, by simp, by simp, by simp, by simp⟩
  case result => rw [hupper, hlower, upper_append_lower, ← hr]; rfl
  case negative => rw [hupper, msb_upper]; exact s.psrN_longPsr r
  case zero => simp only [hupper, hlower, ← eq_zero_iff_halves]; exact s.psrZ_longPsr r

/-- Settles O5: the 64-bit product is exact, so its sign and whether it is zero are those of the numbers' product. -/
theorem smullResult : Obligations.SmullResult := by
  intro c setFlags rdHi rdLo rs rm s hc hn hHi hLo hRs hRm hne hHiRm hLoRm hv
  rw [← s.toInt_signedProduct, exec_smull,
    s.longMultiply_eq_longDone setFlags _ hHi hLo hc hn hRs hRm hne hHiRm hLoRm]
  generalize s.signedProduct rm rs = r
  refine ⟨_, rfl, ?product, ?flags, s.longDone_regsKeptBut setFlags r hHi hLo, s.longDone_storesNothing setFlags r,
    s.longDone_specialKept setFlags r hv, s.longDone_wentOn setFlags r⟩
  case product =>
    rw [s.longDone_reg_upper setFlags r hHi hLo hne, s.longDone_reg_lower setFlags r hLo, upper_append_lower]
  case flags =>
    have hzero : r = 0#64 ↔ r.toInt = 0 := by rw [← BitVec.toInt_inj, BitVec.toInt_zero]
    simp only [← hzero, ← BitVec.msb_eq_toInt]
    exact State.longPsr_of_version5 hv r

/-- Settles O6: the 64-bit sum is the numbers' sum modulo 2^64, and its upper bit is N. -/
theorem umlalResult : Obligations.UmlalResult := by
  intro c setFlags rdHi rdLo rs rm s n hc hn hHi hLo hRs hRm hne hHiRm hLoRm hv hresult
  have hsum : (s.unsignedAccumulate rdHi rdLo rs rm).toNat = n := by
    rw [s.toNat_unsignedAccumulate rdHi rdLo rs rm, hresult]
  rw [exec_umlal, s.longMultiply_eq_longDone setFlags _ hHi hLo hc hn hRs hRm hne hHiRm hLoRm]
  generalize s.unsignedAccumulate rdHi rdLo rs rm = r at hsum
  subst hsum
  refine ⟨_, rfl, ?upper, ?lower, ?flags, s.longDone_regsKeptBut setFlags r hHi hLo,
    s.longDone_storesNothing setFlags r, s.longDone_specialKept setFlags r hv, s.longDone_wentOn setFlags r⟩
  case upper => rw [s.longDone_reg_upper setFlags r hHi hLo hne, toNat_upper]
  case lower => rw [s.longDone_reg_lower setFlags r hLo, toNat_lower]
  case flags =>
    have hnegative : r.msb = decide (2 ^ 63 ≤ r.toNat) := BitVec.msb_eq_decide r
    have hzero : r = 0#64 ↔ r.toNat = 0 := BitVec.toNat_inj.symm
    simp only [← hzero, ← hnegative]
    exact State.longPsr_of_version5 hv r

/-- Settles O8: the test for R15 stands before the test for overlaps, in both instructions. -/
theorem longMultiplyStops : Obligations.LongMultiplyStops := by
  intro c setFlags rdHi rdLo rs rm s hc i hi
  rw [exec_eq_longMultiply c setFlags rdHi rdLo rs rm s hi]
  refine ⟨fun h15 => ?_, fun hHi hLo hRs hRm hov => ?_⟩
  · exact State.longMultiply_of_namesR15 _ hc (longMultiplyNamesR15_eq_true_iff.2 h15)
  · exact State.longMultiply_of_overlaps _ hc (not_longMultiplyNamesR15 hHi hLo hRs hRm)
      (longMultiplyOverlaps_eq_true_iff.2 hov)

end Sys2Proof.Proofs
end

section
/-!
PROOFS. The statements of spec/41_coprocessor_store.md: what an accepted STC or STC2 stores and leaves in its
coprocessor and base register (R150, R153 to R155), and the Data Abort that it takes when a word is turned away (R156).
The rules for blocks of words and for Data Aborts stand first; they do not speak of coprocessors.
-/

namespace Sys2Proof.Machine

/-! ## Blocks of words that are let through -/

theorem State.blockAborts_eq_true_iff (s : State) (a : Word) (n : Nat) :
    s.blockAborts a n = true ↔
      ∃ k < n, s.memSysAborts s.privilege .word .write (a + BitVec.ofNat 32 (4 * k)) = true := by
  simp [State.blockAborts]

theorem State.storeBlock_of_blockAllowed {s : State} {start : Word} {ws : List Word}
    (h : s.blockAllowed start ws.length) : s.storeBlock start ws = .done (s.putBlock (alignWord start) ws) := by
  obtain ⟨haligned, htop, hallowed⟩ := h
  refine State.storeBlock_of_ok haligned htop ?_
  rw [Bool.eq_false_iff, ne_eq, State.blockAborts_eq_true_iff]
  rintro ⟨k, hk, hrefused⟩
  rw [hallowed k hk] at hrefused
  cases hrefused

/-- Whether a block has been stored depends on memory and the record of stores only. -/
theorem blockStored_congr {s t u : State} {start : Word} {ws : List Word} (hmem : u.mem = t.mem)
    (hstored : u.stored = t.stored) (h : blockStored s t start ws) : blockStored s u start ws := by
  simpa only [blockStored, memKeptOutside, storedGrows, hmem, hstored] using h

theorem State.blockStored_putBlock {s : State} {start : Word} {ws : List Word} (h : s.blockAllowed start ws.length) :
    blockStored s (s.putBlock (alignWord start) ws) start ws := by
  obtain ⟨_, htop, _⟩ := h
  exact ⟨s.readWord_putBlock _ ws (misaligned_alignWord start) htop,
    s.memKeptOutside_putBlock _ ws (misaligned_alignWord start) htop,
    s.mem_stored_putBlock _ ws (misaligned_alignWord start) htop⟩

/-! ## Blocks of words that are turned away -/

/-- What the memory system answers depends on the parameters of the run only. -/
theorem State.memSysAborts_congr {s t : State} (h : t.config = s.config) (pr : Privilege) (sz : AccessSize)
    (kind : AccessKind) (a : Word) : t.memSysAborts pr sz kind a = s.memSysAborts pr sz kind a := by
  simp [State.memSysAborts, h]

theorem State.putFreeWord_of_refused {s : State} {a : Word}
    (h : s.memSysAborts s.privilege .word .write a = true) : s.putFreeWord a = s := by
  rw [State.putFreeWord, if_pos h]

theorem State.read_putFreeWord_of_outside (s : State) {a : Word} (ha : misaligned a = false) {x : Nat}
    (hx : x < a.toNat ∨ a.toNat + 4 ≤ x) : (s.putFreeWord a).mem.read x = s.mem.read x := by
  unfold State.putFreeWord
  split
  · rfl
  · rw [State.putWord_mem, Memory.read_writeWord, alignWord_of_aligned ha, if_neg (by omega)]

/-- R233: a refused word of an aborted block keeps its bytes. -/
theorem State.read_putFreeBlock_of_refused (s : State) {a : Word} {n k b : Nat} (ha : misaligned a = false)
    (htop : a.toNat + 4 * n ≤ 2 ^ 32) (hk : k < n) (hb : b < 4)
    (h : s.memSysAborts s.privilege .word .write (a + BitVec.ofNat 32 (4 * k)) = true) :
    (s.putFreeBlock a n).mem.read (a.toNat + 4 * k + b) = s.mem.read (a.toNat + 4 * k + b) := by
  induction n generalizing s a k with
  | zero => omega
  | succ n ih =>
    rcases Nat.eq_zero_or_pos n with rfl | hn
    · obtain rfl : k = 0 := by omega
      rw [State.putFreeBlock, State.putFreeBlock, State.putFreeWord_of_refused (by simpa using h)]
    · have ha4 : (a + 4#32).toNat = a.toNat + 4 := add_four_mul a 1 (by omega)
      have hrest : (a + 4#32).toNat + 4 * n ≤ 2 ^ 32 := by omega
      cases k with
      | zero =>
        rw [State.putFreeBlock, State.putFreeWord_of_refused (by simpa using h),
          s.read_putFreeBlock_of_outside _ n (misaligned_add_four ha) hrest _ (by omega)]
      | succ k =>
        have hx : a.toNat + 4 * (k + 1) + b = (a + 4#32).toNat + 4 * k + b := by omega
        have hword : a + 4#32 + BitVec.ofNat 32 (4 * k) = a + BitVec.ofNat 32 (4 * (k + 1)) := by
          rw [BitVec.add_assoc, ← BitVec.ofNat_add, Nat.mul_succ, Nat.add_comm]
        have hsame : (s.putFreeWord a).memSysAborts (s.putFreeWord a).privilege .word .write
            (a + 4#32 + BitVec.ofNat 32 (4 * k)) = true := by
          rw [hword, State.memSysAborts_congr (s := s) (by simp), State.privilege_congr (s := s) (by simp) (by simp), h]
        rw [hx, State.putFreeBlock, ih (s.putFreeWord a) (misaligned_add_four ha) hrest (by omega) hsame,
          s.read_putFreeWord_of_outside ha (by omega)]

/-- R58, R233: the state that a block of `n` words from `start` on leaves when it is turned away: the alignment check
comes before any byte. -/
def State.refusedBlock (s : State) (start : Word) (n : Nat) : State :=
  if s.config.alignCheck = true ∧ misaligned start = true then s else s.putFreeBlock (alignWord start) n

section

variable (s : State) (start : Word) (n : Nat)

theorem State.refusedBlock_cases :
    s.refusedBlock start n = s ∨ s.refusedBlock start n = s.putFreeBlock (alignWord start) n := by
  unfold State.refusedBlock
  split <;> simp

@[simp] theorem State.refusedBlock_regs : (s.refusedBlock start n).regs = s.regs := by
  rcases s.refusedBlock_cases start n with e | e <;> simp [e]

@[simp] theorem State.refusedBlock_pc : (s.refusedBlock start n).pc = s.pc := by
  rcases s.refusedBlock_cases start n with e | e <;> simp [e]

@[simp] theorem State.refusedBlock_cpsr : (s.refusedBlock start n).cpsr = s.cpsr := by
  rcases s.refusedBlock_cases start n with e | e <;> simp [e]

@[simp] theorem State.refusedBlock_config : (s.refusedBlock start n).config = s.config := by
  rcases s.refusedBlock_cases start n with e | e <;> simp [e]

@[simp] theorem State.refusedBlock_coprocs : (s.refusedBlock start n).coprocs = s.coprocs := by
  rcases s.refusedBlock_cases start n with e | e <;> simp [e]

end

theorem State.storeBlock_of_blockRefused {s : State} {start : Word} {ws : List Word}
    (h : s.blockRefused start ws.length) :
    ∃ kind, s.storeBlock start ws = .aborted kind (s.refusedBlock start ws.length) := by
  unfold State.refusedBlock
  rcases s.storeBlock_cases start ws with ⟨hcheck, hmis, e⟩ | ⟨hal, htop, _⟩ | ⟨hal, _, _, e⟩ | ⟨hal, _, hok, _⟩
  · exact ⟨_, by rw [e, if_pos ⟨hcheck, hmis⟩]⟩
  · obtain ⟨hle, _⟩ := h.resolve_left hal
    omega
  · exact ⟨_, by rw [e, if_neg hal]⟩
  · obtain ⟨_, hrefused⟩ := h.resolve_left hal
    rw [(s.blockAborts_eq_true_iff _ _).2 hrefused] at hok
    cases hok

/-- R73, R233: the bytes that such a block leaves alone. -/
theorem State.memAfterAbort_refusedBlock {s : State} {start : Word} {n : Nat} (h : s.blockRefused start n) :
    memAfterAbort s (s.refusedBlock start n) start n := by
  unfold State.refusedBlock
  split
  · exact ⟨fun _ _ => rfl, fun _ _ _ _ _ => rfl, fun _ _ => rfl⟩
  · rename_i hal
    obtain ⟨htop, _⟩ := h.resolve_left hal
    exact ⟨s.read_putFreeBlock_of_outside _ n (misaligned_alignWord start) htop,
      fun _ hk hrefused _ hb => s.read_putFreeBlock_of_refused (misaligned_alignWord start) htop hk hb hrefused,
      fun hmis => absurd hmis hal⟩

/-- What is said of memory after an abort depends on memory only. -/
theorem memAfterAbort_congr {s t u : State} {start : Word} {n : Nat} (hmem : u.mem = t.mem)
    (h : memAfterAbort s t start n) : memAfterAbort s u start n := by
  simpa only [memAfterAbort, memKeptOutside, memKept, hmem] using h

/-! ## Data Aborts -/

/-- R226: the entry saves the CPSR and the program counter of the state that the instruction started in. -/
theorem tookDataAbort_raise {s u : State} (hpc : u.pc = s.pc) (hcpsr : u.cpsr = s.cpsr)
    (hconfig : u.config = s.config) : tookDataAbort s (u.raise .dataAbort) := by
  refine ⟨?cpsr, ?spsr, ?link, ?vector⟩
  case cpsr => rw [u.raise_cpsr, hcpsr]; rfl
  case spsr => rw [u.raise_spsr, hcpsr]
  case link => rw [u.raise_reg14, hpc]; rfl
  case vector => rw [u.raise_pc, State.vectorBase_congr hconfig]; rfl

/-- A writeback writes the same registers in states that have the same ones and are in the same mode. -/
theorem State.writeback_regs_congr {s u : State} (hregs : u.regs = s.regs) (hmode : u.mode = s.mode)
    (wb : Option (RegNum × Word)) : (u.writeback wb).regs = (s.writeback wb).regs := by
  rcases wb with _ | ⟨rn, v⟩
  · exact hregs
  · simp only [State.writeback, State.setReg]
    split
    · exact hregs
    · simp only [hregs, hmode]

/-- R232: the base register follows the abort model. -/
theorem regsAfterAbort_raise {s u : State} (hregs : u.regs = s.regs) (hmode : u.mode = s.mode)
    (wb : Option (RegNum × Word)) : regsAfterAbort s ((u.baseAfterAbort wb).raise .dataAbort) wb := by
  unfold State.baseAfterAbort
  split
  · rename_i hmodel
    exact ⟨s, .inl ⟨hmodel, rfl⟩, fun i hi => by rw [u.raise_regs_of_ne hi, hregs]⟩
  · rename_i hmodel
    refine ⟨s.writeback wb, .inr ⟨hmodel, rfl⟩, fun i hi => ?_⟩
    rw [State.raise_regs_of_ne _ hi, State.writeback_regs_congr hregs hmode]

/-! ## The base register of addressing mode 5 -/

/-- Going on at another address changes what R15 reads as, and no other register. -/
theorem State.reg_of_pc (s : State) {r : RegNum} (h : r ≠ 15#4) (pc : Word) :
    State.reg { s with pc := pc } r = s.reg r :=
  State.reg_congr_of_ne h rfl rfl

theorem State.mode5_of_writesBack5 (s : State) {index : Index5} (rn : RegNum) (off : BitVec 8)
    (h : writesBack5 index = true) : ∃ v, (s.mode5 index rn off).2 = some (rn, v) := by
  cases index with
  | preIndexed up => exact ⟨_, rfl⟩
  | postIndexed up => exact ⟨_, rfl⟩
  | offset up => cases h
  | unindexed => cases h

theorem State.mode5_of_not_writesBack5 (s : State) {index : Index5} (rn : RegNum) (off : BitVec 8)
    (h : writesBack5 index = false) : (s.mode5 index rn off).2 = none := by
  cases index with
  | preIndexed up => cases h
  | postIndexed up => cases h
  | offset up => rfl
  | unindexed => rfl

/-! ## The coprocessor -/

/-- R234: the coprocessor's state after an abort is the old or the new one, as one constant says for every run. -/
theorem State.coprocAfterAbort_cases (s : State) (cp : BitVec 4) (next : Nat) :
    (Config.coprocAfterAbort = .old ∧ s.coprocAfterAbort cp next = s) ∨
      (Config.coprocAfterAbort = .new ∧ s.coprocAfterAbort cp next = s.setCoprocState cp next) := by
  unfold State.coprocAfterAbort
  split
  · exact .inl ⟨‹_›, rfl⟩
  · exact .inr ⟨‹_›, rfl⟩

/-- R150: the coprocessors after a new state has been given to one of them, told from a state that has the same ones. -/
theorem State.coprocs_of_setCoprocState {s u : State} (h : u.coprocs = s.coprocs) (cp : BitVec 4) (next : Nat) (k : Nat)
    (hk : k < 16) : (u.setCoprocState cp next).coprocs[k] =
      if k = cp.toNat then s.coprocs[k].map fun device => { device with state := next } else s.coprocs[k] := by
  simp only [State.setCoprocState_coprocs, h, eq_comm (a := k)]

/-! ## The ways an accepted STC or STC2 goes on -/

section

variable {s : State} {word : Word} {index : Index5} {rn : RegNum} {cp : BitVec 4} {off : BitVec 8} {ws : List Word}
  {next : Nat} (h : s.askCoprocessor cp word = some (ws, next)) (hrn : writesBack5 index = true → rn ≠ 15#4)

include h hrn

theorem State.storeCoprocessor_of_done {u : State} (hb : s.storeBlock (s.mode5 index rn off).1 ws = .done u) :
    s.storeCoprocessor word index rn cp off =
      ((u.setCoprocState cp next).writeback (s.mode5 index rn off).2).advance := by
  have hr : ¬ (writesBack5 index && rn == 15#4) = true := by simpa using hrn
  simp only [State.storeCoprocessor, h, if_neg hr, hb]

theorem State.storeCoprocessor_of_aborted {u : State} {kind : AbortKind}
    (hb : s.storeBlock (s.mode5 index rn off).1 ws = .aborted kind u) :
    s.storeCoprocessor word index rn cp off =
      .next (((u.coprocAfterAbort cp next).baseAfterAbort (s.mode5 index rn off).2).raise .dataAbort) := by
  have hr : ¬ (writesBack5 index && rn == 15#4) = true := by simpa using hrn
  simp only [State.storeCoprocessor, h, if_neg hr, hb]

end

end Sys2Proof.Machine

namespace Sys2Proof.Proofs

open Sys2Proof.Machine

/-- Settles O34: the block, the coprocessor and the base register are left as the abort leaves them, and then the
exception is entered. -/
theorem stcAborts : Obligations.StcAborts := by
  intro i index long rn crd cp off s ws next hi hacc hrn hrefused
  rw [State.accepts_iff_askCoprocessor] at hacc
  obtain ⟨kind, hblock⟩ := State.storeBlock_of_blockRefused hrefused
  have hwb : wbNotR15 (s.mode5 index rn off).2 := s.mode5_wbNotR15 off (by simpa using hrn)
  refine ⟨_, (exec_eq_storeCoprocessor hi).trans (State.storeCoprocessor_of_aborted hacc hrn hblock), ?abort, ?regs,
    ?memory, ?coprocessor⟩
  case abort =>
    exact tookDataAbort_raise (by rw [State.baseAfterAbort_pc _ hwb]; simp) (by simp) (by simp)
  case regs => exact regsAfterAbort_raise (by simp) (State.mode_congr (by simp) (by simp)) _
  case memory => exact memAfterAbort_congr (by simp) (State.memAfterAbort_refusedBlock hrefused)
  case coprocessor =>
    rw [State.raise_coprocs, State.baseAfterAbort_coprocs]
    rcases State.coprocAfterAbort_cases (s.refusedBlock (s.mode5 index rn off).1 ws.length) cp next with
      ⟨hc, e⟩ | ⟨hc, e⟩
    · exact .inl ⟨hc, by rw [e, State.refusedBlock_coprocs]⟩
    · exact .inr ⟨hc, by rw [e]; exact State.coprocs_of_setCoprocState (by simp) cp next⟩

/-- Settles O32: the words are stored, then the coprocessor's state and the base register are written, each of which
leaves the others alone. -/
theorem stcResult : Obligations.StcResult := by
  intro i index long rn crd cp off s ws next hi hn hacc hrn hallowed
  rw [State.accepts_iff_askCoprocessor] at hacc
  have hwb : wbNotR15 (s.mode5 index rn off).2 := s.mode5_wbNotR15 off (by simpa using hrn)
  have hblock := State.storeBlock_of_blockAllowed hallowed
  have hstored := State.blockStored_putBlock hallowed
  rw [exec_eq_storeCoprocessor hi, State.storeCoprocessor_of_done hacc hrn hblock]
  generalize hu : (s.putBlock (alignWord (s.mode5 index rn off).1) ws).setCoprocState cp next = u
  have hregs : u.regs = s.regs := by simp [← hu]
  have hmode : u.mode = s.mode := State.mode_congr (by simp [← hu]) (by simp [← hu])
  have hpc : (u.writeback (s.mode5 index rn off).2).pc = s.pc := by rw [u.writeback_pc hwb]; simp [← hu]
  rw [State.advance_of_hasNext ((State.hasNext_congr hpc).2 hn)]
  refine ⟨_, rfl, ?stored, ?coprocessors, ?kept, ?base, ?_, ?_, ?_, ?_, ?_, ?went⟩
  case stored => exact blockStored_congr (by simp [← hu]) (by simp [← hu]) hstored
  case coprocessors =>
    rw [State.writeback_coprocs, ← hu]
    exact State.coprocs_of_setCoprocState (by simp) cp next
  case kept =>
    intro hw
    rw [s.mode5_of_not_writesBack5 rn off hw]
    exact hregs
  case base =>
    intro hw
    obtain ⟨v, hv⟩ := s.mode5_of_writesBack5 rn off hw
    rw [hv]
    refine ⟨congrArg (fun w => some (rn, w)) (Eq.symm ?_),
      regsKeptBut_trans (regsKeptBut_of_regs_eq [] hregs) (u.regsKeptBut_setReg rn v (hrn hw)) hmode⟩
    exact ((u.setReg rn v).reg_of_pc (hrn hw) _).trans (u.reg_setReg_same rn v)
  case went => exact ⟨congrArg (· + 4#32) hpc, by simp [← hu]⟩
  all_goals simp [← hu]

end Sys2Proof.Proofs
end

section
/-!
PROOFS. The statements of spec/42_store_multiple.md: the words that STM (1) and STM (2) store and the base register's
value among them (R160 to R163, R168), the Data Abort that they take when a word is turned away (R165), and where they
stop (R167). The block of words is one for both; each adds its own tests before it and its own ending.
-/

namespace Sys2Proof.Machine

/-! ## Register lists -/

/-- R160: the register `j` of a list stands in it after the listed registers with a lower number. -/
theorem listRegs_getElem?_listRank {list : BitVec 16} {j : Nat} (hj : j < 16) (h : list.getLsbD j = true) :
    (listRegs list)[listRank list j]? = some (BitVec.ofNat 4 j) := by
  have hrange : List.range 16 = List.range j ++ j :: (List.range (15 - j)).map (j + 1 + ·) := by
    rw [show 16 = j + 1 + (15 - j) by omega, List.range_add, List.range_succ, List.append_assoc]
    simp
  rw [listRegs, listRank, List.getElem?_map, hrange, List.filter_append, List.filter_cons_of_pos h,
    List.getElem?_append_right (Nat.le_refl _), Nat.sub_self]
  rfl

/-- R162: the base register is not the lowest of a list, said by the bits of the list. -/
theorem baseNotLowest_eq_true_iff {rn : RegNum} {list : BitVec 16} :
    baseNotLowest rn list = true ↔ list.getLsbD rn.toNat = true ∧ ∃ j < rn.toNat, list.getLsbD j = true := by
  simp [baseNotLowest]

theorem list_ne_zero_of_getLsbD {list : BitVec 16} {j : Nat} (h : list.getLsbD j = true) : list ≠ 0#16 := by
  rintro rfl
  simp at h

@[simp] theorem State.length_multipleWords (s : State) (list : BitVec 16) :
    (s.multipleWords list).length = listCount list := by
  rw [State.multipleWords, List.length_map, length_listRegs]

@[simp] theorem State.length_userWords (s : State) (list : BitVec 16) :
    (s.userWords list).length = listCount list := by
  rw [State.userWords, List.length_map, length_listRegs]

theorem State.multipleWords_getElem?_listRank (s : State) {list : BitVec 16} {j : Nat} (hj : j < 16)
    (h : list.getLsbD j = true) : (s.multipleWords list)[listRank list j]? = some (s.stval (BitVec.ofNat 4 j)) := by
  rw [State.multipleWords, List.getElem?_map, listRegs_getElem?_listRank hj h, Option.map_some]

theorem State.userWords_getElem?_listRank (s : State) {list : BitVec 16} {j : Nat} (hj : j < 16)
    (h : list.getLsbD j = true) : (s.userWords list)[listRank list j]? = some (s.userStval (BitVec.ofNat 4 j)) := by
  rw [State.userWords, List.getElem?_map, listRegs_getElem?_listRank hj h, Option.map_some]

theorem State.stval_of_ne (s : State) {r : RegNum} (h : r ≠ 15#4) : s.stval r = s.reg r := if_neg h

/-! ## The block after its tests -/

/-- R117: the writeback of addressing mode 4. -/
def State.writeback4 (s : State) (mode : Mode4) (w : Bool) (rn : RegNum) (list : BitVec 16) : Option (RegNum × Word) :=
  if w then some (rn, final4 mode (s.reg rn) list) else none

theorem State.writeback4_wbNotR15 (s : State) (mode : Mode4) (w : Bool) {rn : RegNum} (list : BitVec 16)
    (hrn : rn ≠ 15#4) : wbNotR15 (s.writeback4 mode w rn list) := by
  intro r v hr
  cases w with
  | false => cases hr
  | true => cases hr; exact hrn

section

variable {s u : State} {mode : Mode4} {w : Bool} {rn : RegNum} {list : BitVec 16}

theorem State.storeMultiple_of_wraps
    (hb : s.storeBlock (start4 mode (s.reg rn) list) (s.multipleWords list) = .wraps) :
    s.storeMultiple mode w rn list = .fault .addressWrap := by
  simp only [State.storeMultiple, hb]

theorem State.storeMultiple_of_aborted {kind : AbortKind}
    (hb : s.storeBlock (start4 mode (s.reg rn) list) (s.multipleWords list) = .aborted kind u) :
    s.storeMultiple mode w rn list = .next ((u.baseAfterAbort (s.writeback4 mode w rn list)).raise .dataAbort) := by
  simp only [State.storeMultiple, hb, State.writeback4]

theorem State.storeMultiple_of_done
    (hb : s.storeBlock (start4 mode (s.reg rn) list) (s.multipleWords list) = .done u) :
    s.storeMultiple mode w rn list = (u.writeback (s.writeback4 mode w rn list)).advance := by
  simp only [State.storeMultiple, hb, State.writeback4]

theorem State.storeUserMultiple_of_wraps
    (hb : s.storeBlock (start4 mode (s.reg rn) list) (s.userWords list) = .wraps) :
    s.storeUserMultiple mode rn list = .fault .addressWrap := by
  simp only [State.storeUserMultiple, hb]

theorem State.storeUserMultiple_of_aborted {kind : AbortKind}
    (hb : s.storeBlock (start4 mode (s.reg rn) list) (s.userWords list) = .aborted kind u) :
    s.storeUserMultiple mode rn list = .next (u.raise .dataAbort) := by
  simp only [State.storeUserMultiple, hb]

theorem State.storeUserMultiple_of_done
    (hb : s.storeBlock (start4 mode (s.reg rn) list) (s.userWords list) = .done u) :
    s.storeUserMultiple mode rn list = State.advance { u with afterStm2 := true } := by
  simp only [State.storeUserMultiple, hb]

end

theorem State.baseAfterAbort_none (s : State) : s.baseAfterAbort none = s := by
  rcases s.baseAfterAbort_cases none with e | e <;> exact e

/-- R226, R232, R233: the Data Abort of an instruction whose block of words is turned away, whatever it writes back. -/
theorem State.refusedBlock_dataAbort {s : State} {start : Word} {n : Nat} {wb : Option (RegNum × Word)}
    (h : s.blockRefused start n) (hwb : wbNotR15 wb) {t : State}
    (ht : t = ((s.refusedBlock start n).baseAfterAbort wb).raise .dataAbort) :
    tookDataAbort s t ∧ regsAfterAbort s t wb ∧ memAfterAbort s t start n ∧ t.coprocs = s.coprocs := by
  subst ht
  refine ⟨?abort, ?regs, ?memory, ?coprocs⟩
  case abort =>
    exact tookDataAbort_raise (by rw [State.baseAfterAbort_pc _ hwb]; simp) (by simp) (by simp)
  case regs => exact regsAfterAbort_raise (by simp) (State.mode_congr (by simp) (by simp)) _
  case memory => exact memAfterAbort_congr (by simp) (State.memAfterAbort_refusedBlock h)
  case coprocs => simp

/-! ## The tests of STM (1) and STM (2), in their order -/

section

variable {c : Cond} {mode : Mode4} {w : Bool} {rn : RegNum} {list : BitVec 16} {s : State}
  (hc : s.condPassed c = true)

include hc

theorem exec_stm1_of_r15Base (hrn : rn = 15#4) : exec (.stm1 c mode w rn list) s = .fault .r15Base := by
  simp only [exec, execStm1, whenPassed_pos _ hc, if_pos hrn]

theorem exec_stm1_of_empty (hrn : rn ≠ 15#4) (hlist : list = 0#16) :
    exec (.stm1 c mode w rn list) s = .fault .emptyRegisterList := by
  simp only [exec, execStm1, whenPassed_pos _ hc, if_neg hrn, if_pos hlist]

theorem exec_stm1_of_baseNotLowest (hrn : rn ≠ 15#4) (hw : w = true) (hbit : list.getLsbD rn.toNat = true)
    (hlower : ∃ j < rn.toNat, list.getLsbD j = true) :
    exec (.stm1 c mode w rn list) s = .fault .baseInListNotLowest := by
  have hbase : (w && baseNotLowest rn list) = true := by simp [hw, baseNotLowest_eq_true_iff, hbit, hlower]
  simp only [exec, execStm1, whenPassed_pos _ hc, if_neg hrn, if_neg (list_ne_zero_of_getLsbD hbit), if_pos hbase]

theorem exec_stm1_of_admitted (hrn : rn ≠ 15#4) (hlist : list ≠ 0#16)
    (hlowest : w = true → list.getLsbD rn.toNat = true → ∀ j < rn.toNat, list.getLsbD j = false) :
    exec (.stm1 c mode w rn list) s = s.storeMultiple mode w rn list := by
  have hbase : ¬ (w && baseNotLowest rn list) = true := by
    rw [Bool.and_eq_true, baseNotLowest_eq_true_iff]
    rintro ⟨hw, hbit, j, hj, hlower⟩
    rw [hlowest hw hbit j hj] at hlower
    cases hlower
  simp only [exec, execStm1, whenPassed_pos _ hc, if_neg hrn, if_neg hlist, if_neg hbase]

theorem exec_stm2_of_userOrSystem (hmode : s.mode = some .user ∨ s.mode = some .system) :
    exec (.stm2 c mode w rn list) s = .fault .stmUserRegsInUserOrSystem := by
  simp only [exec, execStm2, whenPassed_pos _ hc, if_pos hmode]

variable (huser : s.mode ≠ some .user) (hsystem : s.mode ≠ some .system)

include huser hsystem

/-- R167: STM (2) in a mode with its own banked registers, before the tests of its operands. -/
theorem exec_stm2_of_bankedMode : exec (.stm2 c mode w rn list) s =
    if w then .fault .stm2Writeback
    else if rn = 15#4 then .fault .r15Base
    else if list = 0#16 then .fault .emptyRegisterList
    else s.storeUserMultiple mode rn list := by
  simp only [exec, execStm2, whenPassed_pos _ hc, if_neg (not_or.2 ⟨huser, hsystem⟩)]

theorem exec_stm2_of_admitted (hrn : rn ≠ 15#4) (hlist : list ≠ 0#16) :
    exec (.stm2 c mode false rn list) s = s.storeUserMultiple mode rn list := by
  rw [exec_stm2_of_bankedMode hc huser hsystem, if_neg Bool.false_ne_true, if_neg hrn, if_neg hlist]

end

end Sys2Proof.Machine

namespace Sys2Proof.Proofs

open Sys2Proof.Machine

/-- Settles O26: the words are the listed registers by rank, and after the block the base register alone is written. -/
theorem stm1Result : Obligations.Stm1Result := by
  intro cond mode w rn list s hc hn hrn hlist hlowest hallowed
  rw [← s.length_multipleWords list] at hallowed
  rw [exec_stm1_of_admitted hc hrn hlist hlowest,
    State.storeMultiple_of_done (State.storeBlock_of_blockAllowed hallowed)]
  have hstored := State.blockStored_putBlock hallowed
  generalize hu : s.putBlock (alignWord (start4 mode (s.reg rn) list)) (s.multipleWords list) = u at hstored ⊢
  have hregs : u.regs = s.regs := by simp [← hu]
  have hmode : u.mode = s.mode := State.mode_congr (by simp [← hu]) (by simp [← hu])
  have hpc : (u.writeback (s.writeback4 mode w rn list)).pc = s.pc := by
    rw [u.writeback_pc (s.writeback4_wbNotR15 mode w list hrn)]
    simp [← hu]
  rw [State.advance_of_hasNext ((State.hasNext_congr hpc).2 hn)]
  refine ⟨_, s.multipleWords list, rfl, s.length_multipleWords list,
    fun j hj hbit => s.multipleWords_getElem?_listRank hj hbit, ?stored, ?kept, ?base, ?cpsr, ?special, ?went⟩
  case stored => exact blockStored_congr (by simp) (by simp) hstored
  case kept =>
    rintro rfl
    exact hregs
  case base =>
    rintro rfl
    exact ⟨((u.setReg rn _).reg_of_pc hrn _).trans (u.reg_setReg_same rn _),
      regsKeptBut_trans (regsKeptBut_of_regs_eq [] hregs) (u.regsKeptBut_setReg rn _ hrn) hmode⟩
  case cpsr => simp [← hu]
  case special => simp [specialKept, ← hu]
  case went => exact ⟨congrArg (· + 4#32) hpc, by simp [← hu]⟩

/-- Settles O27: with the base admitted, its word is the one that O26 gives at its rank. -/
theorem stm1BaseNotLowest : Obligations.Stm1BaseNotLowest := by
  intro cond mode w rn list s hc hrn hbit
  refine ⟨fun hw hlower => exec_stm1_of_baseNotLowest hc hrn hw hbit hlower, fun hbase hn hallowed => ?_⟩
  have hlowest : w = true → list.getLsbD rn.toNat = true → ∀ j < rn.toNat, list.getLsbD j = false :=
    fun hw _ j hj => Bool.eq_false_iff.2 fun hlower => hbase ⟨hw, j, hj, hlower⟩
  obtain ⟨t, ws, hexec, _, hwords, ⟨hread, _⟩, _⟩ :=
    stm1Result cond mode w rn list s hc hn hrn (list_ne_zero_of_getLsbD hbit) hlowest hallowed
  obtain ⟨hrank, hword⟩ := List.getElem?_eq_some_iff.1 (hwords rn.toNat rn.isLt hbit)
  refine ⟨t, hexec, ?_⟩
  rw [hread _ hrank, hword, BitVec.ofNat_toNat, BitVec.setWidth_eq, s.stval_of_ne hrn]

/-- Settles O28: the block alone changes the state, with the program counter and the restriction of R268. -/
theorem stm2Result : Obligations.Stm2Result := by
  intro cond mode rn list s hc hn huser hsystem hrn hlist hallowed
  rw [← s.length_userWords list] at hallowed
  rw [exec_stm2_of_admitted hc huser hsystem hrn hlist,
    State.storeUserMultiple_of_done (State.storeBlock_of_blockAllowed hallowed),
    State.advance_of_hasNext ((State.hasNext_congr (by simp)).2 hn)]
  refine ⟨_, s.userWords list, rfl, s.length_userWords list,
    fun j hj hbit => s.userWords_getElem?_listRank hj hbit, ?stored, ?regs, ?cpsr, ?special, ?pc, rfl⟩
  case stored => exact blockStored_congr rfl rfl (State.blockStored_putBlock hallowed)
  case special => simp [specialKept]
  all_goals simp

/-- Settles O30: the two instructions take the same Data Abort; STM (2) has no writeback. -/
theorem stmAborts : Obligations.StmAborts := by
  intro cond mode w rn list s hc hrn hlist hrefused
  constructor
  · intro hlowest
    obtain ⟨kind, hblock⟩ := State.storeBlock_of_blockRefused (ws := s.multipleWords list)
      (by rwa [s.length_multipleWords])
    rw [s.length_multipleWords] at hblock
    exact ⟨_, (exec_stm1_of_admitted hc hrn hlist hlowest).trans (State.storeMultiple_of_aborted hblock),
      State.refusedBlock_dataAbort hrefused (s.writeback4_wbNotR15 mode w list hrn) rfl⟩
  · rintro huser hsystem rfl
    obtain ⟨kind, hblock⟩ := State.storeBlock_of_blockRefused (ws := s.userWords list)
      (by rwa [s.length_userWords])
    rw [s.length_userWords] at hblock
    exact ⟨_, (exec_stm2_of_admitted hc huser hsystem hrn hlist).trans (State.storeUserMultiple_of_aborted hblock),
      State.refusedBlock_dataAbort hrefused (by simp [wbNotR15]) (by rw [State.baseAfterAbort_none])⟩

/-- Settles O29: each test stops what those before it let through, and the tests of the block come last. -/
theorem stmStops : Obligations.StmStops := by
  intro cond mode w rn list s hc
  refine ⟨exec_stm1_of_r15Base hc, exec_stm1_of_empty hc, exec_stm1_of_baseNotLowest hc,
    exec_stm2_of_userOrSystem hc, fun huser hsystem => ?_, fun hrn hlist haligned htop => ⟨?_, ?_⟩⟩
  · rw [exec_stm2_of_bankedMode hc huser hsystem]
    exact ⟨fun hw => if_pos hw, fun hw hrn => by rw [hw, if_neg Bool.false_ne_true, if_pos hrn],
      fun hw hrn hlist => by rw [hw, if_neg Bool.false_ne_true, if_neg hrn, if_pos hlist]⟩
  · intro hlowest
    rw [exec_stm1_of_admitted hc hrn hlist hlowest]
    exact State.storeMultiple_of_wraps (State.storeBlock_of_wraps haligned (by rwa [s.length_multipleWords]))
  · rintro huser hsystem rfl
    rw [exec_stm2_of_admitted hc huser hsystem hrn hlist]
    exact State.storeUserMultiple_of_wraps (State.storeBlock_of_wraps haligned (by rwa [s.length_userWords]))

end Sys2Proof.Proofs
end

section
/-!
PROOFS. The statements of spec/43_store_register.md: what STR, STRB and STRT store and write back (R170 to R172, R175,
R178), and the Data Abort that they take when the access is turned away (R177). The three share one store with
writeback, which is told once for the access let through and once for the access turned away; each adds its size, its
privilege and its address.
-/

namespace Sys2Proof.Machine

/-! ## Accesses that are let through -/

/-- R55, R58: a word access is let through where neither the alignment check nor the memory system turns it away. -/
theorem State.accessAbort_word_eq_none_iff {s : State} {pr : Privilege} {kind : AccessKind} {addr : Word} :
    s.accessAbort pr .word kind addr = none ↔ s.wordAllowed pr kind addr := by
  rw [State.wordAllowed, ← Bool.and_eq_true]
  by_cases hmis : (s.config.alignCheck && misaligned addr) = true <;> simp [State.accessAbort, hmis]

/-- R55: a byte access has no alignment check. -/
theorem State.accessAbort_byte_eq_none_iff {s : State} {pr : Privilege} {kind : AccessKind} {addr : Word} :
    s.accessAbort pr .byte kind addr = none ↔ s.byteAllowed pr kind addr := by
  simp [State.accessAbort, State.byteAllowed]

/-! ## What one store does to memory -/

@[simp] theorem State.put_word (s : State) (a w : Word) : s.put .word a w = s.putWord a w := rfl

@[simp] theorem State.put_byte (s : State) (a v : Word) : s.put .byte a v = s.putByte a (v.extractLsb' 0 8) := rfl

/-- R54: one stored word is a block of one. -/
theorem State.putWord_eq_putBlock (s : State) (a w : Word) : s.putWord a w = s.putBlock (alignWord a) [w] := by
  simp [State.putBlock, State.putWord]

theorem State.blockStored_putWord (s : State) (a w : Word) : blockStored s (s.putWord a w) a [w] := by
  have hmis : misaligned (alignWord a) = false := misaligned_alignWord a
  have htop : (alignWord a).toNat + 4 * [w].length ≤ 2 ^ 32 := alignWord_lt a
  rw [s.putWord_eq_putBlock]
  exact ⟨s.readWord_putBlock _ _ hmis htop, s.memKeptOutside_putBlock _ _ hmis htop,
    s.mem_stored_putBlock _ _ hmis htop⟩

theorem State.memKeptOutside_putByte (s : State) (a : Word) (b : Byte) :
    memKeptOutside s (s.putByte a b) a.toNat 1 :=
  fun _ hk => Memory.read_write_of_ne _ _ (by omega)

/-- R71: the word that a stored byte lies in counts as stored to. -/
theorem State.storedGrows_putByte (s : State) (a : Word) (b : Byte) :
    storedGrows s (s.putByte a b) (alignWord a).toNat 1 := by
  intro k
  rw [s.putByte_stored, mem_insertRising, or_comm]
  simp

/-! ## One store, let through -/

/-- R170 to R172: the state after a store that is let through: the value stored, the base register written back, and the
program counter at the next instruction. -/
def State.afterStore (s : State) (sz : AccessSize) (addr v : Word) (wb : Option (RegNum × Word)) : State :=
  { (s.put sz addr v).writeback wb with pc := s.pc + 4#32 }

section

variable (s : State) (sz : AccessSize) (addr v : Word)

theorem State.storeOne_of_allowed {pr : Privilege} {wb : Option (RegNum × Word)}
    (h : s.accessAbort pr sz .write addr = none) (hwb : wbNotR15 wb) (hn : s.hasNext) :
    s.storeOne pr sz addr v wb = .next (s.afterStore sz addr v wb) := by
  have hpc : ((s.put sz addr v).writeback wb).pc = s.pc := by rw [State.writeback_pc _ hwb, State.put_pc]
  rw [State.storeOne, State.memWrite_of_ok v h, State.afterStore, ← hpc]
  exact State.advance_of_hasNext ((State.hasNext_congr hpc).2 hn)

section

variable (wb : Option (RegNum × Word))

@[simp] theorem State.afterStore_mem : (s.afterStore sz addr v wb).mem = (s.put sz addr v).mem := by
  simp [State.afterStore]

@[simp] theorem State.afterStore_stored : (s.afterStore sz addr v wb).stored = (s.put sz addr v).stored := by
  simp [State.afterStore]

@[simp] theorem State.afterStore_cpsr : (s.afterStore sz addr v wb).cpsr = s.cpsr := by simp [State.afterStore]

theorem State.afterStore_specialKept : specialKept s (s.afterStore sz addr v wb) := by
  simp [specialKept, State.afterStore]

theorem State.afterStore_wentOn : wentOn s (s.afterStore sz addr v wb) := ⟨rfl, by simp [State.afterStore]⟩

/-- R54, R56, R71: of what a store does, memory and the record of stores show the word alone. -/
theorem State.afterStore_blockStored : blockStored s (s.afterStore .word addr v wb) addr [v] :=
  blockStored_congr (by simp) (by simp) (s.blockStored_putWord addr v)

end

theorem State.afterStore_none_regs : (s.afterStore sz addr v none).regs = s.regs := s.put_regs sz addr v

variable {rn : RegNum} (base : Word) (hrn : rn ≠ 15#4)

include hrn

theorem State.afterStore_some_reg : (s.afterStore sz addr v (some (rn, base))).reg rn = base :=
  (State.reg_of_pc _ hrn _).trans (State.reg_setReg_same _ rn base)

theorem State.afterStore_some_regsKeptBut : regsKeptBut s (s.afterStore sz addr v (some (rn, base))) [rn] :=
  regsKeptBut_trans (regsKeptBut_of_regs_eq [] (s.put_regs sz addr v)) (State.regsKeptBut_setReg _ rn base hrn)
    (State.mode_congr (s.put_cpsr sz addr v) (s.put_config sz addr v))

end

/-! ## One store, turned away -/

/-- R177, R226, R232: a store that is turned away leaves memory alone and takes a Data Abort. -/
theorem State.storeOne_of_refused {s : State} {pr : Privilege} {sz : AccessSize} {addr : Word}
    {wb : Option (RegNum × Word)} (v : Word) (h : s.accessAbort pr sz .write addr ≠ none) (hwb : wbNotR15 wb) :
    ∃ t, s.storeOne pr sz addr v wb = .next t ∧ tookDataAbort s t ∧ storesNothing s t ∧ regsAfterAbort s t wb := by
  obtain ⟨kind, hkind⟩ := Option.ne_none_iff_exists'.1 h
  refine ⟨(s.baseAfterAbort wb).raise .dataAbort, ?answer, ?abort, ⟨fun _ => ?memory, ?stored⟩, ?regs⟩
  case answer => rw [State.storeOne, State.memWrite_of_abort v hkind]
  case abort => exact tookDataAbort_raise (s.baseAfterAbort_pc hwb) (by simp) (by simp)
  case memory => simp
  case stored => simp
  case regs => exact regsAfterAbort_raise rfl rfl wb

/-! ## The base register of addressing mode 2 -/

theorem State.opnd_of_ne (s : State) {r : RegNum} (h : r ≠ 15#4) : s.opnd r = s.reg r := if_neg h

theorem State.writeback2_of_ne_offset (s : State) {index : Index2} (up : Bool) (rn : RegNum) (offset : Offset2)
    (h : index ≠ .offset) : s.writeback2 index up rn offset = some (rn, s.idx2 up rn offset) :=
  if_pos ((writesBack2_eq_true_iff index).2 h)

/-- R112: the registers after a store, by index kind. -/
theorem State.afterStore_writeback2 (s : State) (sz : AccessSize) (addr v : Word) {index : Index2} (up : Bool)
    {rn : RegNum} (offset : Offset2) (hrn : index ≠ .offset → rn ≠ 15#4) {t : State}
    (ht : t = s.afterStore sz addr v (s.writeback2 index up rn offset)) :
    (index = .offset → t.regs = s.regs) ∧
      (index ≠ .offset → t.reg rn = s.idx2 up rn offset ∧ regsKeptBut s t [rn]) := by
  subst ht
  refine ⟨?_, fun hindex => ?_⟩
  · rintro rfl
    exact s.afterStore_none_regs sz addr v
  · rw [s.writeback2_of_ne_offset up rn offset hindex]
    exact ⟨s.afterStore_some_reg sz addr v _ (hrn hindex), s.afterStore_some_regsKeptBut sz addr v _ (hrn hindex)⟩

/-! ## The forms that the tests let through -/

/-- R113, R174: a form of addressing mode 2 with its stored register: an index register other than R15, and with
writeback a base register that is neither R15, the index register nor the stored one. -/
def admits2 (index : Index2) (rn rd : RegNum) (offset : Offset2) : Prop :=
  offset2Rm offset ≠ some 15#4 ∧ (index ≠ .offset → rn ≠ 15#4 ∧ offset2Rm offset ≠ some rn ∧ rd ≠ rn)

section

variable {index : Index2} {rn rd : RegNum} {offset : Offset2} (h : admits2 index rn rd offset)

include h

theorem fault2_of_admits2 : fault2 (writesBack2 index) rn offset = none := by
  obtain ⟨h15, hbase⟩ := h
  cases hw : writesBack2 index with
  | false => simp [fault2, h15]
  | true =>
    obtain ⟨hrn, hrm, _⟩ := hbase ((writesBack2_eq_true_iff index).1 hw)
    exact fault2_eq_none hrn h15 hrm

theorem rdTest_of_admits2 : ¬ (writesBack2 index && rd == rn) = true := by
  rw [Bool.and_eq_true, writesBack2_eq_true_iff, beq_iff_eq]
  rintro ⟨hindex, hrd⟩
  obtain ⟨_, _, hne⟩ := h.2 hindex
  exact hne hrd

theorem State.writeback2_wbNotR15_of_admits2 (s : State) (up : Bool) : wbNotR15 (s.writeback2 index up rn offset) :=
  s.writeback2_wbNotR15 (fault2_of_admits2 h)

variable {s : State} {c : Cond} (up : Bool) (hc : s.condPassed c = true)

include hc

theorem exec_str_of_admits2 : exec (.str c index up rn rd offset) s =
    s.storeOne s.privilege .word (s.address2 index up rn offset) (s.stval rd) (s.writeback2 index up rn offset) := by
  simp only [exec, execStr, whenPassed_pos _ hc, fault2_of_admits2 h, if_neg (rdTest_of_admits2 h)]

theorem exec_strb_of_admits2 (hrd : rd ≠ 15#4) : exec (.strb c index up rn rd offset) s =
    s.storeOne s.privilege .byte (s.address2 index up rn offset) (s.reg rd) (s.writeback2 index up rn offset) := by
  simp only [exec, execStrb, whenPassed_pos _ hc, if_neg hrd, fault2_of_admits2 h, if_neg (rdTest_of_admits2 h)]

end

/-- R172: STRT is the post-indexed store with User privilege. -/
theorem exec_strt_of_admits2 {rn rd : RegNum} {offset : Offset2} {s : State} {c : Cond} (up : Bool)
    (h : admits2 .postIndexed rn rd offset) (hc : s.condPassed c = true) : exec (.strt c up rn rd offset) s =
      s.storeOne .user .word (s.reg rn) (s.stval rd) (some (rn, s.idx2 up rn offset)) := by
  obtain ⟨hrn, _, hrd⟩ := h.2 nofun
  have hf : fault2 true rn offset = none := fault2_of_admits2 h
  simp only [exec, execStrt, whenPassed_pos _ hc, hf, if_neg hrd, State.address2, s.opnd_of_ne hrn]
  rfl

end Sys2Proof.Machine

namespace Sys2Proof.Proofs

open Sys2Proof.Machine

/-- Settles O20: the word and the base register are written by operations that leave each other's field alone. -/
theorem strResult : Obligations.StrResult := by
  intro cond index up rn rd offset s hc hn h15 hbase hallowed
  have h : admits2 index rn rd offset := ⟨h15, hbase⟩
  rw [exec_str_of_admits2 h up hc, s.storeOne_of_allowed _ _ _ (State.accessAbort_word_eq_none_iff.2 hallowed)
    (s.writeback2_wbNotR15_of_admits2 h up) hn]
  obtain ⟨hoffset, hindexed⟩ := s.afterStore_writeback2 .word (s.address2 index up rn offset) (s.stval rd) up offset
    (fun hindex => (hbase hindex).1) rfl
  exact ⟨_, rfl, s.afterStore_blockStored _ _ _, hoffset, hindexed, by simp, s.afterStore_specialKept _ _ _ _,
    s.afterStore_wentOn _ _ _ _⟩

/-- Settles O21: as O20, with the one byte for the word. -/
theorem strbResult : Obligations.StrbResult := by
  rintro cond index up rn rd offset s addr hc hn hrd h15 hbase rfl hallowed
  have h : admits2 index rn rd offset := ⟨h15, hbase⟩
  rw [exec_strb_of_admits2 h up hc hrd, s.storeOne_of_allowed _ _ _ (State.accessAbort_byte_eq_none_iff.2 hallowed)
    (s.writeback2_wbNotR15_of_admits2 h up) hn]
  obtain ⟨hoffset, hindexed⟩ := s.afterStore_writeback2 .byte (s.address2 index up rn offset) (s.reg rd) up offset
    (fun hindex => (hbase hindex).1) rfl
  refine ⟨_, rfl, ?byte, ?outside, ?stored, hoffset, hindexed, by simp, s.afterStore_specialKept _ _ _ _,
    s.afterStore_wentOn _ _ _ _⟩
  case byte => simp
  case outside =>
    simpa only [memKeptOutside, State.afterStore_mem, State.put_byte] using s.memKeptOutside_putByte _ _
  case stored =>
    simpa only [storedGrows, State.afterStore_stored, State.put_byte] using s.storedGrows_putByte _ _

/-- Settles O22: as O20 in the post-indexed kind, with the privilege that STRT gives its access. -/
theorem strtResult : Obligations.StrtResult := by
  intro cond up rn rd offset s hc hn hrn h15 hrm hrd hallowed
  have h : admits2 .postIndexed rn rd offset := ⟨h15, fun _ => ⟨hrn, hrm, hrd⟩⟩
  have hwb : wbNotR15 (some (rn, s.idx2 up rn offset)) := s.writeback2_wbNotR15_of_admits2 h up
  rw [exec_strt_of_admits2 up h hc,
    s.storeOne_of_allowed _ _ _ (State.accessAbort_word_eq_none_iff.2 hallowed) hwb hn]
  exact ⟨_, rfl, s.afterStore_blockStored _ _ _, s.afterStore_some_reg _ _ _ _ hrn,
    s.afterStore_some_regsKeptBut _ _ _ _ hrn, by simp, s.afterStore_specialKept _ _ _ _, s.afterStore_wentOn _ _ _ _⟩

/-- Settles O24: the three differ only in the access that is turned away. -/
theorem storeAborts : Obligations.StoreAborts := by
  intro cond index up rn rd offset s hc h15 hbase
  have h : admits2 index rn rd offset := ⟨h15, hbase⟩
  have hwb := s.writeback2_wbNotR15_of_admits2 h up
  refine ⟨fun hrefused => ?str, fun hrd hrefused => ?strb, fun hindex hrefused => ?strt⟩
  case str =>
    rw [exec_str_of_admits2 h up hc]
    exact State.storeOne_of_refused _ (mt State.accessAbort_word_eq_none_iff.1 hrefused) hwb
  case strb =>
    rw [exec_strb_of_admits2 h up hc hrd]
    exact State.storeOne_of_refused _ (mt State.accessAbort_byte_eq_none_iff.1 hrefused) hwb
  case strt =>
    subst hindex
    rw [exec_strt_of_admits2 up h hc]
    exact State.storeOne_of_refused _ (mt State.accessAbort_word_eq_none_iff.1 hrefused) hwb

end Sys2Proof.Proofs
end

section
/-!
PROOFS. The statements of spec/44_data_processing.md: what SUB, TEQ and TST leave in their register and in the flags (R185 to
R187, R189), the branch and the exception return of a SUB to R15 (R185, R188), and the ways an instruction transfers
control (R193).
-/

namespace Sys2Proof.Machine

/-! ## The flags of SUBS -/

section

variable (p a b : Word)

/-- R189: C is NOT borrow. -/
theorem not_borrowFrom_eq : (!borrowFrom a b) = decide (b.toNat ≤ a.toNat) := by
  rw [borrowFrom, ← decide_not, decide_eq_decide, Nat.not_lt]

/-- R185: the flags of SUBS, said of the operands and the signs. -/
theorem subFlags_eq : subFlags p a b =
    psrWithFlags p (a - b).msb (decide (a = b)) (decide (b.toNat ≤ a.toNat)) (a.msb != b.msb && (a - b).msb != a.msb) := by
  have hzero : a - b = 0#32 ↔ a = b := sub_eq_zero
  simp only [subFlags, hzero, not_borrowFrom_eq, overflowFromSub_eq]

@[simp] theorem psrN_subFlags : psrN (subFlags p a b) = (a - b).msb := psrN_withFlags ..

@[simp] theorem psrZ_subFlags : psrZ (subFlags p a b) = decide (a = b) := by rw [subFlags_eq, psrZ_withFlags]

@[simp] theorem psrC_subFlags : psrC (subFlags p a b) = decide (b.toNat ≤ a.toNat) := by
  rw [subFlags_eq, psrC_withFlags]

@[simp] theorem psrV_subFlags : psrV (subFlags p a b) = overflowFromSub a b := psrV_withFlags ..

/-- R13, R88: the sign of a difference is that of the exact difference unless it overflows, so N differs from V exactly where
the exact difference is negative. -/
theorem msb_sub_bne_overflow : ((a - b).msb != overflowFromSub a b) = decide (a.toInt < b.toInt) := by
  have ha := And.intro a.le_toInt a.toInt_lt
  have hb := And.intro b.le_toInt b.toInt_lt
  rw [BitVec.msb_eq_toInt, BitVec.toInt_sub, Int.bmod_def, overflowFromSub, Bool.eq_iff_iff]
  rcases lt_or_ge a.toInt b.toInt with h | h
  · simp only [h, bne_iff_ne, ne_eq, decide_eq_decide, decide_true, iff_true, not_iff]
    split_ifs <;> omega
  · simp only [Int.not_lt.2 h, bne_iff_ne, ne_eq, decide_eq_decide, decide_false, Bool.false_eq_true, iff_false, not_not]
    split_ifs <;> omega

/-- R88, R189: the conditions on C and Z compare the operands as unsigned numbers. -/
theorem condHolds_subFlags_unsigned :
    condHolds .cs (subFlags p a b) = decide (b.toNat ≤ a.toNat) ∧
      condHolds .cc (subFlags p a b) = decide (a.toNat < b.toNat) ∧
      condHolds .hi (subFlags p a b) = decide (b.toNat < a.toNat) ∧
      condHolds .ls (subFlags p a b) = decide (a.toNat ≤ b.toNat) := by
  have hsame : a = b ↔ a.toNat = b.toNat := BitVec.toNat_inj.symm
  simp only [condHolds, psrZ_subFlags, psrC_subFlags, hsame, ← decide_not, ← Bool.decide_and, ← Bool.decide_or,
    decide_eq_decide, true_and]
  omega

/-- R88: the conditions on N, V and Z compare the operands as signed numbers. -/
theorem condHolds_subFlags_signed :
    condHolds .ge (subFlags p a b) = decide (b.toInt ≤ a.toInt) ∧
      condHolds .lt (subFlags p a b) = decide (a.toInt < b.toInt) ∧
      condHolds .gt (subFlags p a b) = decide (b.toInt < a.toInt) ∧
      condHolds .le (subFlags p a b) = decide (a.toInt ≤ b.toInt) := by
  have hsame : a = b ↔ a.toInt = b.toInt := BitVec.toInt_inj.symm
  have hlt := msb_sub_bne_overflow a b
  have hge : ((a - b).msb == overflowFromSub a b) = !decide (a.toInt < b.toInt) := by rw [← hlt, bne, Bool.not_not]
  simp only [condHolds, psrN_subFlags, psrZ_subFlags, psrV_subFlags, hlt, hge, hsame, ← decide_not, ← Bool.decide_and,
    ← Bool.decide_or, decide_eq_decide, true_and]
  omega

end

/-! ## SUB to a register other than R15 -/

/-- R25: going on from a state with the program counter of `s`. -/
theorem State.advance_of_pc {s u : State} (hn : s.hasNext) (hpc : u.pc = s.pc) :
    u.advance = .next { u with pc := s.pc + 4#32 } := by
  rw [State.advance_of_hasNext ((State.hasNext_congr hpc).2 hn), hpc]

/-- R185: the state after a SUB that writes a register and goes on. -/
def State.subDone (s : State) (setFlags : Bool) (rd : RegNum) (a b : Word) : State :=
  { s.setReg rd (a - b) with
    cpsr := if setFlags then subFlags s.cpsr a b else s.cpsr
    pc := s.pc + 4#32 }

section

variable (s : State) (setFlags : Bool) {rd : RegNum} (a b : Word)

theorem State.subDone_regs : (s.subDone setFlags rd a b).regs = (s.setReg rd (a - b)).regs := rfl

theorem State.subDone_keepsBelowFlags : psrKeptBelowFlags s (s.subDone setFlags rd a b) := by
  cases setFlags with
  | false => rfl
  | true => exact below_subFlags ..

theorem State.subDone_storesNothing : storesNothing s (s.subDone setFlags rd a b) := by
  simp [storesNothing, memKept, State.subDone]

theorem State.subDone_specialKept : specialKept s (s.subDone setFlags rd a b) := by simp [specialKept, State.subDone]

theorem State.subDone_wentOn : wentOn s (s.subDone setFlags rd a b) := ⟨rfl, by simp [State.subDone]⟩

theorem State.subDone_mode : (s.subDone setFlags rd a b).mode = s.mode :=
  State.mode_of_psrM (psrM_of_psrKeptBelowFlags (s.subDone_keepsBelowFlags setFlags a b)) (by simp [State.subDone])

variable (hrd : rd ≠ 15#4)

include hrd

theorem State.subDone_reg : (s.subDone setFlags rd a b).reg rd = a - b := by
  have hmode : (s.subDone setFlags rd a b).mode = (s.setReg rd (a - b)).mode := by
    rw [State.subDone_mode, State.setReg_mode]
  rw [State.reg_congr_of_ne hrd (s.subDone_regs setFlags a b) hmode, State.reg_setReg_same]

theorem State.subDone_regsKeptBut : regsKeptBut s (s.subDone setFlags rd a b) [rd] :=
  s.regsKeptBut_setReg rd (a - b) hrd

/-- R185: on operands that R106 admits, SUB answers that state. -/
theorem exec_sub_eq_subDone {c : Cond} {rn : RegNum} {operand : Operand1} (hc : s.condPassed c = true) (hn : s.hasNext)
    (h15 : operand1NamesR15 operand [rn, rd] = false) :
    exec (.sub c setFlags rn rd operand) s =
      .next (s.subDone setFlags rd (s.opnd rn) (s.shifterOperand operand).1) := by
  have hpc : (s.setReg rd (s.opnd rn - (s.shifterOperand operand).1)).pc = s.pc := s.setReg_pc _ _ hrd
  simp only [exec, execSub, whenPassed_pos _ hc, h15, Bool.false_eq_true, if_false, if_neg hrd]
  cases setFlags with
  | false =>
    rw [if_neg Bool.false_ne_true, State.advance_of_pc hn hpc]
    simp [State.subDone]
  | true =>
    rw [if_pos rfl, State.advance_of_pc hn]
    · rfl
    · exact hpc

end

/-! ## SUB to R15 -/

section

variable {s : State} {c : Cond} {rn : RegNum} {operand : Operand1} (hc : s.condPassed c = true)
  (h15 : operand1NamesR15 operand [rn, 15#4] = false)

include hc h15

/-- R185: a SUB to R15 with S = 0 is a branch. -/
theorem exec_sub_pc_eq_branchTo :
    exec (.sub c false rn 15#4 operand) s = s.branchTo (s.opnd rn - (s.shifterOperand operand).1) := by
  simp [exec, execSub, whenPassed_pos _ hc, h15]

/-- R185, R188: a SUB to R15 with S = 1 is a return from an exception. -/
theorem exec_subs_pc_eq_exceptionReturn :
    exec (.sub c true rn 15#4 operand) s = s.exceptionReturn (s.opnd rn - (s.shifterOperand operand).1) := by
  simp [exec, execSub, whenPassed_pos _ hc, h15]

end

section

variable {s : State} {v : Word}

theorem State.branchTo_of_aligned (h : misaligned v = false) : s.branchTo v = .next { s with pc := v } := by
  simp [State.branchTo, h]

theorem State.branchTo_of_misaligned (h : misaligned v = true) : s.branchTo v = .fault .unalignedPC := if_pos h

/-- R34: the SPSR of a mode that has one. -/
theorem State.spsr_of_mode {m : Mode} {k : Fin 5} (hm : s.mode = some m) (hk : m.spsrIndex = some k) :
    s.spsr = some s.spsrs[k.val] := by
  simp [State.spsr, hm, hk]

/-- R34: User and System mode have no SPSR. -/
theorem State.spsr_eq_none (h : s.mode = some .user ∨ s.mode = some .system) : s.spsr = none := by
  rcases h with h | h <;> simp [State.spsr, h, Mode.spsrIndex]

theorem State.exceptionReturn_of_spsr_none (h : s.spsr = none) : s.exceptionReturn v = .fault .noSPSR := by
  rw [State.exceptionReturn, h]

variable {saved : Word} (h : s.spsr = some saved)

include h

theorem State.exceptionReturn_of_thumb (hT : psrT saved = true) : s.exceptionReturn v = .refused .thumbState := by
  simp [State.exceptionReturn, h, hT]

variable (hT : psrT saved = false)

include hT

theorem State.exceptionReturn_of_not_isModeNumber (hM : ¬ isModeNumber s.config.arch (psrM saved)) :
    s.exceptionReturn v = .fault .badMode := by
  rw [← Mode.ofBitsIn_ne_none_iff, not_not] at hM
  simp [State.exceptionReturn, h, hT, hM]

variable (hM : isModeNumber s.config.arch (psrM saved))

include hM

/-- R185: past the tests of the SPSR, what is left is whether the target is word aligned. -/
theorem State.exceptionReturn_of_isModeNumber : s.exceptionReturn v =
    if misaligned v then .fault .unalignedPC else .next { s with cpsr := saved, pc := v } := by
  rw [← Mode.ofBitsIn_ne_none_iff] at hM
  simp [State.exceptionReturn, h, hT, hM]

end

/-! ## TEQ and TST -/

/-- R186, R187: the state after a TEQ or TST whose two values combine to `x`. -/
def State.logicDone (s : State) (x : Word) (carry : Bool) : State :=
  { s with cpsr := logicFlags s.cpsr x carry, pc := s.pc + 4#32 }

/-- R186, R187: on operands that R106 admits, with a zero SBZ field, the test answers that state. -/
theorem State.logicTest_eq_logicDone {s : State} {c : Cond} {rn : RegNum} {operand : Operand1} (x : Word)
    (hc : s.condPassed c = true) (hn : s.hasNext) (h15 : operand1NamesR15 operand [rn] = false) :
    s.logicTest c rn 0#4 operand x = .next (s.logicDone x (s.shifterOperand operand).2) := by
  rw [State.logicTest, whenPassed_pos _ hc, if_neg (by simp), if_neg (by simp [h15])]
  exact State.advance_of_hasNext ((State.hasNext_congr rfl).2 hn)

/-- R186, R187: what the two instructions share: N and Z from the combined value, C from the shifter, and all else kept. -/
theorem State.logicDone_result (s : State) (x : Word) (carry : Bool) {t : State} (ht : t = s.logicDone x carry) :
    psrN t.cpsr = x.msb ∧ psrZ t.cpsr = decide (x = 0#32) ∧ psrC t.cpsr = carry ∧ psrV t.cpsr = psrV s.cpsr ∧
      psrKeptBelowFlags s t ∧ t.regs = s.regs ∧ storesNothing s t ∧ specialKept s t ∧ wentOn s t := by
  subst ht
  exact ⟨psrN_withFlags .., psrZ_withFlags .., psrC_withFlags .., psrV_withFlags .., below_logicFlags .., rfl,
    ⟨fun _ => rfl, rfl⟩, ⟨rfl, rfl, rfl, rfl, rfl⟩, rfl, rfl⟩

end Sys2Proof.Machine

namespace Sys2Proof.Proofs

open Sys2Proof.Machine

/-- Settles O9: the difference is written first, then the flags of the operands as they were. -/
theorem subResult : Obligations.SubResult := by
  rintro c setFlags rn rd operand s a b hc hn hrd h15 rfl rfl
  rw [exec_sub_eq_subDone s setFlags hrd hc hn h15]
  refine ⟨_, rfl, ?difference, ?flags, s.subDone_regsKeptBut setFlags _ _ hrd, s.subDone_storesNothing setFlags _ _,
    s.subDone_specialKept setFlags _ _, s.subDone_wentOn setFlags _ _⟩
  case difference =>
    have hb := (s.shifterOperand operand).1.isLt
    rw [s.subDone_reg setFlags _ _ hrd, BitVec.toNat_sub]
    omega
  case flags =>
    rw [s.subDone_reg setFlags _ _ hrd, ← subFlags_eq]
    rfl

/-- Settles O13: the flags that SUBS leaves tell equality, the unsigned order and the signed order of its operands. -/
theorem comparisonAfterSubs : Obligations.ComparisonAfterSubs := by
  rintro c rn rd operand s a b hc hn hrd h15 rfl rfl
  rw [exec_sub_eq_subDone s true hrd hc hn h15]
  generalize s.opnd rn = a, (s.shifterOperand operand).1 = b
  have hsame : condHolds .eq (subFlags s.cpsr a b) = decide (a = b) := psrZ_subFlags ..
  have hne : condHolds .ne (subFlags s.cpsr a b) = decide (a ≠ b) := by rw [decide_not, ← hsame]; rfl
  obtain ⟨hcs, hcc, hhi, hls⟩ := condHolds_subFlags_unsigned s.cpsr a b
  exact ⟨_, rfl, hsame, hne, hcs, hcc, hhi, hls, condHolds_subFlags_signed s.cpsr a b⟩

/-- Settles O14: the two instructions are one test on two combinations of the values. -/
theorem teqTstResult : Obligations.TeqTstResult := by
  rintro c rn operand s a b carry hc hn h15 rfl hop
  have hb : (s.shifterOperand operand).1 = b := by rw [← hop]
  have hcarry : (s.shifterOperand operand).2 = carry := by rw [← hop]
  have hexec (x : Word) : s.logicTest c rn 0#4 operand x = .next (s.logicDone x carry) := by
    rw [State.logicTest_eq_logicDone x hc hn h15, hcarry]
  simp only [exec, execTeq, execTst, hb, hexec]
  refine ⟨⟨_, rfl, ?teq⟩, ⟨_, rfl, ?tst⟩⟩
  case teq =>
    have hzero : s.opnd rn ^^^ b = 0#32 ↔ s.opnd rn = b := BitVec.xor_eq_zero_iff
    rw [← BitVec.msb_xor, ← decide_eq_decide.2 hzero]
    exact s.logicDone_result _ _ rfl
  case tst =>
    rw [← BitVec.msb_and]
    exact s.logicDone_result _ _ rfl

/-- Settles O55: of the four ways that an instruction ends, two are a SUB to R15 with an aligned target. -/
theorem controlTransfer : Obligations.ControlTransfer := by
  intro i s t h
  rcases exec_next h with ⟨u, hk, _, hn, rfl⟩ | ⟨c, rn, op, _, hi, hp, rfl⟩ | ⟨c, rn, op, _, _, hi, _, _, _, hp, rfl⟩ |
    ⟨e, u, hk, hc, rfl⟩
  case inl => exact .inl ⟨(State.hasNext_congr hk.pc).1 hn, congrArg (· + 4#32) hk.pc⟩
  case inr.inl => exact .inr (.inl ⟨c, false, rn, op, hi, hp⟩)
  case inr.inr.inl => exact .inr (.inl ⟨c, true, rn, op, hi, hp⟩)
  case inr.inr.inr => exact .inr (.inr ⟨e, raise_of_keeps e hk hc⟩)

/-- Settles O10. -/
theorem subBranch : Obligations.SubBranch := by
  rintro c rn operand s v hc h15 rfl
  rw [exec_sub_pc_eq_branchTo hc h15]
  exact ⟨State.branchTo_of_aligned, State.branchTo_of_misaligned⟩

/-- Settles O11: every test of an exception return is passed. -/
theorem exceptionReturn : Obligations.ExceptionReturn := by
  rintro c rn operand s m k v hc h15 hm hk hT hM rfl haligned
  rw [exec_subs_pc_eq_exceptionReturn hc h15, State.exceptionReturn_of_isModeNumber (State.spsr_of_mode hm hk) hT hM,
    if_neg (by simp [haligned])]

/-- Settles O12: one test of an exception return for each stop, in the order of R185. -/
theorem exceptionReturnStops : Obligations.ExceptionReturnStops := by
  intro c rn operand s hc h15
  rw [exec_subs_pc_eq_exceptionReturn hc h15]
  refine ⟨fun hm => State.exceptionReturn_of_spsr_none (State.spsr_eq_none hm), fun m k hm hk => ?_⟩
  have hspsr := State.spsr_of_mode hm hk
  refine ⟨State.exceptionReturn_of_thumb hspsr, State.exceptionReturn_of_not_isModeNumber hspsr, fun hT hM hmis => ?_⟩
  rw [State.exceptionReturn_of_isModeNumber hspsr hT hM, if_pos hmis]

end Sys2Proof.Proofs
end

section
/-!
PROOFS. The statement of spec/45_software_interrupt.md: SWI is the entry sequence of its exception (R200, R201, R203), over
what any exception entry (R222) leaves in the CPSR, in the program counter and in memory.
-/

namespace Sys2Proof.Machine

/-! ## What an exception entry leaves -/

section

variable (s : State) (e : Exc)

/-- R222: ARM state, F set for FIQ alone, I set, and the bits above the control byte as they were. -/
theorem State.raise_cpsr_bits :
    psrT (s.raise e).cpsr = false ∧ psrF (s.raise e).cpsr = (e.setsF || psrF s.cpsr) ∧
      psrI (s.raise e).cpsr = true ∧ (s.raise e).cpsr.extractLsb' 8 24 = s.cpsr.extractLsb' 8 24 := by
  rw [s.raise_cpsr]
  exact ⟨psrT_onEntry .., psrF_onEntry .., psrI_onEntry .., above_onEntry ..⟩

/-- R221: the vector, in the low and in the high table. -/
theorem State.raise_pc_eq_ite : (s.raise e).pc =
    if s.config.highVectors then 0xFFFF0000#32 + e.vectorOffset else 0x00000000#32 + e.vectorOffset := by
  rw [s.raise_pc, State.vectorBase, ite_add]

theorem State.raise_storesNothing : storesNothing s (s.raise e) :=
  ⟨fun a => congrArg (Memory.read · a) (s.raise_mem e), s.raise_stored e⟩

end

/-- R200, R201: SWI reads nothing of its immediate. -/
theorem exec_swi_eq_raise {cond : Cond} {s : State} (immed24 : BitVec 24) (hc : s.condPassed cond = true) :
    exec (.swi cond immed24) s = .next (s.raise .softwareInterrupt) :=
  whenPassed_pos _ hc

end Sys2Proof.Machine

namespace Sys2Proof.Proofs

open Sys2Proof.Machine

/-- Settles O40: the next state is the entry of the exception, which writes R14_svc (physical register 23), SPSR_svc (the
first SPSR), the CPSR and the program counter. -/
theorem swiResult : Obligations.SwiResult := by
  intro cond immed24 s hc
  obtain ⟨thumb, fiqMask, irqMask, above⟩ := s.raise_cpsr_bits .softwareInterrupt
  have vector := s.raise_pc_eq_ite .softwareInterrupt
  have regs (i : Fin 30) (hi : i ≠ 23) : (s.raise .softwareInterrupt).regs[i.val] = s.regs[i.val] :=
    s.raise_regs_of_ne hi
  have spsrs (k : Fin 5) (hk : k ≠ 0) : (s.raise .softwareInterrupt).spsrs[k.val] = s.spsrs[k.val] :=
    s.raise_spsrs_of_ne (e := .softwareInterrupt) rfl hk
  exact ⟨_, exec_swi_eq_raise immed24 hc, s.raise_mode _, s.raise_reg14 _, s.raise_spsr _, thumb, fiqMask, irqMask, above,
    vector, regs, spsrs, s.raise_storesNothing _, s.raise_coprocs _, s.raise_inputs _, s.raise_config _,
    s.raise_freeCount _⟩

end Sys2Proof.Proofs
end

section
/-!
PROOFS. The statements of spec/46_swap.md: what SWP and SWPB load and store (R205, R206), the Data Abort that they take
when one of their accesses is turned away (R209), and where they stop (R207, R208). The two differ in the size of their
accesses, so each path through a swap is told once, for both sizes. A swap that goes through is a store whose base
register is Rd and whose written-back value is the one loaded.
-/

namespace Sys2Proof.Machine

/-! ## The value loaded -/

/-- R55: the value that a read of memory finds, if each of its bytes holds one: the aligned word, or the byte with zeros
above it. -/
def State.valueAt (s : State) (sz : AccessSize) (addr : Word) : Option Word :=
  match sz with
  | .word => s.mem.readWord s.config.bigEndian (alignWord addr).toNat
  | .byte => (s.mem.read addr.toNat).map (BitVec.setWidth 32)

section

variable {s : State} {pr : Privilege} {sz : AccessSize} {addr : Word}

theorem State.memRead_of_abort {kind : AbortKind} (h : s.accessAbort pr sz .read addr = some kind) :
    s.memRead pr sz addr = .aborted kind := by
  cases sz <;> simp only [State.memRead, h]

/-- R41, R55 (log entry 5): a read that is let through answers the value that it finds, or that there is none. -/
theorem State.memRead_of_allowed (h : s.accessAbort pr sz .read addr = none) :
    s.memRead pr sz addr = (s.valueAt sz addr).elim .unwritten .value := by
  cases sz with
  | word =>
    simp only [State.memRead, h, State.valueAt]
    cases s.mem.readWord s.config.bigEndian (alignWord addr).toNat <;> rfl
  | byte =>
    simp only [State.memRead, h, State.valueAt]
    cases s.mem.read addr.toNat <;> rfl

end

/-- R11: rotating right, bit by bit. -/
theorem getLsbD_rotateRight_of_lt (w : Word) {n i : Nat} (hn : n < 32) (hi : i < 32) :
    (w.rotateRight n).getLsbD i = w.getLsbD ((i + n) % 32) := by
  rw [BitVec.getLsbD_rotateRight, Nat.mod_eq_of_lt hn, Bool.cond_decide]
  split
  · rw [Nat.mod_eq_of_lt (by omega), Nat.add_comm]
  · rw [decide_eq_true hi, Bool.true_and, Nat.mod_eq_sub_mod (by omega), Nat.mod_eq_of_lt (by omega)]
    congr 1
    omega

/-- R59: a loaded word is rotated right by 8 times the low two bits of its address. -/
theorem swapLoaded_word_getLsbD (addr w : Word) {i : Nat} (hi : i < 32) :
    (swapLoaded .word addr w).getLsbD i = w.getLsbD ((i + 8 * (addr.toNat % 4)) % 32) := by
  have hlow : (addr.extractLsb' 0 2).toNat = addr.toNat % 4 := by simp [BitVec.extractLsb'_toNat]
  rw [swapLoaded, hlow, getLsbD_rotateRight_of_lt w (by omega) hi]

/-! ## The two accesses -/

section

variable {s : State} {sz : AccessSize} {rd : RegNum} {addr w : Word} (v : Word)

/-- R205, R206: a swap that goes through leaves what a store leaves that writes the loaded value back to Rd. -/
theorem State.swapMemory_of_allowed (hread : s.accessAbort s.privilege sz .read addr = none)
    (hw : s.valueAt sz addr = some w) (hwrite : s.accessAbort s.privilege sz .write addr = none) (hrd : rd ≠ 15#4)
    (hn : s.hasNext) :
    s.swapMemory sz rd addr v = .next (s.afterStore sz addr v (some (rd, swapLoaded sz addr w))) := by
  have hwb : wbNotR15 (some (rd, swapLoaded sz addr w)) := by rintro _ _ ⟨⟩; exact hrd
  rw [← s.storeOne_of_allowed sz addr v hwrite hwb hn]
  simp only [State.swapMemory, State.storeOne, State.memRead_of_allowed hread, hw, Option.elim,
    State.memWrite_of_ok v hwrite, State.writeback]

/-- R209: a refused load, or a load that finds a value and a refused store, ends in the entry of a Data Abort. -/
theorem State.swapMemory_of_refused (h : s.accessAbort s.privilege sz .read addr ≠ none ∨
      (s.valueAt sz addr = some w ∧ s.accessAbort s.privilege sz .write addr ≠ none)) :
    s.swapMemory sz rd addr v = .next (s.raise .dataAbort) := by
  cases hread : s.accessAbort s.privilege sz .read addr with
  | some kind => simp only [State.swapMemory, State.memRead_of_abort hread]
  | none =>
    obtain ⟨hw, hwrite⟩ := h.resolve_left (not_not.2 hread)
    obtain ⟨kind, hkind⟩ := Option.ne_none_iff_exists'.1 hwrite
    simp only [State.swapMemory, State.memRead_of_allowed hread, hw, Option.elim, State.memWrite_of_abort v hkind]

theorem State.swapMemory_of_unwritten (hread : s.accessAbort s.privilege sz .read addr = none)
    (hw : s.valueAt sz addr = none) : s.swapMemory sz rd addr v = .fault .unwrittenRead := by
  simp only [State.swapMemory, State.memRead_of_allowed hread, hw, Option.elim]

end

/-! ## The tests of a swap, in their order -/

/-- R207, R208: the registers that a swap may name. -/
def swapAdmits (rn rd rm : RegNum) : Prop :=
  (rd ≠ 15#4 ∧ rm ≠ 15#4 ∧ rn ≠ 15#4) ∧ rn ≠ rm ∧ rn ≠ rd

theorem swap_contains_r15_iff {rn rd rm : RegNum} :
    [rd, rm, rn].contains 15#4 = true ↔ rd = 15#4 ∨ rm = 15#4 ∨ rn = 15#4 := by
  simp only [List.contains_iff_mem, List.mem_cons, List.not_mem_nil, or_false, eq_comm (a := 15#4)]

section

variable {s : State} {c : Cond} (sz : AccessSize) {rn rd rm : RegNum} {sbz : BitVec 4} (hc : s.condPassed c = true)

include hc

theorem State.swap_of_r15 (h : rd = 15#4 ∨ rm = 15#4 ∨ rn = 15#4) :
    s.swap c sz rn rd sbz rm = .fault .r15Operand := by
  rw [State.swap, whenPassed_pos _ hc, if_pos (swap_contains_r15_iff.2 h)]

theorem State.swap_of_overlap (h15 : ¬ (rd = 15#4 ∨ rm = 15#4 ∨ rn = 15#4)) (h : rn = rm ∨ rn = rd) :
    s.swap c sz rn rd sbz rm = .fault .operandRestriction := by
  rw [State.swap, whenPassed_pos _ hc, if_neg (mt swap_contains_r15_iff.1 h15), if_pos h]

theorem State.swap_of_admits (h : swapAdmits rn rd rm) :
    s.swap c sz rn rd sbz rm = if sbz ≠ 0#4 then .fault .sbz else s.swapMemory sz rd (s.reg rn) (s.reg rm) := by
  obtain ⟨⟨hrd, hrm, hrn⟩, hnm, hnd⟩ := h
  rw [State.swap, whenPassed_pos _ hc, if_neg (mt swap_contains_r15_iff.1 (by simp [hrd, hrm, hrn])),
    if_neg (by simp [hnm, hnd])]

theorem State.swap_of_sbz (h : swapAdmits rn rd rm) (hsbz : sbz ≠ 0#4) :
    s.swap c sz rn rd sbz rm = .fault .sbz := by
  rw [State.swap_of_admits sz hc h, if_pos hsbz]

theorem State.swap_of_admits_zero (h : swapAdmits rn rd rm) :
    s.swap c sz rn rd 0#4 rm = s.swapMemory sz rd (s.reg rn) (s.reg rm) := by
  rw [State.swap_of_admits sz hc h, if_neg (not_not.2 rfl)]

end

/-! ## SWP and SWPB -/

theorem exec_swp_eq_swap (c : Cond) (rn rd rm : RegNum) (sbz : BitVec 4) (s : State) :
    exec (.swp c rn rd sbz rm) s = s.swap c .word rn rd sbz rm := rfl

theorem exec_swpb_eq_swap (c : Cond) (rn rd rm : RegNum) (sbz : BitVec 4) (s : State) :
    exec (.swpb c rn rd sbz rm) s = s.swap c .byte rn rd sbz rm := rfl

theorem exists_exec_eq_swap {i : Instr} {c : Cond} {rn rd rm : RegNum} {sbz : BitVec 4} (s : State)
    (hi : i ∈ [Instr.swp c rn rd sbz rm, Instr.swpb c rn rd sbz rm]) :
    ∃ sz, exec i s = s.swap c sz rn rd sbz rm := by
  simp only [List.mem_cons, List.not_mem_nil, or_false] at hi
  rcases hi with rfl | rfl
  · exact ⟨.word, exec_swp_eq_swap ..⟩
  · exact ⟨.byte, exec_swpb_eq_swap ..⟩

/-- R209, R226: a swap one of whose accesses is turned away. -/
theorem State.swap_of_refused {s : State} {c : Cond} {sz : AccessSize} {rn rd rm : RegNum} {w : Word}
    (hc : s.condPassed c = true) (h : swapAdmits rn rd rm)
    (hrefused : s.accessAbort s.privilege sz .read (s.reg rn) ≠ none ∨
      (s.valueAt sz (s.reg rn) = some w ∧ s.accessAbort s.privilege sz .write (s.reg rn) ≠ none)) :
    ∃ t, s.swap c sz rn rd 0#4 rm = .next t ∧ tookDataAbort s t ∧ storesNothing s t ∧
      ∀ i : Fin 30, i ≠ physIndex (some .abort) 14#4 → t.regs[i.val] = s.regs[i.val] := by
  rw [State.swap_of_admits_zero sz hc h, State.swapMemory_of_refused _ hrefused]
  exact ⟨_, rfl, tookDataAbort_raise rfl rfl rfl, s.raise_storesNothing _, fun _ hi => s.raise_regs_of_ne hi⟩

end Sys2Proof.Machine

namespace Sys2Proof.Proofs

open Sys2Proof.Machine

/-- Settles O36: the word loaded is the written-back value of a word store. -/
theorem swpResult : Obligations.SwpResult := by
  intro cond rn rd rm s w hc hn hrd hrm hrn hnm hnd hread hwrite hw
  rw [exec_swp_eq_swap, State.swap_of_admits_zero .word hc ⟨⟨hrd, hrm, hrn⟩, hnm, hnd⟩,
    State.swapMemory_of_allowed _ (State.accessAbort_word_eq_none_iff.2 hread) hw
      (State.accessAbort_word_eq_none_iff.2 hwrite) hrd hn]
  refine ⟨_, rfl, fun i hi => ?_, s.afterStore_blockStored _ _ _, s.afterStore_some_regsKeptBut _ _ _ _ hrd, by simp,
    s.afterStore_specialKept _ _ _ _, s.afterStore_wentOn _ _ _ _⟩
  rw [s.afterStore_some_reg _ _ _ _ hrd, swapLoaded_word_getLsbD _ _ hi]

/-- Settles O37: as O36, with the one byte for the word. -/
theorem swpbResult : Obligations.SwpbResult := by
  intro cond rn rd rm s b hc hn hrd hrm hrn hnm hnd hread hwrite hb
  have hw : s.valueAt .byte (s.reg rn) = some (b.setWidth 32) := Option.map_eq_some_iff.2 ⟨b, hb, rfl⟩
  rw [exec_swpb_eq_swap, State.swap_of_admits_zero .byte hc ⟨⟨hrd, hrm, hrn⟩, hnm, hnd⟩,
    State.swapMemory_of_allowed _ (State.accessAbort_byte_eq_none_iff.2 hread) hw
      (State.accessAbort_byte_eq_none_iff.2 hwrite) hrd hn]
  refine ⟨_, rfl, ?loaded, ?byte, ?outside, ?stored, s.afterStore_some_regsKeptBut _ _ _ _ hrd, by simp,
    s.afterStore_specialKept _ _ _ _, s.afterStore_wentOn _ _ _ _⟩
  case loaded =>
    rw [s.afterStore_some_reg _ _ _ _ hrd]
    exact BitVec.toNat_setWidth_of_le (by decide)
  case byte => simp
  case outside =>
    simpa only [memKeptOutside, State.afterStore_mem, State.put_byte] using s.memKeptOutside_putByte _ _
  case stored =>
    simpa only [storedGrows, State.afterStore_stored, State.put_byte] using s.storedGrows_putByte _ _

/-- Settles O38: whichever access is turned away, the swap's next state is the entry of the Data Abort. -/
theorem swapAborts : Obligations.SwapAborts := by
  intro cond rn rd rm s w b hc hrd hrm hrn hnm hnd
  have h : swapAdmits rn rd rm := ⟨⟨hrd, hrm, hrn⟩, hnm, hnd⟩
  refine ⟨fun hrefused => ?swp, fun hrefused => ?swpb⟩
  case swp =>
    rw [← State.accessAbort_word_eq_none_iff, ← State.accessAbort_word_eq_none_iff] at hrefused
    exact State.swap_of_refused hc h hrefused
  case swpb =>
    rw [← State.accessAbort_byte_eq_none_iff, ← State.accessAbort_byte_eq_none_iff] at hrefused
    have hvalue (hb : s.mem.read (s.reg rn).toNat = some b) : s.valueAt .byte (s.reg rn) = some (b.setWidth 32) :=
      Option.map_eq_some_iff.2 ⟨b, hb, rfl⟩
    exact State.swap_of_refused hc h (hrefused.imp_right fun ⟨hb, hwrite⟩ => ⟨hvalue hb, hwrite⟩)

/-- Settles O39: the tests come before the size of the access matters, and the load before the store. -/
theorem swapStops : Obligations.SwapStops := by
  intro cond rn rd sbz rm s hc
  refine ⟨fun i hi => ?tests, fun hrd hrm hrn hnm hnd hsbz => ?unwritten⟩
  case tests =>
    obtain ⟨sz, hexec⟩ := exists_exec_eq_swap s hi
    rw [hexec]
    exact ⟨State.swap_of_r15 sz hc, fun hrd hrm hrn => State.swap_of_overlap sz hc (by simp [hrd, hrm, hrn]),
      fun hrd hrm hrn hnm hnd => State.swap_of_sbz sz hc ⟨⟨hrd, hrm, hrn⟩, hnm, hnd⟩⟩
  case unwritten =>
    subst hsbz
    have h : swapAdmits rn rd rm := ⟨⟨hrd, hrm, hrn⟩, hnm, hnd⟩
    rw [exec_swp_eq_swap, exec_swpb_eq_swap, State.swap_of_admits_zero .word hc h, State.swap_of_admits_zero .byte hc h]
    exact ⟨fun hread hw => State.swapMemory_of_unwritten _ (State.accessAbort_word_eq_none_iff.2 hread) hw,
      fun hread hb => State.swapMemory_of_unwritten _ (State.accessAbort_byte_eq_none_iff.2 hread)
        (Option.map_eq_none_iff.2 hb)⟩

end Sys2Proof.Proofs
end

section
/-!
PROOFS. The statements of spec/60_exceptions.md: what an exception entry writes and keeps (R221, R222), how SUBS PC, R14 comes
back from it (R236), which input or refused fetch is taken before the instruction (R225, R227, R230), and that User mode is
left only this way (R246).
-/

namespace Sys2Proof.Machine

/-! ## What an exception entry keeps -/

/-- R221, R245: every mode that an exception enters has an SPSR. -/
theorem Exc.exists_spsrIndex (e : Exc) : ∃ k, e.mode.spsrIndex = some k := by
  cases e <;> exact ⟨_, rfl⟩

theorem State.raise_spsrs_of_spsrIndex_ne (s : State) {e : Exc} {k : Fin 5} (h : e.mode.spsrIndex ≠ some k) :
    (s.raise e).spsrs[k.val] = s.spsrs[k.val] := by
  obtain ⟨j, hj⟩ := e.exists_spsrIndex
  refine s.raise_spsrs_of_ne hj ?_
  rintro rfl
  exact h hj

/-! ## The return from an exception -/

/-- R96: an immediate that is not rotated. -/
@[simp] theorem rotatedImmediate_zero_value (imm : BitVec 8) (c : Bool) :
    (rotatedImmediate 0#4 imm c).1 = imm.setWidth 32 := by
  refine BitVec.eq_of_getLsbD_eq fun i hi => ?_
  rw [getLsbD_rotatedImmediate _ _ _ hi]
  simp [hi, Nat.mod_eq_of_lt]

/-- R235, R236: SUBS PC, R14, #n as the first instruction after an entry comes back to `target` with the CPSR that the entry
saved. -/
theorem State.exec_subs_pc_lr_raise {s : State} (hs : s.executable) {e : Exc} {n : BitVec 8} {target : Word}
    (htarget : s.pc + e.linkOffset - n.setWidth 32 = target) (haligned : misaligned target = false) :
    exec (.sub .al true 14#4 15#4 (.imm 0#4 n)) (s.raise e) = .next { s.raise e with cpsr := s.cpsr, pc := target } := by
  obtain ⟨hT, hM, _⟩ := hs
  have hmode : isModeNumber (s.raise e).config.arch (psrM s.cpsr) := by
    rw [s.raise_config]
    exact (Mode.ofBitsIn_ne_none_iff _ _).1 hM
  have hvalue : (s.raise e).opnd 14#4 - ((s.raise e).shifterOperand (.imm 0#4 n)).1 = target := by
    rw [State.opnd_of_ne _ (by decide), s.raise_reg14, State.shifterOperand, rotatedImmediate_zero_value, htarget]
  rw [exec_subs_pc_eq_exceptionReturn rfl rfl, hvalue, State.exceptionReturn_of_isModeNumber (s.raise_spsr e) hT hmode,
    haligned]
  rfl

/-! ## Interrupts -/

section

variable {s : State} {x : InputSample} (hreset : x.reset = false)

include hreset

theorem State.interrupt_of_fiq (hfiq : x.fiq = true) (hF : psrF s.cpsr = false) :
    s.interrupt x = some (s.raise .fiq) := by
  simp [State.interrupt, hreset, hfiq, hF]

/-- R230: IRQ comes after a FIQ that would be taken. -/
theorem State.interrupt_of_irq (hfiq : ¬ (x.fiq = true ∧ psrF s.cpsr = false)) (hirq : x.irq = true)
    (hI : psrI s.cpsr = false) : s.interrupt x = some (s.raise .irq) := by
  have hfiq' : (x.fiq && !psrF s.cpsr) = false := by simpa using hfiq
  simp [State.interrupt, hreset, hfiq', hirq, hI]

end

theorem step_of_interrupt {s t : State} (he : s.executable) (h : s.takeInput.interrupt s.inputNow = some t) :
    step s = .next t := by
  simp only [step, State.notExecutable_of_executable he, h]

/-- R221, R227: the next state where an input is taken, with the rows of the table still to be read off. -/
theorem step_of_interrupt_raise {s : State} {e : Exc} (he : s.executable)
    (h : s.takeInput.interrupt s.inputNow = some (s.takeInput.raise e)) :
    ∃ t, step s = .next t ∧ t.mode = some e.mode ∧ t.reg 14#4 = s.pc + e.linkOffset ∧ t.spsr = some s.cpsr ∧
      psrF t.cpsr = (e.setsF || psrF s.cpsr) ∧ psrI t.cpsr = true ∧ psrT t.cpsr = false ∧
      t.pc = s.vectorBase + e.vectorOffset ∧ storesNothing s t ∧ t.inputs = s.inputs.tail ∧ t.afterStm2 = false := by
  obtain ⟨thumb, fiqMask, irqMask, _⟩ := s.takeInput.raise_cpsr_bits e
  exact ⟨_, step_of_interrupt he h, State.raise_mode _ e, State.raise_reg14 _ e, State.raise_spsr _ e, fiqMask, irqMask,
    thumb, State.raise_pc _ e, s.takeInput.raise_storesNothing e, State.raise_inputs _ e, State.raise_afterStm2 _ e⟩

/-! ## Refused fetches -/

/-- R225: a fetch aborts exactly where the memory system refuses it. -/
theorem State.fetch_eq_aborted_iff {s : State} :
    s.fetch = .aborted ↔ s.memSysAborts s.privilege .word .read s.pc = true := by
  unfold State.fetch
  split
  case isTrue h => simp [h]
  case isFalse h =>
    split
    · simp [h]
    · split <;> simp [h]

theorem State.memSysAborts_of_memSys_nil {s : State} (h : s.config.memSys = []) (pr : Privilege) (sz : AccessSize)
    (kind : AccessKind) (a : Word) : s.memSysAborts pr sz kind a = false := by
  simp [State.memSysAborts, h]

theorem step_of_fetch_aborted {s : State} (he : s.executable) (hu : s.undisturbed) (h : s.fetch = .aborted) :
    step s = .next (s.takeInput.raise .prefetchAbort) := by
  rw [step_of_undisturbed he hu, State.runInstruction, State.takeInput_fetch, h]

/-! ## User mode -/

theorem control_of_psrKeptBelowFlags {s t : State} (h : psrKeptBelowFlags s t) :
    t.cpsr.extractLsb' 0 8 = s.cpsr.extractLsb' 0 8 := by
  ext i hi
  simpa using getLsbD_of_psrKeptBelowFlags h (show i < 28 by omega)

/-- R246: an instruction in User mode, which has no SPSR to return with, keeps the control bits or takes an exception. -/
theorem Goes.control_of_user {i : Instr} {s t : State} (h : Goes i s t) (hs : s.mode = some .user) :
    t.cpsr.extractLsb' 0 8 = s.cpsr.extractLsb' 0 8 ∨
      ∃ e : Exc, t.mode = some e.mode ∧ t.spsr = some s.cpsr ∧ t.pc = s.vectorBase + e.vectorOffset := by
  rcases h with ⟨u, _, hc, _, rfl⟩ | ⟨_, _, _, _, _, _, rfl⟩ | ⟨_, _, _, _, saved, _, hsaved, _⟩ | ⟨e, u, hk, hc, rfl⟩
  case inl =>
    rcases hc with hc | ⟨_, hc⟩
    · exact .inl (congrArg _ hc)
    · exact .inl (control_of_psrKeptBelowFlags hc)
  case inr.inl => exact .inl rfl
  case inr.inr.inl =>
    rw [State.spsr_eq_none (.inl hs)] at hsaved
    cases hsaved
  case inr.inr.inr => exact .inr ⟨e, raise_of_keeps e hk hc⟩

end Sys2Proof.Machine

namespace Sys2Proof.Proofs

open Sys2Proof.Machine

/-- Settles O42: the link value less the constant is the address to go on at, which is word aligned as the program counter
is. -/
theorem returnAfterEntry : Obligations.ReturnAfterEntry := by
  intro s hs p hp
  have hlink : p.1.linkOffset = p.2.2 + p.2.1.setWidth 32 := by revert p; decide
  have hk : p.2.2 = 0#32 ∨ p.2.2 = 4#32 := by revert p; decide
  refine State.exec_subs_pc_lr_raise hs ?target ?aligned
  case target => rw [hlink, ← BitVec.add_assoc, BitVec.add_sub_cancel]
  case aligned =>
    obtain ⟨_, _, hpc⟩ := hs
    rcases hk with h | h <;> rw [h]
    · rwa [BitVec.add_zero]
    · exact misaligned_add_four hpc

/-- Settles O54: before an instruction only a reset or an exception leaves User mode, and an instruction does it by an
exception. -/
theorem userModeConfined : Obligations.UserModeConfined := by
  intro s t hs h
  obtain ⟨_, ⟨hreset, _⟩ | ⟨e, rfl⟩ | ⟨i, _, hexec⟩⟩ := step_next h
  · exact .inr (.inl hreset)
  · exact .inr (.inr ⟨e, State.raise_mode _ e, State.raise_spsr _ e, State.raise_pc _ e⟩)
  · exact ((exec_next hexec).control_of_user hs).imp_right .inr

/-- Settles O41: the rows are the model's table, and each field is a rule about the entry. -/
theorem exceptionEntry : Obligations.ExceptionEntry := by
  intro s e m link vector setsF h
  obtain ⟨rfl, rfl, rfl, rfl⟩ : m = e.mode ∧ link = e.linkOffset ∧ vector = e.vectorOffset ∧ setsF = e.setsF := by
    simp only [List.mem_cons, List.not_mem_nil, or_false, Prod.mk.injEq] at h
    rcases h with ⟨rfl, rfl, rfl, rfl, rfl⟩ | ⟨rfl, rfl, rfl, rfl, rfl⟩ | ⟨rfl, rfl, rfl, rfl, rfl⟩ |
      ⟨rfl, rfl, rfl, rfl, rfl⟩ | ⟨rfl, rfl, rfl, rfl, rfl⟩ | ⟨rfl, rfl, rfl, rfl, rfl⟩ <;> exact ⟨rfl, rfl, rfl, rfl⟩
  obtain ⟨thumb, fiqMask, irqMask, above⟩ := s.raise_cpsr_bits e
  exact ⟨s.raise_mode e, s.raise_reg14 e, s.raise_spsr e, thumb, fiqMask, irqMask, above, s.raise_pc e,
    fun _ hi => s.raise_regs_of_ne hi, fun _ hk => s.raise_spsrs_of_spsrIndex_ne hk, s.raise_mem e, s.raise_stored e,
    s.raise_coprocs e, s.raise_inputs e, s.raise_config e, s.raise_freeCount e⟩

/-- Settles O46: the entry's rules at the rows of FIQ and IRQ. -/
theorem interrupts : Obligations.Interrupts := by
  intro s he hreset
  exact ⟨fun hfiq hF => step_of_interrupt_raise he (State.interrupt_of_fiq hreset hfiq hF),
    fun hfiq hirq hI => step_of_interrupt_raise he (State.interrupt_of_irq hreset hfiq hirq hI)⟩

/-- Settles O47: a fetch aborts exactly where the memory system refuses it, which takes a row. -/
theorem prefetchAborts : Obligations.PrefetchAborts := by
  refine fun s => ⟨fun he hu hrefused => ?refused, fun hnone haborted => ?noRows⟩
  case refused =>
    have hstep := step_of_fetch_aborted he hu (State.fetch_eq_aborted_iff.2 hrefused)
    have vector := s.takeInput.raise_pc_eq_ite .prefetchAbort
    exact ⟨_, hstep, State.raise_mode _ _, State.raise_reg14 _ _, State.raise_spsr _ _, vector,
      fun _ hi => s.takeInput.raise_regs_of_ne hi, s.takeInput.raise_storesNothing _, State.raise_coprocs _ _⟩
  case noRows =>
    rw [State.fetch_eq_aborted_iff, State.memSysAborts_of_memSys_nil hnone] at haborted
    cases haborted

end Sys2Proof.Proofs
end

section
/-!
PROOFS. The statement of spec/70_reset_and_hazards.md on the instruction after an STM (2) (R268): the model's test of the
instruction is the spec's test of its word.
-/

namespace Sys2Proof.Machine

/-! ## Banked registers -/

theorem bankedNumber_eq_true_iff {mode : Option Mode} {r : RegNum} :
    bankedNumber mode r = true ↔
      r = 13#4 ∨ r = 14#4 ∨ (mode = some .fiq ∧ 8 ≤ r.toNat ∧ r.toNat ≤ 12) := by
  simp [bankedNumber, or_assoc, and_assoc]

/-- R268: the instructions that access banked state without naming it, by name. -/
theorem accessesBankedState_eq_true_iff {i : Instr} :
    accessesBankedState i = true ↔ (∃ c n, i = .swi c n) ∨ ∃ c rn o, i = .sub c true rn 15#4 o := by
  cases i <;> simp [accessesBankedState]

/-- R82, R268: which instructions may not follow an STM (2), read from the word. -/
theorem accessesBanked_eq_true_iff {w : Word} {i : Instr} (h : decode w = .instr i) {mode : Option Mode} :
    accessesBanked i mode = true ↔
      (∃ c n, i = .swi c n) ∨ (∃ c rn o, i = .sub c true rn 15#4 o) ∨
        ∃ r, namesRegister i w r ∧ (r = 13#4 ∨ r = 14#4 ∨ (mode = some .fiq ∧ 8 ≤ r.toNat ∧ r.toNat ≤ 12)) := by
  simp only [accessesBanked, Bool.or_eq_true, List.any_eq_true, accessesBankedState_eq_true_iff, mem_fieldRegs_iff h,
    bankedNumber_eq_true_iff, or_assoc]

/-- R268: the restriction is tested on the decoded instruction, before its condition. -/
theorem State.runInstruction_of_hazard {s : State} {w : Word} {i : Instr} (hf : s.fetch = .word w)
    (hd : s.decodeWord w = .instr i) (hh : s.hazard i = true) : s.runInstruction = .fault .bankedAfterStm2 := by
  simp [State.runInstruction, hf, hd, hh]

end Sys2Proof.Machine

namespace Sys2Proof.Proofs

open Sys2Proof.Machine

/-- Settles O48: where the test of R268 fails, what is left of the step is `stepRunsDecoded`. -/
theorem hazardAfterStm2 : Obligations.HazardAfterStm2 := by
  intro s w i he hu hf hd ha hv hafter
  rw [← accessesBanked_eq_true_iff hd]
  refine ⟨fun hbanked => ?fault, fun hbanked => ?executed⟩
  case fault =>
    have hhazard : s.takeInput.hazard i = true := Bool.and_eq_true_iff.2 ⟨hafter, hbanked⟩
    rw [step_of_undisturbed he hu]
    exact State.runInstruction_of_hazard (State.fetch_of_fetches hf) (State.decodeWord_of_decode hd ha hv) hhazard
  case executed => exact stepRunsDecoded s w i he hu hf hd ha hv fun ⟨_, h⟩ => hbanked h

end Sys2Proof.Proofs
end
